-- ==== Sys2Proof/Word.lean ====
section
/-! DEFINITION. The one word of this hardware: every RegisterPort access moves exactly 8 bits
(spec/20_memory.md R211, R212). Wider values are composed in Machine/Operands.lean. -/

namespace Sys2Proof

/-- One 8-bit register value, and one byte of a command frame (R201, R300). -/
abbrev Byte := BitVec 8

end Sys2Proof
end

