-- ==== Sys2Proof/Syntax.lean ====
section
/-! DEFINITION. The commands of the CORE, one constructor per row of spec/opcode_table.json
(spec/30_encoding.md R302), and the three enumerated operand types (R310 to R312).
Frequencies, thresholds, IDs, channel indices and CER values are naturals: nothing ever shifts or
masks them. Their widths (R303) are checked in WellFormed.lean. -/

namespace Sys2Proof

/-- The receiver modes (spec/10_state.md R103, spec/30_encoding.md R310). -/
inductive ReceiverMode where
  | tdmb | dabBand3 | dabLband | isdb1seg | fm
  deriving DecidableEq, Repr, Inhabited

/-- The ADC clock types: 8 MHz, 8.192 MHz, 9 MHz and 9.6 MHz (R105, R311). -/
inductive AdcClockType where
  | clk8000 | clk8192 | clk9000 | clk9600
  deriving DecidableEq, Repr, Inhabited

/-- The service types of a sub-channel (R107, R312). -/
inductive ServiceType where
  | video | audio | data
  deriving DecidableEq, Repr, Inhabited

/-- The commands (R302). Operands stand in the order of R302. -/
inductive Instr where
  | init (mode : ReceiverMode)
  | adcConfigure (mode : ReceiverMode) (clk : AdcClockType)
  | adcChangeClock (mode : ReceiverMode) (clk : AdcClockType)
  | setFreq (mode : ReceiverMode) (ch freq : Nat)
  | scanFreq (freq : Nat)
  | openSubch (freq id : Nat) (svc : ServiceType) (thr : Nat)
  | closeSubch (id : Nat)
  | closeAllSubch
  | disableStreamOut
  | getLockStatus
  | getPer
  | getRssi
  | getCnr
  | getBer
  | getCer
  | getAntennaLevel (cer : Nat)
  | getPrevFreq
  deriving DecidableEq, Repr, Inhabited

end Sys2Proof
end

