-- ==== Sys2Proof/Config.lean ====
section
/-! DEFINITION. The RegisterPort's vocabulary (spec/20_memory.md R200 to R203), the hardware
description table as plain data (spec/00_scope.md R7 to R10), and the two open constants: the HDT a
fresh machine is given and the read oracle (R12, R204). Both are opaque, so a claim holds whatever
they are. What the table's rows mean is Machine/Hdt.lean. -/

namespace Sys2Proof

/-! ### Locators (R8) -/

/-- The pages the HDT supplies: the three the source names and any others, by number (R8, D65). -/
inductive PageId where
  | rf | a | b
  | other (n : Nat)
  deriving DecidableEq, Repr, Inhabited

/-- A register locator (R8). -/
structure Reg where
  page : PageId
  off : Byte
  deriving DecidableEq, Repr, Inhabited

/-- A bit locator (R8). -/
structure BitLoc where
  reg : Reg
  pos : Fin 8
  deriving DecidableEq, Repr, Inhabited

/-- A field locator; the field's width is fixed by where the locator is used (R8, R10). -/
structure FieldLoc where
  reg : Reg
  lo : Fin 8
  deriving DecidableEq, Repr, Inhabited

/-- A 16-bit value's registers, high and low (R210). -/
structure Reg2 where
  h : Reg
  l : Reg
  deriving DecidableEq, Repr, Inhabited

/-- A 24-bit value's registers, high, mid and low (R210). -/
structure Reg3 where
  h : Reg
  m : Reg
  l : Reg
  deriving DecidableEq, Repr, Inhabited

/-- A 32-bit value's registers, index 3 most significant (R210). -/
structure Reg4 where
  r3 : Reg
  r2 : Reg
  r1 : Reg
  r0 : Reg
  deriving DecidableEq, Repr, Inhabited

/-! ### Port calls, events and agents (R200, R203, R220) -/

/-- A RegisterPort call as the CORE issues it. `selectPage` is never issued (R202); `lock` and
`unlock` are the atomicity of each call (R203, R207). -/
inductive PortOp where
  | rd (r : Reg)
  | wr (r : Reg) (v : Byte)
  | wrM (r : Reg) (m v : Byte)
  | dlyMs (n : Nat)
  | dlyUs (n : Nat)
  deriving DecidableEq, Repr, Inhabited

/-- One event of the trace: a call, with the answer where it is a read (R203). -/
inductive Event where
  | rd (r : Reg) (b : Byte)
  | wr (r : Reg) (v : Byte)
  | wrM (r : Reg) (m v : Byte)
  | dlyMs (n : Nat)
  | dlyUs (n : Nat)
  deriving DecidableEq, Repr, Inhabited

/-- The two agents that issue port calls (R220). -/
inductive Agent where
  | control | getter
  deriving DecidableEq, Repr, Inhabited

/-- One entry of the trace, with the agent that issued the call (R203, R223). -/
structure Call where
  agent : Agent
  event : Event
  deriving DecidableEq, Repr, Inhabited

/-! ### Actions (R9) -/

/-- One register write of an action (R9). -/
inductive PortWrite where
  | wr (r : Reg) (v : Byte)
  | wrM (r : Reg) (m v : Byte)
  deriving DecidableEq, Repr, Inhabited

/-- A finite list of register writes, issued in list order (R9). -/
abbrev Action := List PortWrite

/-- A byte an action row writes: a constant, or byte `k` of the action's numeric argument (byte 0 is
the least significant). -/
inductive ByteSrc where
  | lit (b : Byte)
  | arg (k : Nat)
  deriving DecidableEq, Repr, Inhabited

/-- One write of an action that takes an argument. -/
inductive WriteTmpl where
  | wr (r : Reg) (v : ByteSrc)
  | wrM (r : Reg) (m : Byte) (v : ByteSrc)
  deriving DecidableEq, Repr, Inhabited

/-- One row of an action table: the writes for a slot and every argument in `lo..hi`. -/
structure SlotActionRow where
  slot : Nat
  lo : Nat
  hi : Nat
  writes : List WriteTmpl
  deriving DecidableEq, Repr, Inhabited

/-- One value for each receiver mode. -/
structure PerMode (α : Type) where
  tdmb : α
  dabBand3 : α
  dabLband : α
  isdb1seg : α
  fm : α
  deriving DecidableEq, Repr, Inhabited

/-- The two hardware decode slot groups (R17, R109). -/
inductive Group where
  | msc0 | msc1
  deriving DecidableEq, Repr, Inhabited

/-- One value for each slot group. -/
structure PerGroup (α : Type) where
  msc0 : α
  msc1 : α
  deriving DecidableEq, Repr, Inhabited

/-! ### Tables (R10) -/

/-- A row of `ADC_TUPLE` (R10, R501). -/
structure AdcTupleRow where
  xtal : Nat
  clk : AdcClockType
  tuple : Vector Byte 7
  deriving DecidableEq, Repr, Inhabited

/-- A row of `CLK_FOR`: the clock type of every frequency in `lo..hi` (R10, R610). -/
structure ClkRow where
  xtal : Nat
  mode : ReceiverMode
  lo : Nat
  hi : Nat
  clk : AdcClockType
  deriving DecidableEq, Repr, Inhabited

/-- A row of `NF_FOR`: the PLL numerator of every frequency in `lo..hi` (R10, R610). -/
structure NfRow where
  xtal : Nat
  mode : ReceiverMode
  lo : Nat
  hi : Nat
  nf : Nat
  deriving DecidableEq, Repr, Inhabited

/-- A row of `ISDB_NF_BASE` and `ISDB_NF_STEP` (R10). -/
structure IsdbNfRow where
  xtal : Nat
  base : Nat
  step : Nat
  deriving DecidableEq, Repr, Inhabited

/-- The threshold set one transmission mode selects (R10, R811). `UNLOCK_LIMIT_TIGHT` stands here, one for
each transmission mode (spec/92_eei_decisions.md D62, log 8). -/
structure ScanThresholds where
  power : Nat
  gain : Nat
  cfHi : Nat
  cfLo : Nat
  nlMin : Nat
  nlMax : Nat
  gainLow : Nat
  nlMarginal : Nat
  dcGainHigh : Nat
  unlockLimitTight : Nat
  deriving DecidableEq, Repr, Inhabited

/-- The coefficients of one LNA gain index in the RSSI shape (R920). -/
structure RssiCoeff where
  a : Int
  b : Int
  c : Int
  deriving DecidableEq, Repr, Inhabited

/-- `RSSI_FN` as plain data: the listed values, and elsewhere the shape of R920 (R10, D44). -/
structure RssiTable where
  values : List ((Nat × Nat × Nat) × Int)
  coeff : Vector RssiCoeff 4
  div : Int
  corrWhen : List (Nat × Nat × Nat)
  corr : Int
  deriving DecidableEq, Repr, Inhabited

/-- `FRAMING` (R10). -/
inductive Framing where
  | individual | cif
  deriving DecidableEq, Repr, Inhabited

/-- `ARITH` (R10, R15). -/
inductive Arith where
  | exact | wrap32
  deriving DecidableEq, Repr, Inhabited

/-! ### The hardware description table (R10), by component -/

/-- The AdcClockSelector's fields. `ADC_TUPLE_REG` lies on `PAGE_RF`, so only its offsets stand here. -/
structure AdcHdt where
  tupleRows : List AdcTupleRow
  tupleOff : Vector Byte 7
  lockBit : BitLoc
  busLockReg : Reg
  busLockMask : Byte
  busLockOff : Byte
  busLockOn : Byte
  clkInit : AdcClockType
  deriving DecidableEq, Repr, Inhabited

/-- The FrequencySynthesizer's fields. -/
structure PllHdt where
  clkRows : List ClkRow
  nfRows : List NfRow
  isdbRows : List IsdbNfRow
  isdbChMin : Fin 256
  isdbChMax : Fin 256
  sel : PerMode Bool
  reg : Reg3
  rb : Reg3
  lockBit : BitLoc
  rstAssert : PerMode (Reg × Byte)
  rstDeassert : PerMode (Reg × Byte)
  deriving DecidableEq, Repr, Inhabited

/-- The SubChannelAllocator's fields. -/
structure AllocHdt where
  multiSubch : Bool
  numDataSlots : Nat
  framing : Framing
  maxThrIndividual : Nat
  slotSetId : List SlotActionRow
  slotRs : List SlotActionRow
  slotDisable : List SlotActionRow
  irqEnable : PerGroup Action
  irqDisable : PerGroup Action
  payloadAlloc : List SlotActionRow
  payloadReset : PerGroup Action
  streamOn : Action
  streamOff : Action
  deriving DecidableEq, Repr, Inhabited

/-- The ChannelScanner's fields. The byte predicates `SCAN_NOT_SIGNAL`, `SCAN_SIGNAL` and
`FSM_IS_UNLOCK` are the lists of the bytes they hold of. -/
structure ScanHdt where
  doneReg : Reg
  notSignal : List Byte
  signal : List Byte
  pwr : Reg2
  preagcReg : Reg
  txmode : FieldLoc
  thresholds : Vector ScanThresholds 4
  coarseFreq : Reg2
  nullLen : Reg2
  dcI : Reg2
  dcQ : Reg2
  fsmStateReg : Reg
  fsmUnlock : List Byte
  coarseCntReg : Reg
  deriving DecidableEq, Repr, Inhabited

/-- The SignalQualityEstimator's fields. `OFDM_LOCK_BIT` lies on `PAGE_A`, `FEC_SYNC_FIELD` on
`PAGE_B`, and `LNA_FIELD` and `RFAGC_FIELD` on `AGC_REG`. -/
structure QualityHdt where
  ofdmLockOff : Byte
  ofdmLockPos : Fin 8
  fecSyncOff : Byte
  fecSyncLo : Fin 8
  rsSyncBit : BitLoc
  perCnt : Reg2
  agcReg : Reg
  lnaLo : Fin 8
  rfagcLo : Fin 8
  bbgainReg : Reg
  rssi : RssiTable
  cnrTrigger : Action
  cnrAcc : Reg2
  cnrLowConst : Nat
  cnrLut : Vector Nat 146
  cnrFloor : Nat
  cnrDiv : Nat
  berErr : Reg3
  berTot : Reg3
  berScale : Nat
  cerLockBit : BitLoc
  cerPeriod : Reg4
  cerErr : Reg4
  arith : Arith
  deriving DecidableEq, Repr, Inhabited

/-- The hardware description table: every field of R10. -/
structure Hdt where
  xtalKhz : Nat
  supportedModes : List ReceiverMode
  initSeq : PerMode Action
  adc : AdcHdt
  pll : PllHdt
  alloc : AllocHdt
  scan : ScanHdt
  quality : QualityHdt
  deriving DecidableEq, Repr, Inhabited

/-! ### The open constants -/

/-- The HDT a fresh machine is given: an argument the model never looks into (R12, R1110). -/
opaque Config.hdt : Hdt

/-- The read oracle: any byte, depending on the whole trace so far and the register (R204). -/
opaque Config.freeRead : List Call → Reg → Byte

end Sys2Proof
end

