-- ==== Sys2Proof/WellFormed.lean ====
section
/-! DEFINITION. The operand widths of spec/30_encoding.md R303: a command is well formed when every
numeric operand fits the bytes its frame gives it. `id` is 8 bits wide: 64..255 are well formed and are
rejected at execution (R303, spec/43_subchannel_alloc.md R700). -/

namespace Sys2Proof

/-- Every numeric operand fits its field (R303). -/
def Instr.wellFormed : Instr → Bool
  | .init _ => true
  | .adcConfigure _ _ => true
  | .adcChangeClock _ _ => true
  | .setFreq _ ch freq => decide (ch < 2 ^ 8) && decide (freq < 2 ^ 32)
  | .scanFreq freq => decide (freq < 2 ^ 32)
  | .openSubch freq id _ thr =>
      decide (freq < 2 ^ 32) && decide (id < 2 ^ 8) && decide (thr < 2 ^ 32)
  | .closeSubch id => decide (id < 2 ^ 8)
  | .closeAllSubch => true
  | .disableStreamOut => true
  | .getLockStatus => true
  | .getPer => true
  | .getRssi => true
  | .getCnr => true
  | .getBer => true
  | .getCer => true
  | .getAntennaLevel cer => decide (cer < 2 ^ 16)
  | .getPrevFreq => true

end Sys2Proof
end

