-- ==== Sys2Proof/Decode.lean ====
section
/-! DEFINITION. Command frames (spec/30_encoding.md R300 to R312): the enumerator encodings, the
decoder, total on any bytes and rejecting by name (R304), and the encoder, written from the same
tables. -/

namespace Sys2Proof

/-! ### Enumerators (R310 to R312) -/

/-- R310. -/
def ReceiverMode.code : ReceiverMode → Byte
  | .tdmb => 0 | .dabBand3 => 1 | .dabLband => 2 | .isdb1seg => 3 | .fm => 4

/-- R310: values 5..255 are reserved. -/
def ReceiverMode.ofByte (b : Byte) : Option ReceiverMode :=
  match b.toNat with
  | 0 => some .tdmb | 1 => some .dabBand3 | 2 => some .dabLband | 3 => some .isdb1seg
  | 4 => some .fm | _ => none

/-- R311. -/
def AdcClockType.code : AdcClockType → Byte
  | .clk8000 => 0 | .clk8192 => 1 | .clk9000 => 2 | .clk9600 => 3

/-- R311: values 4..255 are reserved. -/
def AdcClockType.ofByte (b : Byte) : Option AdcClockType :=
  match b.toNat with
  | 0 => some .clk8000 | 1 => some .clk8192 | 2 => some .clk9000 | 3 => some .clk9600 | _ => none

/-- R312. -/
def ServiceType.code : ServiceType → Byte
  | .video => 0 | .audio => 1 | .data => 2

/-- R312: values 3..255 are reserved. -/
def ServiceType.ofByte (b : Byte) : Option ServiceType :=
  match b.toNat with
  | 0 => some .video | 1 => some .audio | 2 => some .data | _ => none

/-! ### Decoding -/

/-- Why a byte sequence spells no command (R304). -/
inductive DecodeError where
  /-- R304.1, R305: the opcode is unassigned. -/
  | unassignedOpcode (op : Byte)
  /-- R304.2: the bytes end before the frame does (no byte at all included). -/
  | shortFrame
  /-- R304.3, R310: a reserved mode. -/
  | reservedMode (b : Byte)
  /-- R304.3, R311: a reserved clock type. -/
  | reservedClock (b : Byte)
  /-- R304.3, R312: a reserved service type. -/
  | reservedService (b : Byte)
  deriving DecidableEq, Repr, Inhabited

/-- A command with the bytes after its frame (R304), or the reason there is none. -/
abbrev DecodeResult := Except DecodeError (Instr × List Byte)

/-- Big-endian assembly, most significant byte first (R300, R303). -/
def beNat (bs : List Byte) : Nat :=
  bs.foldl (fun n b => n * 256 + b.toNat) 0

/-- Format `FM` after the opcode (R301). -/
def decodeFM (mk : ReceiverMode → Instr) : List Byte → DecodeResult
  | m :: rest =>
    match ReceiverMode.ofByte m with
    | some mode => .ok (mk mode, rest)
    | none => .error (.reservedMode m)
  | [] => .error .shortFrame

/-- Format `FMC` after the opcode (R301). -/
def decodeFMC (mk : ReceiverMode → AdcClockType → Instr) : List Byte → DecodeResult
  | m :: c :: rest =>
    match ReceiverMode.ofByte m, AdcClockType.ofByte c with
    | some mode, some clk => .ok (mk mode clk, rest)
    | none, _ => .error (.reservedMode m)
    | some _, none => .error (.reservedClock c)
  | _ => .error .shortFrame

/-- Format `FSF` after the opcode (R301, R303). -/
def decodeFSF (mk : ReceiverMode → Nat → Nat → Instr) : List Byte → DecodeResult
  | m :: ch :: f3 :: f2 :: f1 :: f0 :: rest =>
    match ReceiverMode.ofByte m with
    | some mode => .ok (mk mode ch.toNat (beNat [f3, f2, f1, f0]), rest)
    | none => .error (.reservedMode m)
  | _ => .error .shortFrame

/-- Format `FF` after the opcode (R301, R303). -/
def decodeFF (mk : Nat → Instr) : List Byte → DecodeResult
  | f3 :: f2 :: f1 :: f0 :: rest => .ok (mk (beNat [f3, f2, f1, f0]), rest)
  | _ => .error .shortFrame

/-- Format `FOPEN` after the opcode (R301, R303). -/
def decodeFOPEN (mk : Nat → Nat → ServiceType → Nat → Instr) : List Byte → DecodeResult
  | f3 :: f2 :: f1 :: f0 :: id :: sv :: t3 :: t2 :: t1 :: t0 :: rest =>
    match ServiceType.ofByte sv with
    | some svc => .ok (mk (beNat [f3, f2, f1, f0]) id.toNat svc (beNat [t3, t2, t1, t0]), rest)
    | none => .error (.reservedService sv)
  | _ => .error .shortFrame

/-- Format `FID` after the opcode (R301, R303). -/
def decodeFID (mk : Nat → Instr) : List Byte → DecodeResult
  | id :: rest => .ok (mk id.toNat, rest)
  | [] => .error .shortFrame

/-- Format `FCER` after the opcode (R301, R303). -/
def decodeFCER (mk : Nat → Instr) : List Byte → DecodeResult
  | c1 :: c0 :: rest => .ok (mk (beNat [c1, c0]), rest)
  | _ => .error .shortFrame

/-- The decoder (R302, R304, R305, R306): the opcode byte alone fixes the format. -/
def decode : List Byte → DecodeResult
  | [] => .error .shortFrame
  | op :: rest =>
    match op.toNat with
    | 0x01 => decodeFM .init rest
    | 0x02 => decodeFMC .adcConfigure rest
    | 0x03 => decodeFMC .adcChangeClock rest
    | 0x10 => decodeFSF .setFreq rest
    | 0x11 => decodeFF .scanFreq rest
    | 0x20 => decodeFOPEN .openSubch rest
    | 0x21 => decodeFID .closeSubch rest
    | 0x22 => .ok (.closeAllSubch, rest)
    | 0x23 => .ok (.disableStreamOut, rest)
    | 0x30 => .ok (.getLockStatus, rest)
    | 0x31 => .ok (.getPer, rest)
    | 0x32 => .ok (.getRssi, rest)
    | 0x33 => .ok (.getCnr, rest)
    | 0x34 => .ok (.getBer, rest)
    | 0x35 => .ok (.getCer, rest)
    | 0x36 => decodeFCER .getAntennaLevel rest
    | 0x37 => .ok (.getPrevFreq, rest)
    | _ => .error (.unassignedOpcode op)

/-! ### Encoding -/

/-- The `n` low bytes of a natural, most significant first (R300, R303). -/
def beBytes : Nat → Nat → List Byte
  | 0, _ => []
  | n + 1, v => BitVec.ofNat 8 (v / 256 ^ n) :: beBytes n v

/-- The frame of a command (R301 to R303). -/
def encode : Instr → List Byte
  | .init mode => [0x01, mode.code]
  | .adcConfigure mode clk => [0x02, mode.code, clk.code]
  | .adcChangeClock mode clk => [0x03, mode.code, clk.code]
  | .setFreq mode ch freq => 0x10 :: mode.code :: BitVec.ofNat 8 ch :: beBytes 4 freq
  | .scanFreq freq => 0x11 :: beBytes 4 freq
  | .openSubch freq id svc thr =>
      0x20 :: (beBytes 4 freq ++ BitVec.ofNat 8 id :: svc.code :: beBytes 4 thr)
  | .closeSubch id => [0x21, BitVec.ofNat 8 id]
  | .closeAllSubch => [0x22]
  | .disableStreamOut => [0x23]
  | .getLockStatus => [0x30]
  | .getPer => [0x31]
  | .getRssi => [0x32]
  | .getCnr => [0x33]
  | .getBer => [0x34]
  | .getCer => [0x35]
  | .getAntennaLevel cer => 0x36 :: beBytes 2 cer
  | .getPrevFreq => [0x37]

/-- The frame length in bytes that the opcode alone fixes (R301, R302). -/
def frameLength (op : Byte) : Option Nat :=
  match op.toNat with
  | 0x01 => some 2 | 0x02 => some 3 | 0x03 => some 3
  | 0x10 => some 7 | 0x11 => some 5
  | 0x20 => some 11 | 0x21 => some 2 | 0x22 => some 1 | 0x23 => some 1
  | 0x30 => some 1 | 0x31 => some 1 | 0x32 => some 1 | 0x33 => some 1
  | 0x34 => some 1 | 0x35 => some 1 | 0x36 => some 3 | 0x37 => some 1
  | _ => none

/-! ### The opcode table's numbering -/

/-- The longest frame, `FOPEN`, in bytes (R301). -/
def longestFrame : Nat := 11

/-- Byte `k` of an instruction the opcode table gives as the number `w` of `nbits` bits: bit 0 is the
least significant bit of the first byte, and every bit above `nbits` is 0. -/
def tableByte (nbits w k : Nat) : Byte :=
  BitVec.ofNat 8 ((w % 2 ^ nbits) / 256 ^ k)

/-- The instruction's bytes, padded with zero bytes to the longest frame and cut to the length its
opcode fixes (an unassigned opcode keeps all of them). -/
def tableBytes (nbits w : Nat) : List Byte :=
  let padded := (List.range longestFrame).map (tableByte nbits w)
  match frameLength (tableByte nbits w 0) with
  | some n => padded.take n
  | none => padded

/-- What the decoder reads from an instruction whose bits, numbered as spec/opcode_table.json numbers
them, are `w`. -/
def decodeTableWord (nbits w : Nat) : Option Instr :=
  match decode (tableBytes nbits w) with
  | .ok (i, _) => some i
  | .error _ => none

end Sys2Proof
end

