-- ==== Sys2Proof/Machine/State.lean ====
section
/-! DEFINITION. The machine's state (spec/10_state.md R100 to R115), what an operation returns
(spec/60_exceptions.md R1001, R1002), the reasons a step can stop, and the state after reset (R130,
spec/70_reset_and_hazards.md R1100). -/

namespace Sys2Proof.Machine

/-! ### Results (spec/30_encoding.md R313) -/

/-- The error codes (R1001). -/
inductive ErrorCode where
  | invalidMode | invalidCountryBand | unsupportedAdcClock | invalidSubChannelId
  | invalidThresholdSize | noMoreSubChannel | adcClockUnlocked | pllUnlocked
  deriving DecidableEq, Repr, Inhabited

/-- The scan verdicts (R1002). -/
inductive ScanVerdict where
  | success | channelNotDetected | pllUnlocked | adcClockUnlocked | invalidMode
  deriving DecidableEq, Repr, Inhabited

/-- What an operation returns to the host (R313): `Ok` with no value, `Ok` with a value, an error, or
a scan's verdict. Only the RSSI can be negative (R13). -/
inductive Reply where
  | ok
  | value (v : Int)
  | err (e : ErrorCode)
  | verdict (v : ScanVerdict)
  deriving DecidableEq, Repr, Inhabited

/-- A reply with the agent that returned it (R3, R220). -/
structure AgentReply where
  agent : Agent
  reply : Reply
  deriving DecidableEq, Repr, Inhabited

/-! ### The session context `S` -/

/-- A SubChannelBinding (R107). -/
structure Binding where
  id : Nat
  slot : Nat
  svc : ServiceType
  thr : Nat
  deriving DecidableEq, Repr, Inhabited

/-- The session context `S` (R100, R102 to R113). The registration array and the two masks have room
for the largest build, five bindings: entries from `MAX_BINDINGS` on are never occupied. -/
structure Session where
  /-- R102. -/
  initialized : Bool
  /-- R103. -/
  mode : ReceiverMode
  /-- R104, in kHz. -/
  xtal : Nat
  /-- R105. -/
  adcClk : Option AdcClockType
  /-- R106, in kHz, 0 is "none". -/
  prevFreq : Nat
  /-- R107. -/
  reg : Vector (Option Binding) 5
  /-- R108: logical IDs 0..31. -/
  idMask0 : BitVec 32
  /-- R108: logical IDs 32..63. -/
  idMask1 : BitVec 32
  /-- R109. -/
  slotMask : BitVec 5
  /-- R111. -/
  regMask : BitVec 5
  /-- R110. -/
  ccip : Bool
  /-- R112. -/
  streamSuspended : Bool
  /-- R113. -/
  antLevel : Nat
  deriving DecidableEq, Repr, Inhabited

/-- The context at creation (R130). `mode` and `xtal` are unspecified there: the values are the
model's (DESIGN CHOICE, unsafe, log 1). -/
def Session.fresh : Session where
  initialized := false
  mode := .tdmb
  xtal := 0
  adcClk := none
  prevFreq := 0
  reg := #v[none, none, none, none, none]
  idMask0 := 0
  idMask1 := 0
  slotMask := 0
  regMask := 0
  ccip := false
  streamSuspended := false
  antLevel := 0

/-! ### The getter agent's operation in progress -/

/-- The getter agent's commands (R220). -/
inductive GetterCmd where
  | lockStatus | per | rssi | cnr | ber | cer
  | antennaLevel (cer : Nat)
  deriving DecidableEq, Repr, Inhabited

/-- A getter operation between two of its moves (R222): its command, what its port calls so far answered,
oldest first (a write's answer is 0 and is not used), and the level it has read, if it has (R226, R960). -/
structure GetterRun where
  cmd : GetterCmd
  answers : List Byte
  prev : Option Nat
  deriving DecidableEq, Repr, Inhabited

/-! ### The state -/

/-- The machine. `hdt` and `ctx` are the spec's HDT and session context; `getter` is the getter agent;
the rest is the machine's surroundings as plain data (DESIGN CHOICE, log 2 to log 4). -/
structure State where
  /-- The hardware description table, which no step writes (R7). -/
  hdt : Hdt
  /-- The session context `S` (R100). -/
  ctx : Session
  /-- The getter operation in progress, if any (R220, R222). -/
  getter : Option GetterRun
  /-- The bytes of the commands the host issues, oldest first (R220, R300). -/
  inbox : List Byte
  /-- How many getter moves run at each of the control agent's next interleaving points (R222); none
  once the list has ended. -/
  sched : List Nat
  /-- The answers a test double fixes for the control agent's next reads; after them the oracle is
  free (R204). -/
  ctlAnswers : List Byte
  /-- The same for the getter agent's next reads (R204). -/
  getAnswers : List Byte
  /-- Every port call of both agents, oldest first (R203, R223). -/
  trace : List Call
  /-- A getter command reached the getter agent while `INIT` had reset the context and not yet opened the
  session: the command is refused, and the machine stops with that refusal at its next step (R402, R1007,
  log 4). -/
  getterRefused : Bool
  /-- Every reply to the host, oldest first (R313). -/
  replies : List AgentReply
  deriving DecidableEq, Repr, Inhabited

/-! ### Stops -/

/-- The reasons a step stops with a fault. The spec has no fault: errors are results (R1000). Each of
these says that the allocator state breaks R114, which no run from a fresh context reaches (log 6).
All are safe. -/
inductive Fault where
  /-- Raised by an unbind of an ID for which `entryOf` (R701) is not defined. Safe. -/
  | entryMissing
  /-- Raised by a bind that finds no free data slot (R702, R720). Safe. -/
  | noFreeSlot
  /-- Raised by a bind that finds no free registration entry (R702, R720). Safe. -/
  | noFreeEntry
  deriving DecidableEq, Repr, Inhabited

/-- The refusals (spec/60_exceptions.md R1007), and the one for an instruction without a meaning. -/
inductive Refusal where
  /-- Raised by an arm of `exec` whose instruction has no meaning yet; no arm does. Safe. -/
  | notModelled (mnemonic : String)
  /-- Raised by `step` for bytes that spell no command (R304). Safe. -/
  | badFrame (e : DecodeError)
  /-- Raised by every command but `INIT` while `S.initialized` is false, and by `step` for a getter command
  that came so within `INIT` (R402). Safe. -/
  | notInitialised
  /-- Raised by every command under an HDT that fails the checks of R12. Safe. -/
  | hdtRejected
  deriving DecidableEq, Repr, Inhabited

/-- What one step or one meaning answers. -/
abbrev Out := Host.Outcome State Fault Refusal

/-- The machine right after reset: a fresh context (R130, R1100), both agents idle, nothing issued,
nothing traced and no scripted answer. -/
def State.reset : State where
  hdt := Config.hdt
  ctx := Session.fresh
  getter := none
  inbox := []
  sched := []
  ctlAnswers := []
  getAnswers := []
  trace := []
  getterRefused := false
  replies := []

end Sys2Proof.Machine
end

