-- ==== Sys2Proof/Machine/Operands.lean ====
section
/-! DEFINITION. The constants of spec/00_scope.md R11, the bit, field and multi-register forms of a
read value (R13, R14, spec/20_memory.md R210, spec/30_encoding.md R320 to R329), the mask updates, and
the 32-bit option of R15. -/

namespace Sys2Proof.Machine

/-! ### Constants (R11) -/

/-- `NUM_IDS`. -/
def numIds : Nat := 64
/-- `ADC_POLLS`. -/
def adcPolls : Nat := 10
/-- `ADC_POLL_MS`. -/
def adcPollMs : Nat := 1
/-- `PLL_ATTEMPTS`. -/
def pllAttempts : Nat := 10
/-- `PLL_RETRY_MS`. -/
def pllRetryMs : Nat := 2
/-- `LOCK_POLLS`. -/
def lockPolls : Nat := 10
/-- `LOCK_RETRY_MS`. -/
def lockRetryMs : Nat := 2
/-- `RST_MS`. -/
def rstMs : Nat := 1
/-- `SCAN_POLLS`. -/
def scanPolls : Nat := 10000
/-- `SCAN_POLL_US`. -/
def scanPollUs : Nat := 40
/-- `F_ITERS`. -/
def fIters : Nat := 16
/-- `F_CHECK_FROM`. -/
def fCheckFrom : Nat := 14
/-- `F_ACCEPT_AT`. -/
def fAcceptAt : Nat := 15
/-- `F_BAD_MAX`. -/
def fBadMax : Nat := 10
/-- `G_ITERS`. -/
def gIters : Nat := 100
/-- `UNLOCK_LIMIT`. -/
def unlockLimit : Nat := 9
/-- `COARSE_CNT_MIN`, a strict bound. -/
def coarseCntMin : Nat := 1
/-- `LOCKWAIT_ITERS`. -/
def lockwaitIters : Nat := 50
/-- `PHASE_MS`. -/
def phaseMs : Nat := 10
/-- `DC_WIN_POS`. -/
def dcWinPos : Nat := 5
/-- `DC_WIN_NEG`. -/
def dcWinNeg : Nat := 65530
/-- `SENTINEL_ERR`. -/
def sentinelErr : Nat := 2000
/-- `SENTINEL_PER`. -/
def sentinelPer : Nat := 700
/-- `SENTINEL_RSSI`. -/
def sentinelRssi : Int := 0
/-- `CER_MIN_PERIOD`. -/
def cerMinPeriod : Nat := 4000
/-- `CER_CLAMP`. -/
def cerClamp : Nat := 1200
/-- `ANT_T[0..6]`. -/
def antT : List Nat := [810, 700, 490, 400, 250, 180, 0]
/-- `CNR_RAW_LOW_MAX`. -/
def cnrRawLowMax : Nat := 14
/-- `CNR_RAW_LUT_MIN`. -/
def cnrRawLutMin : Nat := 15
/-- `CNR_RAW_LUT_MAX`. -/
def cnrRawLutMax : Nat := 160
/-- `ADC_TUPLE(16384, CLK_8192)`, the one row the source gives (R10, R322, R501). -/
def sourceTuple : Vector Byte 7 := #v[0x04, 0x01, 0x0F, 0x27, 0x07, 0x60, 0xB8]
/-- The crystal of that row, in kHz. -/
def sourceXtal : Nat := 16384

/-! ### Bits, fields and composed values (R13, R14, R210) -/

/-- `b[pos]`. -/
def bitOf (pos : Fin 8) (b : Byte) : Bool := b.getLsbD pos.val

/-- `b[lo+w-1 : lo]` as a natural. -/
def fieldOf (w : Nat) (lo : Fin 8) (b : Byte) : Nat := b.toNat / 2 ^ lo.val % 2 ^ w

/-- `a : b` of two registers, the first more significant. -/
def join2 (h l : Byte) : Nat := h.toNat * 2 ^ 8 + l.toNat

/-- `a : b : c`. -/
def join3 (h m l : Byte) : Nat := join2 h m * 2 ^ 8 + l.toNat

/-- `a : b : c : d`. -/
def join4 (r3 r2 r1 r0 : Byte) : Nat := join3 r3 r2 r1 * 2 ^ 8 + r0.toNat

/-- Byte `k` of a natural, byte 0 the least significant. -/
def byteOf (k v : Nat) : Byte := BitVec.ofNat 8 (v / 256 ^ k)

/-- The 13-bit CNR accumulator `h[4:0] : l` (R328). -/
def cnrRaw (h l : Byte) : Nat := fieldOf 5 0 h * 2 ^ 8 + l.toNat

/-- A 2-bit field as an index: a transmission mode (R323) or an LNA gain index (R327). -/
def field2 (lo : Fin 8) (b : Byte) : Fin 4 := ⟨fieldOf 2 lo b, Nat.mod_lt _ (by decide)⟩

/-! ### Masks (R108, R109, R111) -/

/-- `m[i] <- 1`. -/
def setBit {w : Nat} (i : Nat) (m : BitVec w) : BitVec w := m ||| BitVec.twoPow w i

/-- `m[i] <- 0`. -/
def clearBit {w : Nat} (i : Nat) (m : BitVec w) : BitVec w := m &&& ~~~BitVec.twoPow w i

/-! ### Arithmetic (R15) -/

/-- A product or sum as `ARITH` reduces it. -/
def arith (m : Arith) (v : Nat) : Nat :=
  match m with
  | .exact => v
  | .wrap32 => v % 2 ^ 32

/-! ### The PLL word (R320, R321, R621) -/

/-- `W = N[22:0] : sel`. -/
def pllWord (n : Nat) (sel : Bool) : Nat := n % 2 ^ 23 * 2 + sel.toNat

/-- Whether the read-back `r` matches the programmed word `w` (R621). -/
def pllMatch (mode : ReceiverMode) (w r : Nat) : Bool :=
  match mode with
  | .isdb1seg => decide (r = w) || decide (r = w / 2)
  | _ => decide (r = w / 2)

/-! ### Groups, slots and modes -/

/-- `groupOf(svc)` (R701). -/
def groupOf : ServiceType → Group
  | .video => .msc1
  | .audio => .msc1
  | .data => .msc0

/-- `group(s)` (R109). -/
def groupOfSlot (s : Nat) : Group := if s = 0 then .msc1 else .msc0

/-- The modes in which sub-channels can be opened and channels scanned (R700, R800). -/
def isDabMode : ReceiverMode → Bool
  | .tdmb => true
  | .dabBand3 => true
  | .dabLband => true
  | .isdb1seg => false
  | .fm => false

end Sys2Proof.Machine
end

