-- ==== Sys2Proof/Machine/HdtTables.lean ====
section
/-! DEFINITION. What the rows of the hardware description table mean (spec/00_scope.md R8 to R10) and
the checks a table must pass (R12). -/

namespace Sys2Proof.Machine

/-! ### Lookup by mode and group -/

/-- The value for a mode. -/
def forMode {α : Type} (p : PerMode α) : ReceiverMode → α
  | .tdmb => p.tdmb
  | .dabBand3 => p.dabBand3
  | .dabLband => p.dabLband
  | .isdb1seg => p.isdb1seg
  | .fm => p.fm

/-- The value for a group. -/
def forGroup {α : Type} (p : PerGroup α) : Group → α
  | .msc0 => p.msc0
  | .msc1 => p.msc1

/-! ### Clock and numerator tables -/

/-- `ADC_TUPLE(xtal, clk)`, `none` the "unsupported" sentinel; the source's row is fixed (R10, R501). -/
def adcTuple (h : Hdt) (xtal : Nat) (clk : AdcClockType) : Option (Vector Byte 7) :=
  if xtal = sourceXtal ∧ clk = .clk8192 then some sourceTuple
  else (h.adc.tupleRows.find? fun r => decide (r.xtal = xtal) && decide (r.clk = clk)).map (·.tuple)

/-- `ADC_TUPLE_REG[k]`, on the RF page (R10). -/
def adcTupleReg (h : Hdt) (k : Fin 7) : Reg := ⟨.rf, h.adc.tupleOff[k]⟩

/-- `CLK_FOR(xtal, mode, f)` (R10, R610). -/
def clkFor (h : Hdt) (xtal : Nat) (mode : ReceiverMode) (f : Nat) : Option AdcClockType :=
  (h.pll.clkRows.find? fun r =>
    decide (r.xtal = xtal) && decide (r.mode = mode) && decide (r.lo ≤ f) && decide (f ≤ r.hi)).map
    (·.clk)

/-- `NF_FOR(xtal, mode, f)` (R10, R610). -/
def nfFor (h : Hdt) (xtal : Nat) (mode : ReceiverMode) (f : Nat) : Option Nat :=
  (h.pll.nfRows.find? fun r =>
    decide (r.xtal = xtal) && decide (r.mode = mode) && decide (r.lo ≤ f) && decide (f ≤ r.hi)).map
    (·.nf)

/-- The row of `ISDB_NF_BASE` and `ISDB_NF_STEP` for a crystal; both are 0 for a crystal not listed. -/
def isdbRow (h : Hdt) (xtal : Nat) : IsdbNfRow :=
  (h.pll.isdbRows.find? fun r => decide (r.xtal = xtal)).getD ⟨xtal, 0, 0⟩

/-! ### Actions that take an argument (R9, R10) -/

/-- The byte a row writes for the argument `arg`. -/
def srcByte (arg : Nat) : ByteSrc → Byte
  | .lit b => b
  | .arg k => byteOf k arg

/-- The write a row makes for the argument `arg`. -/
def tmplWrite (arg : Nat) : WriteTmpl → PortWrite
  | .wr r v => .wr r (srcByte arg v)
  | .wrM r m v => .wrM r m (srcByte arg v)

/-- The action of a slot and an argument: the first row that covers both, else no write. -/
def slotAction (rows : List SlotActionRow) (slot arg : Nat) : Action :=
  match rows.find? fun r => decide (r.slot = slot) && decide (r.lo ≤ arg) && decide (arg ≤ r.hi) with
  | some r => r.writes.map (tmplWrite arg)
  | none => []

/-- `ACT_SLOT_SET_ID(slot, id)`. -/
def actSlotSetId (h : Hdt) (slot id : Nat) : Action := slotAction h.alloc.slotSetId slot id

/-- `ACT_SLOT_RS(slot, on)`; `on` is the argument 1 or 0. -/
def actSlotRs (h : Hdt) (slot : Nat) (on : Bool) : Action :=
  slotAction h.alloc.slotRs slot on.toNat

/-- `ACT_SLOT_DISABLE(slot)`, the argument being 0. -/
def actSlotDisable (h : Hdt) (slot : Nat) : Action := slotAction h.alloc.slotDisable slot 0

/-- `ACT_PAYLOAD_ALLOC(slot, thr)`. -/
def actPayloadAlloc (h : Hdt) (slot thr : Nat) : Action := slotAction h.alloc.payloadAlloc slot thr

/-! ### Locators on a fixed page -/

/-- `OFDM_LOCK_BIT`, on page A (R10). -/
def ofdmLockBit (h : Hdt) : BitLoc := ⟨⟨.a, h.quality.ofdmLockOff⟩, h.quality.ofdmLockPos⟩

/-- `FEC_SYNC_FIELD`'s register, on page B (R10). -/
def fecSyncReg (h : Hdt) : Reg := ⟨.b, h.quality.fecSyncOff⟩

/-! ### Build (R107, R109) -/

/-- `MAX_BINDINGS` (R107). -/
def maxBindings (h : Hdt) : Nat := if h.alloc.multiSubch then 1 + h.alloc.numDataSlots else 1

/-- `slotsOf(g)` (R701). -/
def slotsOf (h : Hdt) : Group → List Nat
  | .msc1 => [0]
  | .msc0 => (List.range h.alloc.numDataSlots).map (· + 1)

/-! ### RSSI (R10, R920) -/

/-- A value as a signed 32-bit integer. -/
def signed32 (v : Int) : Int := Int.bmod v (2 ^ 32)

/-- `RSSI_FN(lna, rfagc, bb)`: the listed value, else the shape of R920 with truncating division. -/
def rssiFn (h : Hdt) (lna : Fin 4) (rfagc bb : Nat) : Int :=
  let t := h.quality.rssi
  match t.values.lookup (lna.val, rfagc, bb) with
  | some v => signed32 v
  | none =>
    let k := t.coeff[lna]
    let corr := if (lna.val, rfagc, bb) ∈ t.corrWhen then t.corr else 0
    signed32 ((k.a * rfagc + k.b * bb + k.c).tdiv t.div + corr)

/-! ### The checks of R12 -/

/-- No byte is both "signal" and "not a signal" (R12). -/
def scanDisjoint (h : Hdt) : Bool := h.scan.notSignal.all fun b => !h.scan.signal.contains b

/-- Each entry is at least the next (R12). -/
def nonIncreasing : List Nat → Bool
  | a :: b :: rest => decide (b ≤ a) && nonIncreasing (b :: rest)
  | _ => true

/-- A `Field(w)` at `lo` fits its register (R8, R12). -/
def fieldFits (w : Nat) (lo : Fin 8) : Bool := decide (lo.val + w ≤ 8)

/-- `1 ≤ UNLOCK_LIMIT_TIGHT ≤ 9`, for every transmission mode. -/
def tightLimitsOk (h : Hdt) : Bool :=
  h.scan.thresholds.toList.all fun t =>
    decide (1 ≤ t.unlockLimitTight) && decide (t.unlockLimitTight ≤ unlockLimit)

/-- The well-formedness checks of R12. -/
def hdtOk (h : Hdt) : Bool :=
  scanDisjoint h
  && nonIncreasing h.quality.cnrLut.toList
  && decide (1 ≤ h.alloc.numDataSlots) && decide (h.alloc.numDataSlots ≤ 4)
  && tightLimitsOk h
  && decide (0 < h.quality.cnrDiv)
  && fieldFits 2 h.scan.txmode.lo
  && fieldFits 2 h.quality.fecSyncLo
  && fieldFits 2 h.quality.lnaLo
  && fieldFits 4 h.quality.rfagcLo

end Sys2Proof.Machine
end

