-- ==== Sys2Proof/Machine/Flags.lean ====
section
/-! DEFINITION. The values that a result carries in place of flags: the codes of errors and verdicts
(spec/60_exceptions.md R1001, R1002), the verdict of a synthesizer error (spec/44_channel_scan.md R801),
the getters' sentinels (spec/45_signal_quality.md R901) and their result formulas (R900, R930 to R960).
The machine's one flag proper, ChannelChangeInProgress, is set and cleared by `setCcip` in Ops.lean. -/

namespace Sys2Proof.Machine

/-! ### Codes -/

/-- The numeric code of an error (R1001). -/
def errorCode : ErrorCode → Nat
  | .invalidMode => 0x01
  | .invalidCountryBand => 0x02
  | .unsupportedAdcClock => 0x03
  | .invalidSubChannelId => 0x04
  | .invalidThresholdSize => 0x05
  | .noMoreSubChannel => 0x06
  | .adcClockUnlocked => 0x07
  | .pllUnlocked => 0x08

/-- The numeric code of a verdict (R1002). -/
def verdictCode : ScanVerdict → Nat
  | .success => 0
  | .channelNotDetected => 1
  | .pllUnlocked => 2
  | .adcClockUnlocked => 3
  | .invalidMode => 4

/-- The code the host sees in a reply: 0x00 for `Ok` (R1001), a verdict's own code (R1002). -/
def replyCode : Reply → Nat
  | .ok => 0x00
  | .value _ => 0x00
  | .err e => errorCode e
  | .verdict v => verdictCode v

/-- *ScanMap* (R801). Errors the synthesizer never raises have no row there; they map to
`INVALID_MODE`, the verdict of a configuration error (log 10). -/
def scanMap : ErrorCode → ScanVerdict
  | .pllUnlocked => .pllUnlocked
  | .adcClockUnlocked => .adcClockUnlocked
  | .invalidMode => .invalidMode
  | .unsupportedAdcClock => .invalidMode
  | .invalidCountryBand => .invalidMode
  | .invalidSubChannelId => .invalidMode
  | .invalidThresholdSize => .invalidMode
  | .noMoreSubChannel => .invalidMode

/-! ### Getter values -/

/-- The sentinel a getter returns while a frequency change is in progress (R901). -/
def sentinel : GetterCmd → Int
  | .lockStatus => 0
  | .per => sentinelPer
  | .rssi => sentinelRssi
  | .cnr => 0
  | .ber => sentinelErr
  | .cer => sentinelErr
  | .antennaLevel _ => 0

/-- The lock-status mask: bit 0 `OfdmLocked`, bit 1 `FecLocked` (R326, R900). -/
def lockStatusValue (ofdm : Bool) (fec : Nat) : Nat := ofdm.toNat + if fec = 3 then 2 else 0

/-- The CNR of a raw accumulator value (R930). -/
def cnrValue (h : Hdt) (raw : Nat) : Nat :=
  if raw = 0 then 0
  else if raw ≤ cnrRawLowMax then h.quality.cnrLowConst
  else if raw ≤ cnrRawLutMax then h.quality.cnrLut.toList.getD (raw - cnrRawLutMin) 0
  else h.quality.cnrFloor

/-- The BER of an error count and a total (R940). -/
def berValue (h : Hdt) (e t : Nat) : Nat :=
  if t = 0 then sentinelErr
  else arith h.quality.arith (e * h.quality.berScale) / t

/-- The CER of a period and an error count (R950). -/
def cerValue (h : Hdt) (p e : Nat) : Nat :=
  if p ≤ cerMinPeriod then 0
  else
    let c := arith h.quality.arith (arith h.quality.arith (e * 1000) / p * 10)
    if c > cerClamp then sentinelErr else c

/-- The raw antenna level: the first index whose threshold the CER reaches (R960). -/
def antRaw (cer : Nat) : Nat := antT.findIdx fun t => decide (t ≤ cer)

/-- One step from the previous level toward the raw level (R960). -/
def antStep (raw prev : Nat) : Nat :=
  if raw > prev then prev + 1 else if raw < prev then prev - 1 else prev

end Sys2Proof.Machine
end

