-- ==== Sys2Proof/Machine/GetterPrograms.lean ====
section
/-! DEFINITION. What each getter does after its flag check, one port call at a time
(spec/45_signal_quality.md R900 to R960): a tree of port calls, so that the getter agent can stand still
between any two of them (spec/20_memory.md R222). Ops.lean runs the tree at once or a move at a time: a port
call, the read of the level, the end. -/

namespace Sys2Proof.Machine

/-- A getter operation after its flag check: a value, a hysteresis step, or a port call and what
follows its answer. -/
inductive GetterProg where
  /-- Return `Ok(v)`. -/
  | ret (v : Int)
  /-- Read `S.antLevel`, then write the level one step toward the raw level and return it (R960). -/
  | level (raw : Nat)
  /-- One port call; a write's answer is not used. -/
  | call (op : PortOp) (k : Byte → GetterProg)

/-- `Rd16(h, l)`, `h` first (R210). -/
def progRd16 (r : Reg2) (k : Nat → GetterProg) : GetterProg :=
  .call (.rd r.h) fun h => .call (.rd r.l) fun l => k (join2 h l)

/-- `Rd24(h, m, l)` (R210). -/
def progRd24 (r : Reg3) (k : Nat → GetterProg) : GetterProg :=
  .call (.rd r.h) fun h => .call (.rd r.m) fun m => .call (.rd r.l) fun l => k (join3 h m l)

/-- `Rd32(r3, r2, r1, r0)` (R210). -/
def progRd32 (r : Reg4) (k : Nat → GetterProg) : GetterProg :=
  .call (.rd r.r3) fun b3 => .call (.rd r.r2) fun b2 => .call (.rd r.r1) fun b1 =>
    .call (.rd r.r0) fun b0 => k (join4 b3 b2 b1 b0)

/-- The port call of an action's write (R9). -/
def writeOp : PortWrite → PortOp
  | .wr r v => .wr r v
  | .wrM r m v => .wrM r m v

/-- `Do(A)`, then what follows (R9, R14). -/
def progDo : Action → GetterProg → GetterProg
  | [], p => p
  | w :: ws, p => .call (writeOp w) fun _ => progDo ws p

/-- R900. -/
def lockStatusProg (h : Hdt) : GetterProg :=
  .call (.rd (ofdmLockBit h).reg) fun o =>
    .call (.rd (fecSyncReg h)) fun f =>
      .ret (lockStatusValue (bitOf (ofdmLockBit h).pos o) (fieldOf 2 h.quality.fecSyncLo f))

/-- R910. -/
def perProg (h : Hdt) : GetterProg :=
  .call (.rd h.quality.rsSyncBit.reg) fun rs =>
    if bitOf h.quality.rsSyncBit.pos rs then progRd16 h.quality.perCnt fun n => .ret n
    else .ret sentinelPer

/-- R920: both AGC fields come from one read (R327). -/
def rssiProg (h : Hdt) : GetterProg :=
  .call (.rd h.quality.agcReg) fun a =>
    .call (.rd h.quality.bbgainReg) fun bb =>
      .ret (rssiFn h (field2 h.quality.lnaLo a) (fieldOf 4 h.quality.rfagcLo a) bb.toNat)

/-- R930. -/
def cnrProg (h : Hdt) : GetterProg :=
  progDo h.quality.cnrTrigger <|
    .call (.rd h.quality.cnrAcc.h) fun hi =>
      .call (.rd h.quality.cnrAcc.l) fun lo => .ret (cnrValue h (cnrRaw hi lo))

/-- R940. -/
def berProg (h : Hdt) : GetterProg :=
  .call (.rd h.quality.rsSyncBit.reg) fun rs =>
    if bitOf h.quality.rsSyncBit.pos rs then
      progRd24 h.quality.berErr fun e => progRd24 h.quality.berTot fun t => .ret (berValue h e t)
    else .ret sentinelErr

/-- R950. -/
def cerProg (h : Hdt) : GetterProg :=
  .call (.rd h.quality.cerLockBit.reg) fun lk =>
    if bitOf h.quality.cerLockBit.pos lk then
      progRd32 h.quality.cerPeriod fun p => progRd32 h.quality.cerErr fun e => .ret (cerValue h p e)
    else .ret sentinelErr

/-- R960: the sentinel returns 0 and leaves the level alone. -/
def antennaProg (cer : Nat) : GetterProg :=
  if cer = sentinelErr then .ret 0 else .level (antRaw cer)

/-- The operation of a getter command after its flag check. -/
def getterProg (h : Hdt) : GetterCmd → GetterProg
  | .lockStatus => lockStatusProg h
  | .per => perProg h
  | .rssi => rssiProg h
  | .cnr => cnrProg h
  | .ber => berProg h
  | .cer => cerProg h
  | .antennaLevel cer => antennaProg cer

/-- What is left of an operation whose port calls so far answered these bytes. -/
def resumeProg : GetterProg → List Byte → GetterProg
  | .call _ k, b :: bs => resumeProg (k b) bs
  | p, _ => p

/-- The getter command of an instruction, `none` for the control agent's (R220). -/
def getterCmd : Instr → Option GetterCmd
  | .getLockStatus => some .lockStatus
  | .getPer => some .per
  | .getRssi => some .rssi
  | .getCnr => some .cnr
  | .getBer => some .ber
  | .getCer => some .cer
  | .getAntennaLevel cer => some (.antennaLevel cer)
  | .init _ => none
  | .adcConfigure _ _ => none
  | .adcChangeClock _ _ => none
  | .setFreq _ _ _ => none
  | .scanFreq _ => none
  | .openSubch _ _ _ _ => none
  | .closeSubch _ => none
  | .closeAllSubch => none
  | .disableStreamOut => none
  | .getPrevFreq => none

end Sys2Proof.Machine
end

