-- ==== Sys2Proof/Machine/Ops.lean ====
section
/-! DEFINITION. The shared operations: the read oracle (spec/20_memory.md R204), one port call (R203),
the getter agent's moves and the control agent's interleaving points (R222), the reads and writes of
spec/00_scope.md R14, the in-progress flag (R110), replies, and the guards every command passes
(spec/40_session.md R402, spec/00_scope.md R12). Raising an error is `raiseErr`: it is this machine's
whole exception entry (spec/60_exceptions.md R1000). -/

namespace Sys2Proof.Machine

/-! ### One port call -/

/-- A read's answer: the next one its agent's test double fixes, else the free oracle's for the trace so
far and the register (R204). -/
def oracle (a : Agent) (r : Reg) (s : State) : Byte × State :=
  match a with
  | .control =>
    match s.ctlAnswers with
    | b :: bs => (b, { s with ctlAnswers := bs })
    | [] => (Config.freeRead s.trace r, s)
  | .getter =>
    match s.getAnswers with
    | b :: bs => (b, { s with getAnswers := bs })
    | [] => (Config.freeRead s.trace r, s)

/-- One event at the end of the trace (R203). -/
def record (a : Agent) (e : Event) (s : State) : State := { s with trace := s.trace ++ [⟨a, e⟩] }

/-- One port call of an agent: a read's answer (0 for the others) and the state with the event traced
(R203). -/
def perform (a : Agent) (op : PortOp) (s : State) : Byte × State :=
  match op with
  | .rd r => ((oracle a r s).1, record a (.rd r (oracle a r s).1) (oracle a r s).2)
  | .wr r v => (0, record a (.wr r v) s)
  | .wrM r m v => (0, record a (.wrM r m v) s)
  | .dlyMs n => (0, record a (.dlyMs n) s)
  | .dlyUs n => (0, record a (.dlyUs n) s)

/-- One reply to the host (R313). -/
def reply (a : Agent) (r : Reply) (s : State) : State :=
  { s with replies := s.replies ++ [⟨a, r⟩] }

/-! ### The getter agent -/

/-- The end of the hysteresis step, from the level it has read: the new level, stored and returned (R960).
The level stored before is not read again (R226). -/
def storeLevel (raw prev : Nat) (s : State) : State :=
  reply .getter (.value (antStep raw prev)) { s with ctx := { s.ctx with antLevel := antStep raw prev } }

/-- Run what is left of a getter operation to its end; `prev` is the level it has read, if it has. -/
def runProg (prev : Option Nat) : GetterProg → State → State
  | .ret v, s => reply .getter (.value v) s
  | .level raw, s => storeLevel raw (prev.getD s.ctx.antLevel) s
  | .call op k, s => runProg prev (k (perform .getter op s).1) (perform .getter op s).2

/-- The operation in progress run to its end: a getter command waits for it, since getter operations
never overlap (R221, R222). -/
def finishGetter (s : State) : State :=
  match s.getter with
  | none => s
  | some g => runProg g.prev (resumeProg (getterProg s.hdt g.cmd) g.answers) { s with getter := none }

/-- A whole getter operation: the flag check first (R901), then its port calls. -/
def getterOp (c : GetterCmd) (s : State) : State :=
  if (finishGetter s).ctx.ccip then reply .getter (.value (sentinel c)) (finishGetter s)
  else runProg none (getterProg s.hdt c) (finishGetter s)

/-- One move of a getter operation in progress: its next port call, its read of the level, or its end, with
the write of the level. The read and the write are two moves, since the CORE has no read-modify-write atomic
but the allocator's (R226). -/
def advanceGetter (g : GetterRun) (s : State) : State :=
  match resumeProg (getterProg s.hdt g.cmd) g.answers, g.prev with
  | .call op _, _ =>
    { (perform .getter op s).2 with
      getter := some { g with answers := g.answers ++ [(perform .getter op s).1] } }
  | .level _, none => { s with getter := some { g with prev := some s.ctx.antLevel } }
  | .level raw, some prev => storeLevel raw prev { s with getter := none }
  | .ret v, _ => reply .getter (.value v) { s with getter := none }

/-- The first move of a getter operation, its flag check (R901). -/
def startGetter (c : GetterCmd) (s : State) : State :=
  if s.ctx.ccip then reply .getter (.value (sentinel c)) s
  else { s with getter := some ⟨c, [], none⟩ }

/-- The getter agent's command at the front of the host's bytes, with the bytes after it. -/
def nextGetter (s : State) : Option (GetterCmd × List Byte) :=
  match decode s.inbox with
  | .ok (i, rest) => (getterCmd i).map fun c => (c, rest)
  | .error _ => none

/-- A getter command met while no session is open: its refusal is left pending (R402). -/
def refuseGetter (s : State) : State := { s with getterRefused := true }

/-- One move of the getter agent: it goes on with its operation, or takes the getter command the host
has issued; otherwise it is idle (R220, R222). While no session is open the command is refused: it issues no
port call and writes nothing of `S`, and the refusal is left pending (R402, R1007, log 4). -/
def getterMove (s : State) : State :=
  match s.getter with
  | some g => advanceGetter g s
  | none =>
    match nextGetter s with
    | some (c, rest) =>
      if s.ctx.initialized then startGetter c { s with inbox := rest } else refuseGetter s
    | none => s

/-- `n` moves of the getter agent. -/
def getterMoves : Nat → State → State
  | 0, s => s
  | n + 1, s => getterMoves n (getterMove s)

/-- An interleaving point of the control agent (R222): the getter agent makes as many moves as the
schedule says. -/
def interleave (s : State) : State :=
  match s.sched with
  | [] => s
  | n :: rest => getterMoves n { s with sched := rest }

/-! ### The control agent's port calls (R14) -/

/-- One port call of the control agent, after its interleaving point. -/
def call (op : PortOp) (s : State) : Byte × State := perform .control op (interleave s)

/-- `Rd(r)`. -/
def rd (r : Reg) (s : State) : Byte × State := call (.rd r) s

/-- `Wr(r, v)`. -/
def wr (r : Reg) (v : Byte) (s : State) : State := (call (.wr r v) s).2

/-- `WrM(r, m, v)` (R205). -/
def wrM (r : Reg) (m v : Byte) (s : State) : State := (call (.wrM r m v) s).2

/-- `DelayMs(n)` (R206). -/
def delayMs (n : Nat) (s : State) : State := (call (.dlyMs n) s).2

/-- `DelayUs(n)` (R206). -/
def delayUs (n : Nat) (s : State) : State := (call (.dlyUs n) s).2

/-- `RdBit(b)`. -/
def rdBit (b : BitLoc) (s : State) : Bool × State := (bitOf b.pos (rd b.reg s).1, (rd b.reg s).2)

/-- `Rd16(h, l)`, `h` first (R210). -/
def rd16 (r : Reg2) (s : State) : Nat × State :=
  let (h, s) := rd r.h s
  let (l, s) := rd r.l s
  (join2 h l, s)

/-- `Rd24(h, m, l)` (R210). -/
def rd24 (r : Reg3) (s : State) : Nat × State :=
  let (h, s) := rd r.h s
  let (m, s) := rd r.m s
  let (l, s) := rd r.l s
  (join3 h m l, s)

/-- A 24-bit write, high, mid, low (R210). -/
def wr24 (r : Reg3) (w : Nat) (s : State) : State :=
  wr r.l (byteOf 0 w) (wr r.m (byteOf 1 w) (wr r.h (byteOf 2 w) s))

/-- `Do(A)`: the action's writes in list order (R9). -/
def doAction : Action → State → State
  | [], s => s
  | w :: ws, s => doAction ws (call (writeOp w) s).2

/-- A bounded poll of a lock bit: at most `n` reads, `ms` milliseconds between two of them, none after
the last (R500, R622). -/
def pollBit (b : BitLoc) (ms : Nat) : Nat → State → Bool × State
  | 0, s => (false, s)
  | n + 1, s =>
    let (locked, s) := rdBit b s
    if locked then (true, s)
    else if n = 0 then (false, s)
    else pollBit b ms n (delayMs ms s)

/-- `S.ccip <- v`, after an interleaving point: a getter may read the flag just before (R224, R641). -/
def setCcip (v : Bool) (s : State) : State :=
  { interleave s with ctx := { (interleave s).ctx with ccip := v } }

/-! ### Ends of an operation (R1000) -/

/-- `return Ok(())` of a control operation. -/
def returnOk (s : State) : Out := .next (reply .control .ok s)

/-- `raise E` out of a control operation: the reply carries the code, and every write and call made
before stays (R1000). -/
def raiseErr (e : ErrorCode) (s : State) : Out := .next (reply .control (.err e) s)

/-- The end of an operation with its sub-procedure's result, passed on verbatim (R1005). -/
def finish (r : Except ErrorCode Unit) (s : State) : Out :=
  match r with
  | .ok _ => returnOk s
  | .error e => raiseErr e s

/-! ### Guards -/

/-- Any command under an HDT that fails R12 is refused (R1007). -/
def underHdt (s : State) (k : State → Out) : Out :=
  if hdtOk s.hdt then k s else .refused .hdtRejected

/-- The refusal of a getter command within `INIT` stops the machine at its next step (R402, R1007, log 4). -/
def unlessRefused (s : State) (o : Out) : Out :=
  if s.getterRefused then .refused .notInitialised else o

/-- Every command but `INIT` is refused while `S.initialized` is false (R402). -/
def inSession (s : State) (k : State → Out) : Out :=
  if s.ctx.initialized then underHdt s k else .refused .notInitialised

end Sys2Proof.Machine
end

