-- ==== Sys2Proof/Machine/Quality.lean ====
section
/-! DEFINITION. The signal-quality getters as commands (spec/45_signal_quality.md); what each does is its
program in GetterPrograms.lean. -/

namespace Sys2Proof.Machine

/-- `GET_LOCK_STATUS` (R900). -/
def execGetLockStatus (s : State) : Out := inSession s fun s => .next (getterOp .lockStatus s)

/-- `GET_PER` (R910). -/
def execGetPer (s : State) : Out := inSession s fun s => .next (getterOp .per s)

/-- `GET_RSSI` (R920). -/
def execGetRssi (s : State) : Out := inSession s fun s => .next (getterOp .rssi s)

/-- `GET_CNR` (R930). -/
def execGetCnr (s : State) : Out := inSession s fun s => .next (getterOp .cnr s)

/-- `GET_BER` (R940). -/
def execGetBer (s : State) : Out := inSession s fun s => .next (getterOp .ber s)

/-- `GET_CER` (R950). -/
def execGetCer (s : State) : Out := inSession s fun s => .next (getterOp .cer s)

/-- `GET_ANTENNA_LEVEL cer` (R960). -/
def execGetAntennaLevel (cer : Nat) (s : State) : Out :=
  inSession s fun s => .next (getterOp (.antennaLevel cer) s)

/-- The value of the last reply, if it is one. -/
def lastValue (s : State) : Option Int :=
  match s.replies.getLast? with
  | some ⟨_, .value v⟩ => some v
  | _ => none

/-- The pseudo-instruction `GET_ANTENNA_LEVEL_AUTO`: `GET_CER`, then `GET_ANTENNA_LEVEL` of the value it
returned (spec/30_encoding.md R341). -/
def getAntennaLevelAuto (s : State) : Out :=
  match execGetCer s with
  | .next t =>
    match lastValue t with
    | some c => execGetAntennaLevel c.toNat t
    | none => .next t
  | .fault x => .fault x
  | .refused x => .refused x

end Sys2Proof.Machine
end

