-- ==== Sys2Proof/Machine/Adc.lean ====
section
/-! DEFINITION. The ADC clock selector (spec/41_adc_clock.md): `ADC_CONFIGURE`, `ADC_CHANGE_CLOCK` and
the procedure `AdcConfigure` that `INIT` and the synthesizer call. -/

namespace Sys2Proof.Machine

/-- The seven tuple writes, in index order (R322, R500). -/
def wrTuple (t : Vector Byte 7) (s : State) : State :=
  (List.finRange 7).foldl (fun s k => wr (adcTupleReg s.hdt k) t[k] s) s

/-- `S.adcClk <- v`. -/
def setAdcClk (v : Option AdcClockType) (s : State) : State :=
  { s with ctx := { s.ctx with adcClk := v } }

/-- The lock-verify loop that both operations share, with its write of `S.adcClk`. -/
def adcVerify (clk : AdcClockType) (s : State) : Bool × State :=
  let (locked, s) := pollBit s.hdt.adc.lockBit adcPollMs adcPolls s
  (locked, setAdcClk (if locked then some clk else none) s)

/-- `AdcConfigure(clk)` (R500). -/
def adcConfigure (clk : AdcClockType) (s : State) : Except ErrorCode Unit × State :=
  if s.ctx.adcClk = some clk then (.ok (), s)
  else
    match adcTuple s.hdt s.ctx.xtal clk with
    | none => (.error .unsupportedAdcClock, s)
    | some t =>
      let (locked, s) := adcVerify clk (wrTuple t s)
      if locked then (.ok (), s) else (.error .adcClockUnlocked, s)

/-- One of the two masked writes of the bus-frequency lock bit (R510). -/
def busLock (on : Bool) (s : State) : State :=
  wrM s.hdt.adc.busLockReg s.hdt.adc.busLockMask
    (if on then s.hdt.adc.busLockOn else s.hdt.adc.busLockOff) s

/-- `AdcChangeClock(clk)` (R510). -/
def adcChangeClock (clk : AdcClockType) (s : State) : Except ErrorCode Unit × State :=
  if s.ctx.adcClk = some clk then (.ok (), s)
  else
    match adcTuple s.hdt s.ctx.xtal clk with
    | none => (.error .unsupportedAdcClock, s)
    | some t =>
      let (locked, s) := adcVerify clk (wrTuple t (busLock false s))
      if locked then (.ok (), busLock true s) else (.error .adcClockUnlocked, s)

/-- `ADC_CONFIGURE mode, clk` (R500); the mode operand is not used. -/
def execAdcConfigure (_mode : ReceiverMode) (clk : AdcClockType) (s : State) : Out :=
  inSession s fun s => finish (adcConfigure clk s).1 (adcConfigure clk s).2

/-- `ADC_CHANGE_CLOCK mode, clk` (R510); the mode operand is not used. -/
def execAdcChangeClock (_mode : ReceiverMode) (clk : AdcClockType) (s : State) : Out :=
  inSession s fun s => finish (adcChangeClock clk s).1 (adcChangeClock clk s).2

end Sys2Proof.Machine
end

