-- ==== Sys2Proof/Machine/Synth.lean ====
section
/-! DEFINITION. The PLL frequency synthesizer (spec/42_freq_synth.md): `SET_FREQ` and the procedure
`SynthSetFrequency` that `OPEN_SUBCH` and `SCAN_FREQ` call. -/

namespace Sys2Proof.Machine

/-- *SynthPrepare* (R610): the lookups, before any port call. -/
def synthPrepare (h : Hdt) (c : Session) (mode : ReceiverMode) (ch f : Nat) :
    Except ErrorCode (AdcClockType × Nat) :=
  if mode ≠ c.mode then .error .invalidMode
  else
    match clkFor h c.xtal mode f with
    | none => .error .invalidMode
    | some clk =>
      let numerator : Option Nat :=
        if mode = .isdb1seg then
          if ch < h.pll.isdbChMin.val ∨ h.pll.isdbChMax.val < ch then none
          else some ((isdbRow h c.xtal).base + ch * (isdbRow h c.xtal).step)
        else nfFor h c.xtal mode f
      match numerator with
      | none => .error .invalidMode
      | some n => if 2 ^ 23 ≤ n then .error .invalidMode else .ok (clk, n)

/-- *PllProgram* (R620). -/
def pllProgram (w : Nat) (s : State) : State := wr24 s.hdt.pll.reg w s

/-- *PllVerify* (R621) with `n` attempts left: a read-back each, and after a mismatch that is not the
last, a reprogramming and a wait. -/
def pllVerify (mode : ReceiverMode) (w : Nat) : Nat → State → Bool × State
  | 0, s => (false, s)
  | n + 1, s =>
    let (r, s) := rd24 s.hdt.pll.rb s
    if pllMatch mode w r then (true, s)
    else if n = 0 then (false, s)
    else pllVerify mode w n (delayMs pllRetryMs (pllProgram w s))

/-- *PllLockWait* (R622). -/
def pllLockWait (s : State) : Bool × State := pollBit s.hdt.pll.lockBit lockRetryMs lockPolls s

/-- *SoftReset* (R623). -/
def softReset (mode : ReceiverMode) (s : State) : State :=
  let a := forMode s.hdt.pll.rstAssert mode
  let d := forMode s.hdt.pll.rstDeassert mode
  wr d.1 d.2 (delayMs rstMs (wr a.1 a.2 s))

/-- Steps 3 to 5: program, verify, wait for the lock, reset (R620 to R623). -/
def pllTune (mode : ReceiverMode) (n : Nat) (s : State) : Except ErrorCode Unit × State :=
  let w := pllWord n (forMode s.hdt.pll.sel mode)
  let (matched, s) := pllVerify mode w pllAttempts (pllProgram w s)
  if matched then
    let (locked, s) := pllLockWait s
    if locked then (.ok (), softReset mode s) else (.error .pllUnlocked, s)
  else (.error .pllUnlocked, s)

/-- *SynthSetFrequency* (R630). -/
def synthSetFrequency (mode : ReceiverMode) (ch f : Nat) (s : State) :
    Except ErrorCode Unit × State :=
  match synthPrepare s.hdt s.ctx mode ch f with
  | .error e => (.error e, s)
  | .ok (clk, n) =>
    match adcConfigure clk s with
    | (.error e, s) => (.error e, s)
    | (.ok _, s) => pllTune mode n s

/-- The previous frequency after a tune (R640). -/
def prevFreqAfter (r : Except ErrorCode Unit) (f prev : Nat) : Nat :=
  match r with
  | .ok _ => f
  | .error .adcClockUnlocked => 0
  | .error .pllUnlocked => 0
  | .error _ => prev

/-- `S.prevFreq <- v`. -/
def setPrevFreq (v : Nat) (s : State) : State := { s with ctx := { s.ctx with prevFreq := v } }

/-- *UpdatePrevFreq* (R640). -/
def updatePrevFreq (r : Except ErrorCode Unit) (f : Nat) (s : State) : State :=
  setPrevFreq (prevFreqAfter r f s.ctx.prevFreq) s

/-- `SET_FREQ mode, ch, f` (R600, R641). -/
def execSetFreq (mode : ReceiverMode) (ch f : Nat) (s : State) : Out :=
  inSession s fun s =>
    let (r, s) := synthSetFrequency mode ch f (setCcip true s)
    finish r (setCcip false (updatePrevFreq r f s))

end Sys2Proof.Machine
end

