-- ==== Sys2Proof/Machine/Alloc.lean ====
section
/-! DEFINITION. The sub-channel allocator (spec/43_subchannel_alloc.md): `OPEN_SUBCH`, `CLOSE_SUBCH`,
`CLOSE_ALL_SUBCH`, `DISABLE_STREAM_OUT`. A bind or unbind that the spec gives no meaning, because the
allocator state breaks spec/10_state.md R114, is a fault (log 6). -/

namespace Sys2Proof.Machine

/-! ### The allocator's state (R107 to R111, R701) -/

/-- Word `k` of the ID mask (R108). -/
def idWord (c : Session) (k : Nat) : BitVec 32 :=
  if k = 0 then c.idMask0 else if k = 1 then c.idMask1 else 0

/-- `registered(id)` (R108, R701). -/
def registered (c : Session) (id : Nat) : Bool := (idWord c (id / 32)).getLsbD (id % 32)

/-- `S.reg[e]`, `none` beyond the array. -/
def entry (c : Session) (e : Nat) : Option Binding := (c.reg[e]?).getD none

/-- Whether entry `e` is a binding of `id`. -/
def holdsId (c : Session) (id e : Nat) : Bool :=
  match entry c e with
  | some b => decide (b.id = id)
  | none => false

/-- `entryOf(id)`: the unique entry of that ID (R701), `none` where there is not exactly one. -/
def entryOf (h : Hdt) (c : Session) (id : Nat) : Option Nat :=
  match (List.range (maxBindings h)).filter (holdsId c id) with
  | [e] => some e
  | _ => none

/-- `S.slotMask[s] = 1`. -/
def slotBound (c : Session) (s : Nat) : Bool := c.slotMask.getLsbD s

/-- `GroupFull(g)` (R701). -/
def groupFull (h : Hdt) (c : Session) (g : Group) : Bool := (slotsOf h g).all (slotBound c)

/-- `GroupEmpty(g)` (R701). -/
def groupEmpty (h : Hdt) (c : Session) (g : Group) : Bool :=
  (slotsOf h g).all fun s => !slotBound c s

/-- The slot a bind takes: slot 0, or the first free data slot (R720). -/
def freeSlot (h : Hdt) (c : Session) : Group → Option Nat
  | .msc1 => some 0
  | .msc0 => (slotsOf h .msc0).find? fun t => !slotBound c t

/-- The first free registration entry (R720). -/
def freeEntry (h : Hdt) (c : Session) : Option Nat :=
  (List.range (maxBindings h)).find? fun k => (entry c k).isNone

/-- `S.idMask[id / 32]` updated. -/
def updIdMask (f : BitVec 32 → BitVec 32) (id : Nat) (c : Session) : Session :=
  if id / 32 = 0 then { c with idMask0 := f c.idMask0 }
  else if id / 32 = 1 then { c with idMask1 := f c.idMask1 }
  else c

/-- The one indivisible step of a bind (R720, R226). -/
def bindStep (e : Nat) (b : Binding) (c : Session) : Session :=
  updIdMask (setBit (b.id % 32)) b.id
    { c with
      reg := c.reg.setIfInBounds e (some b)
      regMask := setBit e c.regMask
      slotMask := setBit b.slot c.slotMask }

/-- The one indivisible step of an unbind (R730, R226). -/
def unbindStep (e : Nat) (b : Binding) (c : Session) : Session :=
  updIdMask (clearBit (b.id % 32)) b.id
    { c with
      reg := c.reg.setIfInBounds e none
      regMask := clearBit e c.regMask
      slotMask := clearBit b.slot c.slotMask }

/-! ### Bind, unbind, close all -/

/-- *Bind*(id, svc, thr) (R720). -/
def bind (id : Nat) (svc : ServiceType) (thr : Nat) (s : State) : Except Fault State :=
  match freeSlot s.hdt s.ctx (groupOf svc), freeEntry s.hdt s.ctx with
  | none, _ => .error .noFreeSlot
  | some _, none => .error .noFreeEntry
  | some slot, some e =>
    let first := groupEmpty s.hdt s.ctx (groupOf svc)
    let s := doAction (actSlotSetId s.hdt slot id) s
    let s := doAction (actSlotRs s.hdt slot (decide (svc = .video))) s
    let s := if first then doAction (forGroup s.hdt.alloc.irqEnable (groupOf svc)) s else s
    let s := doAction (actPayloadAlloc s.hdt slot thr) s
    .ok { s with ctx := bindStep e ⟨id, slot, svc, thr⟩ s.ctx }

/-- The end of an unbind: a group left empty has its interrupt mask disabled and its payload memory
reset (R730). -/
def releaseGroup (g : Group) (s : State) : State :=
  if groupEmpty s.hdt s.ctx g then
    doAction (forGroup s.hdt.alloc.payloadReset g) (doAction (forGroup s.hdt.alloc.irqDisable g) s)
  else s

/-- *Unbind*(id) (R730). -/
def unbind (id : Nat) (s : State) : Except Fault State :=
  match entryOf s.hdt s.ctx id with
  | none => .error .entryMissing
  | some e =>
    match entry s.ctx e with
    | none => .error .entryMissing
    | some b =>
      let s := doAction (actSlotDisable s.hdt b.slot) s
      let s := { s with ctx := unbindStep e b s.ctx }
      .ok (releaseGroup (groupOfSlot b.slot) s)

/-- Unbind every registered ID of a list, in list order. -/
def closeIds : List Nat → State → Except Fault State
  | [], s => .ok s
  | id :: ids, s =>
    if registered s.ctx id then
      match unbind id s with
      | .error x => .error x
      | .ok s => closeIds ids s
    else closeIds ids s

/-- *CloseAllBindings* (R715): ascending logical ID. -/
def closeAllBindings (s : State) : Except Fault State := closeIds (List.range numIds) s

/-- *RestoreStream* (R701). -/
def restoreStream (s : State) : State :=
  if s.ctx.streamSuspended then
    let s := doAction s.hdt.alloc.streamOn s
    { s with ctx := { s.ctx with streamSuspended := false } }
  else s

/-! ### Open (R700) -/

/-- Bind, restore the stream, do `k` (the re-tune path's clearing of the flag) and return `Ok(())`. -/
def bindAndReturn (id : Nat) (svc : ServiceType) (thr : Nat) (k : State → State) (s : State) : Out :=
  match bind id svc thr s with
  | .error x => .fault x
  | .ok s => returnOk (k (restoreStream s))

/-- The eviction of a single-sub-channel build: unbind the one existing binding, if any (R700). -/
def evict (s : State) : Except Fault State :=
  if s.ctx.regMask = 0 then .ok s
  else
    match entry s.ctx 0 with
    | none => .error .entryMissing
    | some b => unbind b.id s

/-- The open at the tuned frequency (R700). -/
def openTuned (id : Nat) (svc : ServiceType) (thr : Nat) (s : State) : Out :=
  if registered s.ctx id then returnOk (restoreStream s)
  else if s.hdt.alloc.multiSubch then
    if groupFull s.hdt s.ctx (groupOf svc) then raiseErr .noMoreSubChannel s
    else bindAndReturn id svc thr (fun s => s) s
  else
    match evict s with
    | .error x => .fault x
    | .ok s => bindAndReturn id svc thr (fun s => s) s

/-- The open at another frequency: close all, re-tune, bind (R700). -/
def openRetune (f id : Nat) (svc : ServiceType) (thr : Nat) (s : State) : Out :=
  match closeAllBindings (setCcip true s) with
  | .error x => .fault x
  | .ok s =>
    let (r, s) := synthSetFrequency s.ctx.mode 0 f s
    let s := updatePrevFreq r f s
    match r with
    | .error e => raiseErr e (setCcip false s)
    | .ok _ => bindAndReturn id svc thr (setCcip false) s

/-- `OPEN_SUBCH f, id, svc, thr` (R700), the checks in the order of spec/60_exceptions.md R1004. -/
def execOpenSubch (f id : Nat) (svc : ServiceType) (thr : Nat) (s : State) : Out :=
  inSession s fun s =>
    if numIds ≤ id then raiseErr .invalidSubChannelId s
    else if s.hdt.alloc.framing = .individual ∧ s.hdt.alloc.maxThrIndividual < thr then
      raiseErr .invalidThresholdSize s
    else if isDabMode s.ctx.mode = false then raiseErr .invalidMode s
    else if s.ctx.prevFreq ≠ 0 ∧ f = s.ctx.prevFreq then openTuned id svc thr s
    else openRetune f id svc thr s

/-! ### Close (R710, R715) -/

/-- `CLOSE_SUBCH id` (R710). -/
def execCloseSubch (id : Nat) (s : State) : Out :=
  inSession s fun s =>
    if numIds ≤ id then raiseErr .invalidSubChannelId s
    else if registered s.ctx id then
      match unbind id s with
      | .error x => .fault x
      | .ok s => returnOk s
    else returnOk s

/-- `CLOSE_ALL_SUBCH` (R715). -/
def execCloseAllSubch (s : State) : Out :=
  inSession s fun s =>
    match closeAllBindings s with
    | .error x => .fault x
    | .ok s => returnOk s

/-! ### Stream output (R740) -/

/-- `DISABLE_STREAM_OUT` (R740). -/
def execDisableStreamOut (s : State) : Out :=
  inSession s fun s =>
    let s := doAction s.hdt.alloc.streamOff s
    returnOk { s with ctx := { s.ctx with streamSuspended := true } }

end Sys2Proof.Machine
end

