-- ==== Sys2Proof/Machine/Scan.lean ====
section
/-! DEFINITION. The channel scanner (spec/44_channel_scan.md): `SCAN_FREQ`. -/

namespace Sys2Proof.Machine

/-- The thresholds a transmission mode selects (R811). -/
def scanThr (h : Hdt) (tm : Fin 4) : ScanThresholds := h.scan.thresholds[tm]

/-- `RdField(TXMODE_FIELD)` (R323). -/
def rdTxMode (s : State) : Fin 4 × State :=
  (field2 s.hdt.scan.txmode.lo (rd s.hdt.scan.txmode.reg s).1, (rd s.hdt.scan.txmode.reg s).2)

/-- *InWin*(d) (R324, R815). -/
def inWin (d : Nat) : Bool := decide (d ≤ dcWinPos) || decide (dcWinNeg ≤ d)

/-- *LockWait* (R816) with `n` iterations left; the FEC sync field is never read (R817). -/
def lockWait : Nat → State → ScanVerdict × State
  | 0, s => (.channelNotDetected, s)
  | n + 1, s =>
    let (locked, s) := rdBit (ofdmLockBit s.hdt) (delayMs phaseMs s)
    if locked then (.success, s) else lockWait n s

/-- The DC-offset check of phase g, made only while the gain is not high: whether it passes (R814). -/
def dcCheck (tm : Fin 4) (g : Nat) (s : State) : Bool × State :=
  if g < (scanThr s.hdt tm).dcGainHigh then
    let (di, s) := rd16 s.hdt.scan.dcI s
    let (dq, s) := rd16 s.hdt.scan.dcQ s
    (inWin di && inWin dq, s)
  else (true, s)

/-- Phase g with `n` iterations left and `unl` unlock observations so far (R814). -/
def phaseG (tm : Fin 4) (g limit : Nat) : Nat → Nat → State → ScanVerdict × State
  | 0, _, s => (.channelNotDetected, s)
  | n + 1, unl, s =>
    let (tm2, s) := rdTxMode (delayMs phaseMs s)
    if tm2 ≠ tm then (.channelNotDetected, s)
    else
      let (dcOk, s) := dcCheck tm g s
      if dcOk = false then (.channelNotDetected, s)
      else
        let (st, s) := rd s.hdt.scan.fsmStateReg s
        let unl := if s.hdt.scan.fsmUnlock.contains st then unl + 1 else unl
        if s.hdt.scan.fsmUnlock.contains st ∧ limit ≤ unl then (.channelNotDetected, s)
        else
          let (cc, s) := rd s.hdt.scan.coarseCntReg s
          if coarseCntMin < cc.toNat then lockWait lockwaitIters s
          else phaseG tm g limit n unl s

/-- The unlock limit of phase g (R814); the tight one is the transmission mode's (D62, log 8). -/
def phaseGLimit (h : Hdt) (tm : Fin 4) (bad : Nat) : Nat :=
  if (scanThr h tm).nlMarginal ≤ bad then (scanThr h tm).unlockLimitTight else unlockLimit

/-- Phase f from iteration `i` on, with `n` iterations left in the loop's bound and `bad` out-of-range
readings so far: `none` rejects, `some bad` accepts (R813). -/
def phaseF (tm : Fin 4) (g : Nat) : Nat → Nat → Nat → State → Option Nat × State
  | 0, _, bad, s => (some bad, s)
  | n + 1, i, bad, s =>
    let (nl, s) := rd16 s.hdt.scan.nullLen (delayMs phaseMs s)
    let (tm2, s) := rdTxMode s
    if tm2 ≠ tm then (none, s)
    else
      let t := scanThr s.hdt tm
      let bad := if nl < t.nlMin ∨ t.nlMax < nl then bad + 1 else bad
      if fCheckFrom ≤ i ∧ fBadMax < bad ∧ g < t.gainLow then (none, s)
      else if fAcceptAt ≤ i then (some bad, s)
      else phaseF tm g n (i + 1) bad s

/-- The pre-gate's tests on the coarse frequency, the power and the gain: whether they pass (R812). -/
def preGate (t : ScanThresholds) (cf pw g : Nat) : Bool :=
  !(decide (t.cfLo ≤ cf) && decide (cf ≤ t.cfHi))
  && !(decide (pw < t.power) || decide (g < t.gain) || decide (g = 0))

/-- *Classify*(pw) (R811 to R814). -/
def classify (pw : Nat) (s : State) : ScanVerdict × State :=
  let (g, s) := rd s.hdt.scan.preagcReg s
  let (tm, s) := rdTxMode s
  let (cf, s) := rd16 s.hdt.scan.coarseFreq s
  if preGate (scanThr s.hdt tm) cf pw g.toNat then
    match phaseF tm g.toNat fIters 1 0 s with
    | (none, s) => (.channelNotDetected, s)
    | (some bad, s) => phaseG tm g.toNat (phaseGLimit s.hdt tm bad) gIters 0 s
  else (.channelNotDetected, s)

/-- *ScanPoll* (R810) with `n` iterations left. -/
def scanPoll : Nat → State → ScanVerdict × State
  | 0, s => (.channelNotDetected, s)
  | n + 1, s =>
    let (sd, s) := rd s.hdt.scan.doneReg s
    let (pw, s) := rd16 s.hdt.scan.pwr s
    if s.hdt.scan.notSignal.contains sd then (.channelNotDetected, s)
    else if s.hdt.scan.signal.contains sd then classify pw s
    else scanPoll n (delayUs scanPollUs s)

/-- Steps 3 to 5 of a scan: tune, reset again, poll (R800). -/
def scanTuned (f : Nat) (s : State) : ScanVerdict × State :=
  match synthSetFrequency s.ctx.mode 0 f s with
  | (.error e, s) => (scanMap e, s)
  | (.ok _, s) => scanPoll scanPolls (softReset s.ctx.mode s)

/-- Step 6 of a scan: record the frequency and return the verdict (R800). -/
def returnVerdict (v : ScanVerdict) (f : Nat) (s : State) : Out :=
  .next (reply .control (.verdict v) (setPrevFreq f s))

/-- `SCAN_FREQ f` (R800). -/
def execScanFreq (f : Nat) (s : State) : Out :=
  inSession s fun s =>
    if isDabMode s.ctx.mode = false then returnVerdict .invalidMode f s
    else
      match closeAllBindings (setCcip true s) with
      | .error x => .fault x
      | .ok s =>
        let (v, s) := scanTuned f s
        returnVerdict v f (setCcip false s)

end Sys2Proof.Machine
end

