-- ==== Sys2Proof/Machine/Session.lean ====
section
/-! DEFINITION. The session operations (spec/40_session.md): `INIT` and `GET_PREV_FREQ`. -/

namespace Sys2Proof.Machine

/-- The context `INIT` starts from: that of R130 with the mode and the crystal set (R400). -/
def initContext (h : Hdt) (mode : ReceiverMode) : Session :=
  { Session.fresh with mode := mode, xtal := h.xtalKhz }

/-- `S.initialized <- true`. -/
def setInitialized (s : State) : State := { s with ctx := { s.ctx with initialized := true } }

/-- `INIT mode` (R400). An interleaving point stands before the context is reset (R222). -/
def execInit (mode : ReceiverMode) (s : State) : Out :=
  underHdt s fun s =>
    if mode ∈ s.hdt.supportedModes then
      let s := interleave s
      let s := { s with ctx := initContext s.hdt mode }
      let s := doAction (forMode s.hdt.initSeq mode) s
      match adcConfigure s.hdt.adc.clkInit s with
      | (.error e, s) => raiseErr e s
      | (.ok _, s) => returnOk (setInitialized s)
    else raiseErr .invalidCountryBand s

/-- `GET_PREV_FREQ` (R410); it runs on the control agent and does not check the flag (D48). -/
def execGetPrevFreq (s : State) : Out :=
  inSession s fun s => .next (reply .control (.value s.ctx.prevFreq) s)

end Sys2Proof.Machine
end

