-- ==== Sys2Proof/Machine/Dispatch.lean ====
section
/-! DEFINITION. One arm per command (spec/30_encoding.md R302). -/

namespace Sys2Proof.Machine

def exec (i : Instr) (s : State) : Host.Outcome State Fault Refusal :=
  match i with
  | .init mode => Sys2Proof.Machine.execInit mode s
  | .adcConfigure mode clk => Sys2Proof.Machine.execAdcConfigure mode clk s
  | .adcChangeClock mode clk => Sys2Proof.Machine.execAdcChangeClock mode clk s
  | .setFreq mode ch freq => Sys2Proof.Machine.execSetFreq mode ch freq s
  | .scanFreq freq => Sys2Proof.Machine.execScanFreq freq s
  | .openSubch freq id svc thr => Sys2Proof.Machine.execOpenSubch freq id svc thr s
  | .closeSubch id => Sys2Proof.Machine.execCloseSubch id s
  | .closeAllSubch => Sys2Proof.Machine.execCloseAllSubch s
  | .disableStreamOut => Sys2Proof.Machine.execDisableStreamOut s
  | .getLockStatus => Sys2Proof.Machine.execGetLockStatus s
  | .getPer => Sys2Proof.Machine.execGetPer s
  | .getRssi => Sys2Proof.Machine.execGetRssi s
  | .getCnr => Sys2Proof.Machine.execGetCnr s
  | .getBer => Sys2Proof.Machine.execGetBer s
  | .getCer => Sys2Proof.Machine.execGetCer s
  | .getAntennaLevel cer => Sys2Proof.Machine.execGetAntennaLevel cer s
  | .getPrevFreq => Sys2Proof.Machine.execGetPrevFreq s

end Sys2Proof.Machine
end

