-- ==== Sys2Proof/Machine/Step.lean ====
section
/-! DEFINITION. One step of the machine (spec/20_memory.md R220 to R222, spec/60_exceptions.md R1007):
it takes the next command the host has issued and runs the whole operation. -/

namespace Sys2Proof.Machine

/-- One step. With no byte from the host the control agent is idle, and the getter agent makes one move
of an operation in progress, if any (R101). Otherwise the frame at the front is decoded and its command runs
with the bytes after it left for the next frame (R304); bytes that spell no command are refused. A pending
refusal of a getter command stops it in both cases (R402, R1007, log 4). -/
def step (s : State) : Host.Outcome State Fault Refusal :=
  match s.inbox with
  | [] => unlessRefused s (.next (getterMove s))
  | _ =>
    match decode s.inbox with
    | .ok (i, rest) => unlessRefused s (exec i { s with inbox := rest })
    | .error e => .refused (.badFrame e)

/-- `s` with an instruction of the opcode table, given as the number `w` of `nbits` bits with zeros
above, as the next bytes from the host (log 5). -/
def State.withFetchWord (s : State) (nbits w : Nat) : State :=
  { s with inbox := tableBytes nbits w ++ s.inbox }

end Sys2Proof.Machine
end

