-- ==== Sys2Proof/Machine/Asm.lean ====
section
/-! DEFINITION. The textual syntax of commands (spec/30_encoding.md R340) and the pseudo-instruction
(R341): one line of text to a command. Words are lists of characters. -/

namespace Sys2Proof.Machine

/-- What a line of text spells: nothing but white space and comment, a command, or the
pseudo-instruction (R341). -/
inductive AsmLine where
  | blank
  | command (i : Instr)
  | antennaLevelAuto
  deriving DecidableEq, Repr, Inhabited

/-- An operand-taking command's operands, as words, read into a command. -/
abbrev OperandReader := List (List Char) → Option Instr

/-- The text before the comment sign (R340). -/
def stripComment : List Char → List Char
  | [] => []
  | c :: cs => if c = ';' then [] else c :: stripComment cs

/-- White space between words. -/
def isBlankChar (c : Char) : Bool := decide (c = ' ') || decide (c = '\t') || decide (c = '\r')

/-- A word without the white space around it. -/
def trimWord (w : List Char) : List Char :=
  (((w.dropWhile isBlankChar).reverse).dropWhile isBlankChar).reverse

/-- The words between the commas. -/
def splitCommas : List Char → List (List Char)
  | [] => [[]]
  | c :: cs =>
    match splitCommas cs with
    | [] => [[c]]
    | w :: ws => if c = ',' then [] :: w :: ws else (c :: w) :: ws

/-- The value of a digit, decimal or hexadecimal. -/
def digitValue (c : Char) : Option Nat :=
  if '0' ≤ c ∧ c ≤ '9' then some (c.toNat - '0'.toNat)
  else if 'a' ≤ c ∧ c ≤ 'f' then some (c.toNat - 'a'.toNat + 10)
  else if 'A' ≤ c ∧ c ≤ 'F' then some (c.toNat - 'A'.toNat + 10)
  else none

/-- A numeral in a base, digits after the value read so far. -/
def digitsValue (base : Nat) : Nat → List Char → Option Nat
  | acc, [] => some acc
  | acc, c :: cs =>
    match digitValue c with
    | some d => if d < base then digitsValue base (acc * base + d) cs else none
    | none => none

/-- A numeric operand, decimal or `0x`-prefixed hexadecimal (R340). -/
def readNumber (w : List Char) : Option Nat :=
  match trimWord w with
  | [] => none
  | '0' :: 'x' :: [] => none
  | '0' :: 'x' :: ds => digitsValue 16 0 ds
  | ds => digitsValue 10 0 ds

/-- A mode by name (R310, R340). -/
def readMode (w : List Char) : Option ReceiverMode :=
  [ ("TDMB".toList, .tdmb),
    ("DAB_BAND3".toList, .dabBand3),
    ("DAB_LBAND".toList, .dabLband),
    ("ISDB_1SEG".toList, .isdb1seg),
    ("FM".toList, .fm) ].lookup (trimWord w)

/-- A clock type by name (R311, R340). -/
def readClock (w : List Char) : Option AdcClockType :=
  [ ("CLK_8000".toList, .clk8000),
    ("CLK_8192".toList, .clk8192),
    ("CLK_9000".toList, .clk9000),
    ("CLK_9600".toList, .clk9600) ].lookup (trimWord w)

/-- A service type by name (R312, R340). -/
def readService (w : List Char) : Option ServiceType :=
  [ ("VIDEO".toList, .video),
    ("AUDIO".toList, .audio),
    ("DATA".toList, .data) ].lookup (trimWord w)

/-- No operand: the text after the mnemonic is blank. -/
def readNone (i : Instr) : OperandReader
  | [w] => if trimWord w = [] then some i else none
  | _ => none

/-- The operand `mode`. -/
def readM (mk : ReceiverMode → Instr) : OperandReader
  | [m] => (readMode m).map mk
  | _ => none

/-- The operands `mode, clk`. -/
def readMC (mk : ReceiverMode → AdcClockType → Instr) : OperandReader
  | [m, c] => (readMode m).bind fun m => (readClock c).map fun c => mk m c
  | _ => none

/-- The operands `mode, ch, freq`. -/
def readMNN (mk : ReceiverMode → Nat → Nat → Instr) : OperandReader
  | [m, c, f] =>
    (readMode m).bind fun m => (readNumber c).bind fun c => (readNumber f).map fun f => mk m c f
  | _ => none

/-- One numeric operand. -/
def readN (mk : Nat → Instr) : OperandReader
  | [n] => (readNumber n).map mk
  | _ => none

/-- The operands `freq, id, svc, thr`. -/
def readNNSN (mk : Nat → Nat → ServiceType → Nat → Instr) : OperandReader
  | [f, i, v, t] =>
    (readNumber f).bind fun f => (readNumber i).bind fun i => (readService v).bind fun v =>
      (readNumber t).map fun t => mk f i v t
  | _ => none

/-- The mnemonics with their operands' readers (R302). -/
def mnemonicTable : List (List Char × OperandReader) :=
  [ ("INIT".toList, readM .init),
    ("ADC_CONFIGURE".toList, readMC .adcConfigure),
    ("ADC_CHANGE_CLOCK".toList, readMC .adcChangeClock),
    ("SET_FREQ".toList, readMNN .setFreq),
    ("SCAN_FREQ".toList, readN .scanFreq),
    ("OPEN_SUBCH".toList, readNNSN .openSubch),
    ("CLOSE_SUBCH".toList, readN .closeSubch),
    ("CLOSE_ALL_SUBCH".toList, readNone .closeAllSubch),
    ("DISABLE_STREAM_OUT".toList, readNone .disableStreamOut),
    ("GET_LOCK_STATUS".toList, readNone .getLockStatus),
    ("GET_PER".toList, readNone .getPer),
    ("GET_RSSI".toList, readNone .getRssi),
    ("GET_CNR".toList, readNone .getCnr),
    ("GET_BER".toList, readNone .getBer),
    ("GET_CER".toList, readNone .getCer),
    ("GET_ANTENNA_LEVEL".toList, readN .getAntennaLevel),
    ("GET_PREV_FREQ".toList, readNone .getPrevFreq) ]

/-- The pseudo-instruction's mnemonic (R341). -/
def autoMnemonic : List Char :=
  "GET_ANTENNA_LEVEL_AUTO".toList

/-- One line of text (R340): `none` where it spells neither a command whose operands fit their fields
(R303) nor the pseudo-instruction. -/
def assembleLine (line : List Char) : Option AsmLine :=
  let text := trimWord (stripComment line)
  let word := text.takeWhile fun c => !isBlankChar c
  let operands := splitCommas (text.drop word.length)
  if text = [] then some .blank
  else if word = autoMnemonic then
    if operands = [[]] then some .antennaLevelAuto else none
  else
    match mnemonicTable.lookup word with
    | some read =>
      match read operands with
      | some i => if i.wellFormed then some (.command i) else none
      | none => none
    | none => none

end Sys2Proof.Machine
end

