-- ==== Sys2Proof/Safety.lean ====
section
/-! DEFINITION. The terms that claims use: what the control agent sees of a state, the allocator
invariants of spec/10_state.md R114, the machine's invariant, and measures of a trace. -/

namespace Sys2Proof.Machine

/-! ### Views of the trace and the replies -/

/-- The events of one agent, in trace order. -/
def eventsOf (a : Agent) (s : State) : List Event :=
  (s.trace.filter fun c => decide (c.agent = a)).map (·.event)

/-- The replies of one agent, oldest first. -/
def repliesOf (a : Agent) (s : State) : List Reply :=
  (s.replies.filter fun c => decide (c.agent = a)).map (·.reply)

/-- The context without the one field a getter may write (R113, spec/45_signal_quality.md). -/
def core (c : Session) : Session := { c with antLevel := 0 }

/-- All that the control agent's operations read, write and show: the getter agent's moves change
nothing of it. -/
structure CtlView where
  hdt : Hdt
  core : Session
  answers : List Byte
  events : List Event
  replies : List Reply
  deriving DecidableEq, Repr, Inhabited

/-- The control agent's view of a state. -/
def ctlView (s : State) : CtlView where
  hdt := s.hdt
  core := core s.ctx
  answers := s.ctlAnswers
  events := eventsOf .control s
  replies := repliesOf .control s

/-- A view after an operation: the context it leaves, the answers it has not read, the events and the
one reply it adds. The HDT stays. -/
def CtlView.after (v : CtlView) (c : Session) (answers : List Byte) (es : List Event) (r : Reply) :
    CtlView :=
  { v with core := c, answers := answers, events := v.events ++ es, replies := v.replies ++ [r] }

/-- A view after these port calls, with these answers left. -/
def CtlView.ran (v : CtlView) (es : List Event) (answers : List Byte) : CtlView :=
  { v with events := v.events ++ es, answers := answers }

/-- What an operation of the control agent leaves alone when no getter move falls into it: the getter
agent's operation, pending refusal, answers, events and replies, and the bytes from the host. -/
def SameSurroundings (s t : State) : Prop :=
  t.getter = s.getter ∧ t.getterRefused = s.getterRefused ∧ t.inbox = s.inbox
    ∧ t.sched = s.sched ∧ t.getAnswers = s.getAnswers
    ∧ eventsOf .getter t = eventsOf .getter s ∧ repliesOf .getter t = repliesOf .getter s

/-- A command other than `INIT` is accepted: a session is open and the HDT passes its checks. -/
abbrev Ready (s : State) : Prop := s.ctx.initialized = true ∧ hdtOk s.hdt = true

/-- Every one of these answers has a lock bit clear. -/
abbrev AllClear (b : BitLoc) (answers : List Byte) : Prop := ∀ x ∈ answers, bitOf b.pos x = false

/-! ### The events of the recurring sequences -/

/-- The events of an action (R9). -/
def writeEvent : PortWrite → Event
  | .wr r v => .wr r v
  | .wrM r m v => .wrM r m v

/-- The seven tuple writes (R322). -/
def tupleEvents (h : Hdt) (t : Vector Byte 7) : List Event :=
  (List.finRange 7).map fun k => .wr (adcTupleReg h k) t[k]

/-- The reads of one register with these answers, a delay between each two. -/
def pollEvents (r : Reg) (ms : Nat) : List Byte → List Event
  | [] => []
  | [b] => [.rd r b]
  | b :: bs => .rd r b :: .dlyMs ms :: pollEvents r ms bs

/-- The three writes of a 24-bit word, high, mid, low (R210). -/
def wr24Events (r : Reg3) (w : Nat) : List Event :=
  [.wr r.h (byteOf 2 w), .wr r.m (byteOf 1 w), .wr r.l (byteOf 0 w)]

/-- Three bytes read from a 24-bit value's registers. -/
structure Read3 where
  h : Byte
  m : Byte
  l : Byte
  deriving DecidableEq, Repr, Inhabited

/-- The value of three bytes read. -/
def Read3.value (b : Read3) : Nat := join3 b.h b.m b.l

/-- Their bytes, in reading order. -/
def Read3.bytes (b : Read3) : List Byte := [b.h, b.m, b.l]

/-- Their events. -/
def rd24Events (r : Reg3) (b : Read3) : List Event := [.rd r.h b.h, .rd r.m b.m, .rd r.l b.l]

/-- The events of mismatching read-backs, each followed by a reprogramming and a wait (R621). -/
def retryEvents (h : Hdt) (w : Nat) (bad : List Read3) : List Event :=
  bad.flatMap fun b =>
    rd24Events h.pll.rb b ++ wr24Events h.pll.reg w ++ [.dlyMs pllRetryMs]

/-- The soft reset (R623). -/
def resetEvents (h : Hdt) (mode : ReceiverMode) : List Event :=
  [.wr (forMode h.pll.rstAssert mode).1 (forMode h.pll.rstAssert mode).2, .dlyMs rstMs,
    .wr (forMode h.pll.rstDeassert mode).1 (forMode h.pll.rstDeassert mode).2]

/-- The PLL word of a numerator below `2^23` in a mode, `2·N + sel` (R320). -/
def tuneWord (h : Hdt) (mode : ReceiverMode) (n : Nat) : Nat :=
  2 * n + (forMode h.pll.sel mode).toNat

/-- A read-back value that matches the word (R621). -/
abbrev Matches (mode : ReceiverMode) (w v : Nat) : Prop :=
  v = w / 2 ∨ (mode = .isdb1seg ∧ v = w)

/-- A tune's events from the first programming to the matching read-back (R620, R621). -/
def matchEvents (h : Hdt) (w : Nat) (bad : List Read3) (good : Read3) : List Event :=
  wr24Events h.pll.reg w ++ retryEvents h w bad ++ rd24Events h.pll.rb good

/-- The bytes of read-backs, in reading order. -/
def readBytes (bs : List Read3) : List Byte := bs.flatMap Read3.bytes

/-- The ADC step of a tune, where it succeeds: the clock type is current, or the tuple is written and a lock
bit is set at one of ten polls. It reads these answers and makes these events (R500). -/
inductive AdcStep (h : Hdt) (c : Session) (clk : AdcClockType) : List Byte → List Event → Prop where
  | current : c.adcClk = some clk → AdcStep h c clk [] []
  | locks (t : Vector Byte 7) (lo : List Byte) (b : Byte) : c.adcClk ≠ some clk →
      adcTuple h c.xtal clk = some t → lo.length < 10 → AllClear h.adc.lockBit lo →
      bitOf h.adc.lockBit.pos b = true →
      AdcStep h c clk (lo ++ [b])
        (tupleEvents h t ++ pollEvents h.adc.lockBit.reg 1 (lo ++ [b]))

/-- A tune after its ADC step, with numerator `n`: ten read-backs that mismatch, a match and ten clear lock
polls, or a match, a lock and the soft reset (R620 to R623). -/
inductive PllStep (h : Hdt) (mode : ReceiverMode) (n : Nat) :
    List Byte → List Event → Except ErrorCode Unit → Prop where
  | mismatch (bad : List Read3) (last : Read3) : bad.length = 9 →
      (∀ r ∈ last :: bad, ¬Matches mode (tuneWord h mode n) r.value) →
      PllStep h mode n (readBytes bad ++ last.bytes) (matchEvents h (tuneWord h mode n) bad last)
        (.error .pllUnlocked)
  | unlocked (bad : List Read3) (good : Read3) (lo : List Byte) : bad.length < 10 →
      (∀ r ∈ bad, ¬Matches mode (tuneWord h mode n) r.value) →
      Matches mode (tuneWord h mode n) good.value → lo.length = 10 → AllClear h.pll.lockBit lo →
      PllStep h mode n (readBytes bad ++ good.bytes ++ lo)
        (matchEvents h (tuneWord h mode n) bad good ++ pollEvents h.pll.lockBit.reg 2 lo)
        (.error .pllUnlocked)
  | tuned (bad : List Read3) (good : Read3) (lo : List Byte) (b : Byte) : bad.length < 10 →
      (∀ r ∈ bad, ¬Matches mode (tuneWord h mode n) r.value) →
      Matches mode (tuneWord h mode n) good.value → lo.length < 10 → AllClear h.pll.lockBit lo →
      bitOf h.pll.lockBit.pos b = true →
      PllStep h mode n (readBytes bad ++ good.bytes ++ (lo ++ [b]))
        (matchEvents h (tuneWord h mode n) bad good ++ pollEvents h.pll.lockBit.reg 2 (lo ++ [b])
          ++ resetEvents h mode)
        (.ok ())

/-- A whole tune under scripted answers, in each of its ways to end: the answers it reads, its events, the
clock type it leaves and its result (R610, R630). -/
inductive Tune (h : Hdt) (c : Session) (mode : ReceiverMode) (ch f : Nat) :
    List Byte → List Event → Option AdcClockType → Except ErrorCode Unit → Prop where
  | lookup (e : ErrorCode) : synthPrepare h c mode ch f = .error e →
      Tune h c mode ch f [] [] c.adcClk (.error .invalidMode)
  | unsupported (clk : AdcClockType) (n : Nat) : synthPrepare h c mode ch f = .ok (clk, n) →
      c.adcClk ≠ some clk → adcTuple h c.xtal clk = none →
      Tune h c mode ch f [] [] c.adcClk (.error .unsupportedAdcClock)
  | adcUnlocked (clk : AdcClockType) (n : Nat) (t : Vector Byte 7) (lo : List Byte) :
      synthPrepare h c mode ch f = .ok (clk, n) → c.adcClk ≠ some clk →
      adcTuple h c.xtal clk = some t → lo.length = 10 → AllClear h.adc.lockBit lo →
      Tune h c mode ch f lo (tupleEvents h t ++ pollEvents h.adc.lockBit.reg 1 lo) none
        (.error .adcClockUnlocked)
  | pll (clk : AdcClockType) (n : Nat) (as bs : List Byte) (es fs : List Event)
      (r : Except ErrorCode Unit) : synthPrepare h c mode ch f = .ok (clk, n) →
      AdcStep h c clk as es → PllStep h mode n bs fs r →
      Tune h c mode ch f (as ++ bs) (es ++ fs) (some clk) r

/-- A bind's events (R720). -/
def bindEvents (h : Hdt) (slot id : Nat) (svc : ServiceType) (thr : Nat) (first : Bool) :
    List Event :=
  (actSlotSetId h slot id ++ actSlotRs h slot (decide (svc = .video))
    ++ (if first then forGroup h.alloc.irqEnable (groupOf svc) else [])
    ++ actPayloadAlloc h slot thr).map writeEvent

/-- An unbind's events; `last` says that the slot's group is left empty (R730). -/
def unbindEvents (h : Hdt) (slot : Nat) (last : Bool) : List Event :=
  (actSlotDisable h slot
    ++ (if last then
          forGroup h.alloc.irqDisable (groupOfSlot slot)
            ++ forGroup h.alloc.payloadReset (groupOfSlot slot)
        else [])).map writeEvent

/-- The events of restoring the stream (R701). -/
def restoreEvents (h : Hdt) (suspended : Bool) : List Event :=
  if suspended then h.alloc.streamOn.map writeEvent else []

/-- The events of closing these bindings one after the other: a group's interrupt disable and payload
reset follow its last binding (R715, R730). -/
def closeEvents (h : Hdt) : List Binding → List Event
  | [] => []
  | b :: bs =>
    unbindEvents h b.slot (bs.all fun x => decide (groupOfSlot x.slot ≠ groupOfSlot b.slot))
      ++ closeEvents h bs

/-- The live bindings in ascending order of their IDs. -/
def liveById (c : Session) : List Binding :=
  (List.range numIds).filterMap fun i =>
    ((List.range 5).filterMap (entry c)).find? fun b => decide (b.id = i)

/-- The registers of one iteration of the outer scan poll, in reading order (R810). -/
def scanRegs (h : Hdt) : Reg3 := ⟨h.scan.doneReg, h.scan.pwr.h, h.scan.pwr.l⟩

/-- The events of undecided iterations of the outer scan poll (R810). -/
def undecidedEvents (h : Hdt) (und : List Read3) : List Event :=
  und.flatMap fun r => rd24Events (scanRegs h) r ++ [.dlyUs 40]

/-! ### The classifier's reads -/

/-- The pre-gate's four reads (R811, R812). -/
structure GateReads where
  gain : Byte
  tm : Byte
  cfH : Byte
  cfL : Byte
  deriving DecidableEq, Repr, Inhabited

/-- Their bytes, in reading order. -/
def GateReads.bytes (r : GateReads) : List Byte := [r.gain, r.tm, r.cfH, r.cfL]

/-- Their events. -/
def GateReads.events (h : Hdt) (r : GateReads) : List Event :=
  [.rd h.scan.preagcReg r.gain, .rd h.scan.txmode.reg r.tm, .rd h.scan.coarseFreq.h r.cfH,
    .rd h.scan.coarseFreq.l r.cfL]

/-- They pass the pre-gate under the thresholds of their transmission mode `tm` and the power `pw`
(R812). -/
structure GateReads.Pass (h : Hdt) (tm : Fin 4) (pw : Nat) (r : GateReads) : Prop where
  mode : field2 h.scan.txmode.lo r.tm = tm
  coarse : r.cfH.toNat * 256 + r.cfL.toNat < (scanThr h tm).cfLo
    ∨ (scanThr h tm).cfHi < r.cfH.toNat * 256 + r.cfL.toNat
  power : (scanThr h tm).power ≤ pw
  gain : (scanThr h tm).gain ≤ r.gain.toNat
  nonzero : r.gain.toNat ≠ 0

/-- The events of phase f's readings: 10 ms, the null length, the transmission mode (R813). -/
def nullEvents (h : Hdt) (nulls : List Read3) : List Event :=
  nulls.flatMap fun x =>
    .dlyMs 10 :: rd24Events ⟨h.scan.nullLen.h, h.scan.nullLen.l, h.scan.txmode.reg⟩ x

/-- Every reading has the transmission mode `tm` (R813). -/
abbrev Stable (h : Hdt) (tm : Fin 4) (nulls : List Read3) : Prop :=
  ∀ x ∈ nulls, field2 h.scan.txmode.lo x.l = tm

/-- How many null lengths are out of range (R813). -/
def outOfRange (h : Hdt) (tm : Fin 4) (nulls : List Read3) : Nat :=
  nulls.countP fun x =>
    decide (x.h.toNat * 256 + x.m.toNat < (scanThr h tm).nlMin)
      || decide ((scanThr h tm).nlMax < x.h.toNat * 256 + x.m.toNat)

/-- Phase f's rejection test at iterations 14 and 15: more than 10 null lengths out of range while the gain
is low (R813). -/
abbrev TooMany (h : Hdt) (tm : Fin 4) (g : Nat) (nulls : List Read3) : Prop :=
  10 < outOfRange h tm nulls ∧ g < (scanThr h tm).gainLow

/-- A DC offset lies in its window (R815). -/
abbrev InWindow (d : Nat) : Prop := d ≤ 5 ∨ 65530 ≤ d

/-- The bytes of the DC check pass it: none are read while the gain is high, else both offsets lie in the
window (R814, R815). -/
def DcPasses (h : Hdt) (tm : Fin 4) (g : Nat) (dc : List Byte) : Prop :=
  ((scanThr h tm).dcGainHigh ≤ g ∧ dc = [])
    ∨ (g < (scanThr h tm).dcGainHigh ∧ ∃ ih il qh ql, dc = [ih, il, qh, ql]
      ∧ InWindow (ih.toNat * 256 + il.toNat) ∧ InWindow (qh.toNat * 256 + ql.toNat))

/-- The events of the DC check. -/
def dcEvents (h : Hdt) : List Byte → List Event
  | [ih, il, qh, ql] => [.rd h.scan.dcI.h ih, .rd h.scan.dcI.l il, .rd h.scan.dcQ.h qh,
      .rd h.scan.dcQ.l ql]
  | _ => []

/-- The reads of a whole iteration of phase g: the mode, the DC check, the state, the coarse count
(R814). -/
structure StateReads where
  tm : Byte
  dc : List Byte
  fsm : Byte
  count : Byte
  deriving DecidableEq, Repr, Inhabited

/-- Their bytes, in reading order. -/
def StateReads.bytes (x : StateReads) : List Byte := x.tm :: (x.dc ++ [x.fsm, x.count])

/-- Their events, with the delay before them. -/
def StateReads.events (h : Hdt) (x : StateReads) : List Event :=
  [.dlyMs 10, .rd h.scan.txmode.reg x.tm] ++ dcEvents h x.dc
    ++ [.rd h.scan.fsmStateReg x.fsm, .rd h.scan.coarseCntReg x.count]

/-- They pass the mode check and the DC check. -/
abbrev StateReads.Pass (h : Hdt) (tm : Fin 4) (g : Nat) (x : StateReads) : Prop :=
  field2 h.scan.txmode.lo x.tm = tm ∧ DcPasses h tm g x.dc

/-- How many iterations observe "unlock" (R814). -/
def unlocks (h : Hdt) (xs : List StateReads) : Nat :=
  xs.countP fun x => h.scan.fsmUnlock.contains x.fsm

/-- The events of the lock wait's polls (R816). -/
def lockWaitEvents (h : Hdt) (polls : List Byte) : List Event :=
  polls.flatMap fun x => [.dlyMs 10, .rd (ofdmLockBit h).reg x]

/-- All that the classifier reads of a channel it accepts, in reading order: the pre-gate, phase f, the
iterations of phase g before its last and the last, the lock polls up to the one that locks. -/
structure ChannelReads where
  gate : GateReads
  nulls : List Read3
  waiting : List StateReads
  last : StateReads
  polls : List Byte
  lock : Byte
  deriving DecidableEq, Repr, Inhabited

/-- The bytes of these reads. -/
def ChannelReads.bytes (r : ChannelReads) : List Byte :=
  r.gate.bytes ++ readBytes r.nulls ++ r.waiting.flatMap StateReads.bytes ++ r.last.bytes
    ++ (r.polls ++ [r.lock])

/-- Their events. -/
def ChannelReads.events (h : Hdt) (r : ChannelReads) : List Event :=
  r.gate.events h ++ nullEvents h r.nulls ++ r.waiting.flatMap (StateReads.events h)
    ++ r.last.events h ++ lockWaitEvents h (r.polls ++ [r.lock])

/-- A channel that passes every test of the classifier: the pre-gate; fifteen readings of a stable mode that
neither test of phase f rejects; at most 99 iterations of phase g with a coarse count up to 1 and one with
more, all passing their checks, with fewer unlocks than the limit; an OFDM lock within fifty polls (R811 to
R816). -/
structure ChannelReads.Good (h : Hdt) (tm : Fin 4) (pw : Nat) (r : ChannelReads) : Prop where
  gate : r.gate.Pass h tm pw
  stable : r.nulls.length = 15 ∧ Stable h tm r.nulls
  nulls : ¬TooMany h tm r.gate.gain.toNat (r.nulls.take 14) ∧ ¬TooMany h tm r.gate.gain.toNat r.nulls
  waiting : r.waiting.length ≤ 99 ∧ ∀ x ∈ r.waiting,
    x.Pass h tm r.gate.gain.toNat ∧ x.count.toNat ≤ 1
  last : r.last.Pass h tm r.gate.gain.toNat ∧ 1 < r.last.count.toNat
  unlocks : unlocks h (r.waiting ++ [r.last]) < phaseGLimit h tm (outOfRange h tm r.nulls)
  lock : r.polls.length < 50 ∧ AllClear (ofdmLockBit h) r.polls
    ∧ bitOf (ofdmLockBit h).pos r.lock = true

/-! ### Measures of a trace (R651, R818, R1130) -/

/-- Whether an event is a read. -/
def isRead : Event → Bool
  | .rd _ _ => true
  | _ => false

/-- Whether an event is a write, masked or not. -/
def isWrite : Event → Bool
  | .wr _ _ => true
  | .wrM _ _ _ => true
  | _ => false

/-- Whether an event is a delay of exactly `n` milliseconds. -/
def isDelayMs (n : Nat) : Event → Bool
  | .dlyMs m => decide (m = n)
  | _ => false

/-- Whether an event is a delay of exactly `n` microseconds. -/
def isDelayUs (n : Nat) : Event → Bool
  | .dlyUs m => decide (m = n)
  | _ => false

/-- The delay an event requests, in microseconds (R206). -/
def delayOf : Event → Nat
  | .dlyMs n => 1000 * n
  | .dlyUs n => n
  | _ => 0

/-- The delay a list of events requests, in microseconds (R1130). -/
def requestedUs (es : List Event) : Nat := (es.map delayOf).sum

/-! ### The allocator invariants (R114) -/

/-- The number of bits set. -/
def popcount {w : Nat} (m : BitVec w) : Nat := (List.range w).countP m.getLsbD

/-- The number of live bindings. -/
def liveBindings (c : Session) : Nat := (List.range 5).countP fun e => (entry c e).isSome

/-- Whether entry `e` is a binding of slot `k`. -/
def holdsSlot (c : Session) (k e : Nat) : Bool :=
  match entry c e with
  | some b => decide (b.slot = k)
  | none => false

/-- A binding's slot suits its service (R114.5). -/
def slotFits (h : Hdt) (b : Binding) : Prop :=
  match b.svc with
  | .data => 1 ≤ b.slot ∧ b.slot ≤ h.alloc.numDataSlots
  | .video => b.slot = 0
  | .audio => b.slot = 0

/-- The five items of R114, as the spec words them. -/
structure R114Items (h : Hdt) (c : Session) : Prop where
  ids : ∀ i < numIds, registered c i = true ↔ (List.range 5).countP (holdsId c i) = 1
  slots : ∀ k < 5, slotBound c k = true ↔ (List.range 5).countP (holdsSlot c k) = 1
  entries : ∀ e < 5, c.regMask.getLsbD e = true ↔ entry c e ≠ none
  slotCount : popcount c.slotMask = liveBindings c
  entryCount : popcount c.regMask = liveBindings c
  capacity : liveBindings c ≤ maxBindings h
  fits : ∀ e b, entry c e = some b → slotFits h b

/-- The same, in the form every operation keeps: no ID and no slot is held twice, and no entry from
`MAX_BINDINGS` on is live. -/
structure AllocInv (h : Hdt) (c : Session) : Prop where
  entries : ∀ e < 5, c.regMask.getLsbD e = (entry c e).isSome
  bounded : ∀ e b, entry c e = some b → e < maxBindings h
  idRange : ∀ e b, entry c e = some b → b.id < numIds
  fits : ∀ e b, entry c e = some b → slotFits h b
  slotRange : ∀ e b, entry c e = some b → b.slot < 5
  sameId : ∀ e e' b b', entry c e = some b → entry c e' = some b' → b.id = b'.id → e = e'
  sameSlot : ∀ e e' b b', entry c e = some b → entry c e' = some b' → b.slot = b'.slot → e = e'
  ids : ∀ i, i < numIds → (registered c i = true ↔ ∃ e b, entry c e = some b ∧ b.id = i)
  slots : ∀ k, slotBound c k = true ↔ ∃ e b, entry c e = some b ∧ b.slot = k

/-! ### Changes of the allocator state -/

/-- Only the allocator's fields differ (R107 to R109, R111). -/
def SameButAllocator (c c' : Session) : Prop :=
  c' = { c with
    reg := c'.reg, idMask0 := c'.idMask0, idMask1 := c'.idMask1, slotMask := c'.slotMask,
    regMask := c'.regMask }

/-- `c'` holds the bindings of `c` and `b` as entry `e`, in the array and in all three masks. -/
def BoundAlso (c c' : Session) (e : Nat) (b : Binding) : Prop :=
  (∀ k, entry c' k = if k = e then some b else entry c k)
    ∧ (∀ i < numIds, registered c' i = (registered c i || decide (i = b.id)))
    ∧ (∀ k, slotBound c' k = (slotBound c k || decide (k = b.slot)))
    ∧ (∀ k, c'.regMask.getLsbD k = (c.regMask.getLsbD k || decide (k = e)))

/-- `c'` holds the bindings of `c` but entry `e`, the binding `b`. -/
def Released (c c' : Session) (e : Nat) (b : Binding) : Prop :=
  (∀ k, entry c' k = if k = e then none else entry c k)
    ∧ (∀ i < numIds, registered c' i = (registered c i && decide (i ≠ b.id)))
    ∧ (∀ k, slotBound c' k = (slotBound c k && decide (k ≠ b.slot)))
    ∧ (∀ k, c'.regMask.getLsbD k = (c.regMask.getLsbD k && decide (k ≠ e)))

/-- No binding and no bit set. -/
def NoBindings (c : Session) : Prop :=
  (∀ k, entry c k = none) ∧ c.idMask0 = 0 ∧ c.idMask1 = 0 ∧ c.slotMask = 0 ∧ c.regMask = 0

/-- The lowest free registration entry (R720). -/
def FirstFreeEntry (h : Hdt) (c : Session) (e : Nat) : Prop :=
  e < maxBindings h ∧ entry c e = none ∧ ∀ k < e, entry c k ≠ none

/-- The slot a bind of this service takes: slot 0, or the lowest free data slot (R720). -/
def TargetSlot (h : Hdt) (c : Session) (svc : ServiceType) (slot : Nat) : Prop :=
  match svc with
  | .video => slot = 0
  | .audio => slot = 0
  | .data =>
    1 ≤ slot ∧ slot ≤ h.alloc.numDataSlots ∧ slotBound c slot = false
      ∧ ∀ k, 1 ≤ k → k < slot → slotBound c k = true

/-- An open passes its three checks (R700): the ID, the threshold and the mode. -/
def OpenAdmitted (s : State) (id thr : Nat) : Prop :=
  id < 64 ∧ (s.hdt.alloc.framing = .individual → thr ≤ s.hdt.alloc.maxThrIndividual)
    ∧ (s.ctx.mode = .tdmb ∨ s.ctx.mode = .dabBand3 ∨ s.ctx.mode = .dabLband)

/-- The frequency is the tuned one (R700). -/
abbrev AtTunedFreq (s : State) (f : Nat) : Prop := s.ctx.prevFreq ≠ 0 ∧ f = s.ctx.prevFreq

/-- A state after a getter operation run at once that leaves the level alone. -/
def getterAfter (s : State) (rest : List Byte) (es : List Event) (v : Int) : State :=
  { s with
    getAnswers := rest
    trace := s.trace ++ es.map fun e => ⟨.getter, e⟩
    replies := s.replies ++ [⟨.getter, .value v⟩] }

/-- The agent that runs a command (R220). -/
def agentOf (i : Instr) : Agent := if (getterCmd i).isSome then .getter else .control

/-! ### The machine's invariant -/

/-- What holds in every state in which the control agent is idle: the allocator invariants, a flag that
is down (R110), a level in 0..6, the one a getter operation has read too (R113), a 32-bit previous frequency
and thresholds (R106, R107), and in a session a supported mode and the HDT's crystal (R103, R104). -/
structure Inv (s : State) : Prop where
  alloc : AllocInv s.hdt s.ctx
  idle : s.ctx.ccip = false
  level : s.ctx.antLevel ≤ 6
  read : ∀ g prev, s.getter = some g → g.prev = some prev → prev ≤ 6
  freq : s.ctx.prevFreq < 2 ^ 32
  thr : ∀ e b, entry s.ctx e = some b → b.thr < 2 ^ 32
  mode : s.ctx.initialized = true → s.ctx.mode ∈ s.hdt.supportedModes
  xtal : s.ctx.initialized = true → s.ctx.xtal = s.hdt.xtalKhz

/-- A stop: a fault, for any reason. -/
def faults (o : Out) : Bool :=
  match o with
  | .fault _ => true
  | _ => false

end Sys2Proof.Machine
end

