-- ==== Sys2Proof/Certificates/Slice0/Obligations.lean ====
section
/-! DEFINITION. The statements for the provers. "After" a control command is the control agent's view of
the next state (`ctlView`): the HDT, every context field but the level, the answers left, the events and
the replies; so an equation of views is a result and a frame in one, for every getter activity that
falls into the command. -/

open Sys2Proof Sys2Proof.Machine

/-! ### Encoding -/

/-- R300 to R304: decoding the frame of a well-formed command gives it back, with the bytes after it. -/
def Obligations.DecodeEncodeRoundTrip : Prop :=
  ∀ (i : Instr) (rest : List Byte),
    i.wellFormed = true → decode (encode i ++ rest) = .ok (i, rest)

/-- R300 to R306: whatever decodes is well formed, and its frame is the bytes read. -/
def Obligations.EncodeDecodeRoundTrip : Prop :=
  ∀ (bs : List Byte) (i : Instr) (rest : List Byte),
    decode bs = .ok (i, rest) → i.wellFormed = true ∧ encode i ++ rest = bs

/-- R305: the unassigned opcodes are refused. -/
def Obligations.UnassignedOpcodesRefused : Prop :=
  ∀ (s : State) (op : Byte) (rest : List Byte),
    s.inbox = op :: rest →
    (op.toNat = 0x00 ∨ (0x04 ≤ op.toNat ∧ op.toNat ≤ 0x0F) ∨ (0x12 ≤ op.toNat ∧ op.toNat ≤ 0x1F)
      ∨ (0x24 ≤ op.toNat ∧ op.toNat ≤ 0x2F) ∨ 0x38 ≤ op.toNat) →
    step s = .refused (.badFrame (.unassignedOpcode op))

/-- R304.2: a frame cut short is refused. -/
def Obligations.ShortFramesRefused : Prop :=
  ∀ (s : State) (i : Instr) (k : Nat),
    0 < k → k < (encode i).length → s.inbox = (encode i).take k →
    step s = .refused (.badFrame .shortFrame)

/-- R304.3, R310 to R312: reserved enumerators are refused, in every format that has one. -/
def Obligations.ReservedEnumeratorsRefused : Prop :=
  ∀ (s : State) (b : Byte),
    (5 ≤ b.toNat →
      (∀ rest, s.inbox = 0x01 :: b :: rest → step s = .refused (.badFrame (.reservedMode b)))
      ∧ (∀ op c rest, op = 0x02 ∨ op = 0x03 → s.inbox = op :: b :: c :: rest →
          step s = .refused (.badFrame (.reservedMode b)))
      ∧ (∀ ch f3 f2 f1 f0 rest, s.inbox = 0x10 :: b :: ch :: f3 :: f2 :: f1 :: f0 :: rest →
          step s = .refused (.badFrame (.reservedMode b))))
    ∧ (4 ≤ b.toNat → ∀ op m rest, op = 0x02 ∨ op = 0x03 → m.toNat < 5 →
        s.inbox = op :: m :: b :: rest → step s = .refused (.badFrame (.reservedClock b)))
    ∧ (3 ≤ b.toNat → ∀ f3 f2 f1 f0 id t3 t2 t1 t0 rest,
        s.inbox = 0x20 :: f3 :: f2 :: f1 :: f0 :: id :: b :: t3 :: t2 :: t1 :: t0 :: rest →
        step s = .refused (.badFrame (.reservedService b)))

/-- R301 to R303: frames written out from the tables decode to their commands. -/
def Obligations.SampleFramesDecode : Prop :=
  decode [0x01, 0x03] = .ok (.init .isdb1seg, [])
  ∧ decode [0x02, 0x00, 0x01] = .ok (.adcConfigure .tdmb .clk8192, [])
  ∧ decode [0x10, 0x03, 0x0D, 0x00, 0x07, 0x38, 0x37] = .ok (.setFreq .isdb1seg 13 473143, [])
  ∧ decode [0x11, 0x00, 0x02, 0xC4, 0x20] = .ok (.scanFreq 181280, [])
  ∧ decode [0x20, 0x00, 0x02, 0xC4, 0x20, 0x28, 0x00, 0x00, 0x00, 0x10, 0x00]
      = .ok (.openSubch 181280 40 .video 4096, [])
  ∧ decode [0x21, 0x03] = .ok (.closeSubch 3, [])
  ∧ decode [0x36, 0x03, 0x29] = .ok (.getAntennaLevel 809, [])

/-! ### The step -/

/-- R101, R221, R304: a step runs the command the host's next bytes spell, on the state with those bytes
taken; with no byte the getter agent makes its next move, and with none to make the state stays. R402, R1007:
a step that meets a pending refusal of a getter command is refused. What a step does with no byte, and that
such a refusal waits for the next step, is the model's choice (log 4). -/
def Obligations.StepRunsDecodedCommand : Prop :=
  ∀ s : State,
    (s.getterRefused = false →
      (∀ i rest, decode s.inbox = .ok (i, rest) → step s = exec i { s with inbox := rest })
      ∧ (s.inbox = [] → step s = .next (getterMove s))
      ∧ (s.inbox = [] → s.getter = none → step s = .next s))
    ∧ (s.getterRefused = true → s.inbox = [] ∨ (∃ i rest, decode s.inbox = .ok (i, rest)) →
      step s = .refused .notInitialised)

/-! ### Refusals -/

/-- R402: while no session is open, every command but `INIT` is refused. -/
def Obligations.CommandsBeforeInitRefused : Prop :=
  ∀ (i : Instr) (s : State),
    (∀ mode, i ≠ .init mode) → s.ctx.initialized = false → exec i s = .refused .notInitialised

/-- R12: what an HDT must pass; the tight unlock limit is one for each transmission mode (D62, log 8). -/
def Obligations.HdtChecksAreThoseOfTheSpec : Prop :=
  ∀ h : Hdt, hdtOk h = true ↔
    (∀ b : Byte, ¬(b ∈ h.scan.notSignal ∧ b ∈ h.scan.signal))
    ∧ (∀ (i j : Nat) (hi : i < 146) (hj : j < 146), i ≤ j → h.quality.cnrLut[j] ≤ h.quality.cnrLut[i])
    ∧ (1 ≤ h.alloc.numDataSlots ∧ h.alloc.numDataSlots ≤ 4)
    ∧ (∀ tm : Fin 4, 1 ≤ h.scan.thresholds[tm].unlockLimitTight
      ∧ h.scan.thresholds[tm].unlockLimitTight ≤ 9)
    ∧ 0 < h.quality.cnrDiv
    ∧ (h.scan.txmode.lo.val + 2 ≤ 8 ∧ h.quality.fecSyncLo.val + 2 ≤ 8
      ∧ h.quality.lnaLo.val + 2 ≤ 8 ∧ h.quality.rfagcLo.val + 4 ≤ 8)

/-- R12, R1007: under an HDT that fails its checks every command is refused. -/
def Obligations.RejectedHdtRefusesEveryCommand : Prop :=
  ∀ (i : Instr) (s : State), hdtOk s.hdt = false →
    ∃ r, exec i s = .refused r
      ∧ ((∀ mode, i ≠ .init mode) → s.ctx.initialized = false → r = .notInitialised)
      ∧ ((∃ mode, i = .init mode) ∨ s.ctx.initialized = true → r = .hdtRejected)

/-- R1007: no command is refused for any other reason; R402: only within `INIT` is a getter command's refusal
left pending, and it stays so (log 4). -/
def Obligations.OnlyTheSpecsRefusals : Prop :=
  (∀ (i : Instr) (s : State) (r : Refusal), exec i s = .refused r →
    (r = .notInitialised ∧ s.ctx.initialized = false ∧ ∀ mode, i ≠ .init mode)
    ∨ (r = .hdtRejected ∧ hdtOk s.hdt = false))
  ∧ ∀ (i : Instr) (s t : State), exec i s = .next t →
    (s.getterRefused = true → t.getterRefused = true)
    ∧ (t.getterRefused = true → s.getterRefused = true ∨ ∃ mode, i = .init mode)

/-! ### Invariants -/

/-- R130: what a fresh context holds. -/
def Obligations.ResetContext : Prop :=
  State.reset.ctx.initialized = false ∧ State.reset.ctx.adcClk = none
  ∧ State.reset.ctx.prevFreq = 0 ∧ (∀ e, entry State.reset.ctx e = none)
  ∧ State.reset.ctx.idMask0 = 0 ∧ State.reset.ctx.idMask1 = 0 ∧ State.reset.ctx.slotMask = 0
  ∧ State.reset.ctx.regMask = 0 ∧ State.reset.ctx.ccip = false
  ∧ State.reset.ctx.streamSuspended = false ∧ State.reset.ctx.antLevel = 0

/-- The machine's invariant holds right after reset, under any HDT. -/
def Obligations.ResetMeetsInvariant : Prop :=
  ∀ h : Hdt, Inv { State.reset with hdt := h }

/-- The machine's invariant (R103, R104, R106, R107, R110, R113, R114) is kept by every step. -/
def Obligations.StepKeepsInvariant : Prop :=
  ∀ s t : State, Inv s → step s = .next t → Inv t

/-- R702 and R114: from a state that meets the invariant no step stops with a fault. -/
def Obligations.InvariantRulesOutFaults : Prop :=
  ∀ s : State, Inv s → faults (step s) = false

/-- R114: its five items hold in every state that any number of steps reach from one that meets the
invariant. -/
def Obligations.AllocatorRulesHoldOnEveryRun : Prop :=
  ∀ (s t : State) (n : Nat), Inv s → Sys2Proof.core.run n s = .next t → R114Items t.hdt t.ctx

/-! ### Whole-machine rules -/

/-- R7, R203: no step writes the HDT, and a step only adds to the trace and the replies. -/
def Obligations.StepKeepsHdtAndHistory : Prop :=
  ∀ s t : State, step s = .next t →
    t.hdt = s.hdt ∧ s.trace <+: t.trace ∧ s.replies <+: t.replies

/-- R102, R103, R104, R1111: only `INIT` writes the mode, the crystal and the session flag. -/
def Obligations.OnlyInitWritesModeAndCrystal : Prop :=
  ∀ (i : Instr) (s t : State), (∀ mode, i ≠ .init mode) → exec i s = .next t →
    t.ctx.initialized = s.ctx.initialized ∧ t.ctx.mode = s.ctx.mode ∧ t.ctx.xtal = s.ctx.xtal

/-- R101, R313, R1000: an accepted command returns, with one reply of its own agent last. It is the only one,
except that a getter command issued while a getter operation is in progress waits for it, so that one reply,
of that operation, comes before (log 4). -/
def Obligations.AcceptedCommandsReturn : Prop :=
  ∀ (i : Instr) (s : State),
    hdtOk s.hdt = true → (s.ctx.initialized = true ∨ ∃ mode, i = .init mode) →
    AllocInv s.hdt s.ctx →
    ∃ t before r, exec i s = .next t
      ∧ repliesOf (agentOf i) t = repliesOf (agentOf i) s ++ before ++ [r]
      ∧ (agentOf i = .control ∨ s.getter = none → before = [])
      ∧ before.length ≤ 1

/-! ### Session operations -/

/-- R400, R131: `INIT` whose ADC clock locks at one of the ten polls leaves the context of R130 with the
session open and the mode, the crystal and the clock type set; the level is 0 when no getter move falls
into it. R402: a getter command that the getter agent meets within it is refused (the refusal left pending is
the model's choice, log 4). -/
def Obligations.InitOpensSession : Prop :=
  ∀ (mode : ReceiverMode) (s : State) (t : Vector Byte 7) (lo rest : List Byte) (b : Byte),
    hdtOk s.hdt = true → mode ∈ s.hdt.supportedModes →
    adcTuple s.hdt s.hdt.xtalKhz s.hdt.adc.clkInit = some t →
    lo.length < 10 → AllClear s.hdt.adc.lockBit lo → bitOf s.hdt.adc.lockBit.pos b = true →
    s.ctlAnswers = lo ++ b :: rest →
    ∃ u, exec (.init mode) s = .next u
      ∧ ctlView u = (ctlView s).after
          { Session.fresh with
            initialized := true, mode := mode, xtal := s.hdt.xtalKhz,
            adcClk := some s.hdt.adc.clkInit }
          rest
          ((forMode s.hdt.initSeq mode).map writeEvent ++ tupleEvents s.hdt t
            ++ pollEvents s.hdt.adc.lockBit.reg 1 (lo ++ [b]))
          .ok
      ∧ (s.sched = [] → u.ctx.antLevel = 0)
      ∧ (∀ n ns i c more, s.getter = none → s.sched = 0 :: (n + 1) :: ns →
          decode s.inbox = .ok (i, more) → getterCmd i = some c → u.getterRefused = true)

/-- R400: `INIT` in a mode the build does not support changes nothing but the reply; one whose ADC step
fails leaves the fresh context with the mode and the crystal set and no session open. -/
def Obligations.InitFailures : Prop :=
  ∀ (mode : ReceiverMode) (s : State), hdtOk s.hdt = true →
    (mode ∉ s.hdt.supportedModes →
      exec (.init mode) s = .next (reply .control (.err .invalidCountryBand) s))
    ∧ (mode ∈ s.hdt.supportedModes → adcTuple s.hdt s.hdt.xtalKhz s.hdt.adc.clkInit = none →
      ∃ u, exec (.init mode) s = .next u
        ∧ ctlView u = (ctlView s).after
            { Session.fresh with mode := mode, xtal := s.hdt.xtalKhz }
            s.ctlAnswers ((forMode s.hdt.initSeq mode).map writeEvent) (.err .unsupportedAdcClock))
    ∧ (∀ t lo rest, mode ∈ s.hdt.supportedModes →
        adcTuple s.hdt s.hdt.xtalKhz s.hdt.adc.clkInit = some t →
        lo.length = 10 → AllClear s.hdt.adc.lockBit lo → s.ctlAnswers = lo ++ rest →
        ∃ u, exec (.init mode) s = .next u
          ∧ ctlView u = (ctlView s).after
              { Session.fresh with mode := mode, xtal := s.hdt.xtalKhz }
              rest
              ((forMode s.hdt.initSeq mode).map writeEvent ++ tupleEvents s.hdt t
                ++ pollEvents s.hdt.adc.lockBit.reg 1 lo)
              (.err .adcClockUnlocked))

/-- R410: `GET_PREV_FREQ` returns the previous frequency and changes nothing else. -/
def Obligations.PrevFreqReturned : Prop :=
  ∀ s : State, Ready s →
    exec .getPrevFreq s = .next (reply .control (.value s.ctx.prevFreq) s)

/-! ### ADC clock selector -/

/-- R500, R510: both operations return at once for the current type, and without a write for an
unsupported one. -/
def Obligations.AdcShortCircuitAndUnsupported : Prop :=
  ∀ (mode : ReceiverMode) (clk : AdcClockType) (s : State), Ready s →
    (s.ctx.adcClk = some clk →
      exec (.adcConfigure mode clk) s = .next (reply .control .ok s)
      ∧ exec (.adcChangeClock mode clk) s = .next (reply .control .ok s))
    ∧ (s.ctx.adcClk ≠ some clk → adcTuple s.hdt s.ctx.xtal clk = none →
      exec (.adcConfigure mode clk) s = .next (reply .control (.err .unsupportedAdcClock) s)
      ∧ exec (.adcChangeClock mode clk) s
          = .next (reply .control (.err .unsupportedAdcClock) s))

/-- R500: `ADC_CONFIGURE` writes the seven tuple bytes and polls the lock bit, at most ten times with
1 ms between two polls; it records the type on a lock and `none` after ten polls without one. -/
def Obligations.AdcConfigureOutcomes : Prop :=
  ∀ (mode : ReceiverMode) (clk : AdcClockType) (s : State) (t : Vector Byte 7) (lo rest : List Byte),
    Ready s → s.ctx.adcClk ≠ some clk → adcTuple s.hdt s.ctx.xtal clk = some t →
    AllClear s.hdt.adc.lockBit lo →
    (∀ b, lo.length < 10 → bitOf s.hdt.adc.lockBit.pos b = true → s.ctlAnswers = lo ++ b :: rest →
      ∃ u, exec (.adcConfigure mode clk) s = .next u
        ∧ ctlView u = (ctlView s).after { core s.ctx with adcClk := some clk } rest
            (tupleEvents s.hdt t ++ pollEvents s.hdt.adc.lockBit.reg 1 (lo ++ [b])) .ok)
    ∧ (lo.length = 10 → s.ctlAnswers = lo ++ rest →
      ∃ u, exec (.adcConfigure mode clk) s = .next u
        ∧ ctlView u = (ctlView s).after { core s.ctx with adcClk := none } rest
            (tupleEvents s.hdt t ++ pollEvents s.hdt.adc.lockBit.reg 1 lo)
            (.err .adcClockUnlocked))

/-- R510: `ADC_CHANGE_CLOCK` does the same behind a disabled bus-frequency lock bit, which it enables
again only after a confirmed lock. -/
def Obligations.AdcChangeClockOutcomes : Prop :=
  ∀ (mode : ReceiverMode) (clk : AdcClockType) (s : State) (t : Vector Byte 7) (lo rest : List Byte),
    Ready s → s.ctx.adcClk ≠ some clk → adcTuple s.hdt s.ctx.xtal clk = some t →
    AllClear s.hdt.adc.lockBit lo →
    (∀ b, lo.length < 10 → bitOf s.hdt.adc.lockBit.pos b = true → s.ctlAnswers = lo ++ b :: rest →
      ∃ u, exec (.adcChangeClock mode clk) s = .next u
        ∧ ctlView u = (ctlView s).after { core s.ctx with adcClk := some clk } rest
            ([.wrM s.hdt.adc.busLockReg s.hdt.adc.busLockMask s.hdt.adc.busLockOff]
              ++ tupleEvents s.hdt t ++ pollEvents s.hdt.adc.lockBit.reg 1 (lo ++ [b])
              ++ [.wrM s.hdt.adc.busLockReg s.hdt.adc.busLockMask s.hdt.adc.busLockOn]) .ok)
    ∧ (lo.length = 10 → s.ctlAnswers = lo ++ rest →
      ∃ u, exec (.adcChangeClock mode clk) s = .next u
        ∧ ctlView u = (ctlView s).after { core s.ctx with adcClk := none } rest
            ([.wrM s.hdt.adc.busLockReg s.hdt.adc.busLockMask s.hdt.adc.busLockOff]
              ++ tupleEvents s.hdt t ++ pollEvents s.hdt.adc.lockBit.reg 1 lo)
            (.err .adcClockUnlocked))

/-! ### Frequency synthesizer -/

/-- R610: the lookups succeed exactly under the five conditions, and fail only with `InvalidMode`. -/
def Obligations.SynthPrepareConditions : Prop :=
  ∀ (h : Hdt) (c : Session) (mode : ReceiverMode) (ch f : Nat),
    (∀ clk n, synthPrepare h c mode ch f = .ok (clk, n) ↔
      mode = c.mode ∧ clkFor h c.xtal mode f = some clk
      ∧ (mode = .isdb1seg → h.pll.isdbChMin.val ≤ ch ∧ ch ≤ h.pll.isdbChMax.val
          ∧ n = (isdbRow h c.xtal).base + ch * (isdbRow h c.xtal).step)
      ∧ (mode ≠ .isdb1seg → nfFor h c.xtal mode f = some n)
      ∧ n < 2 ^ 23)
    ∧ (∀ e, synthPrepare h c mode ch f = .error e → e = .invalidMode)

/-- R600, R610, R500, R640: `SET_FREQ` whose lookups fail, or whose clock type is unsupported, issues no
port call and keeps the previous frequency; one whose ADC clock does not lock ends with the previous
frequency 0 and no clock type. -/
def Obligations.SetFreqEarlyErrors : Prop :=
  ∀ (mode : ReceiverMode) (ch f : Nat) (s : State), Ready s →
    (∀ e, synthPrepare s.hdt s.ctx mode ch f = .error e →
      ∃ u, exec (.setFreq mode ch f) s = .next u
        ∧ ctlView u = (ctlView s).after { core s.ctx with ccip := false } s.ctlAnswers []
            (.err .invalidMode))
    ∧ (∀ clk n, synthPrepare s.hdt s.ctx mode ch f = .ok (clk, n) → s.ctx.adcClk ≠ some clk →
        (adcTuple s.hdt s.ctx.xtal clk = none →
          ∃ u, exec (.setFreq mode ch f) s = .next u
            ∧ ctlView u = (ctlView s).after { core s.ctx with ccip := false } s.ctlAnswers []
                (.err .unsupportedAdcClock))
        ∧ (∀ t lo rest, adcTuple s.hdt s.ctx.xtal clk = some t → lo.length = 10 →
            AllClear s.hdt.adc.lockBit lo → s.ctlAnswers = lo ++ rest →
            ∃ u, exec (.setFreq mode ch f) s = .next u
              ∧ ctlView u = (ctlView s).after
                  { core s.ctx with adcClk := none, prevFreq := 0, ccip := false } rest
                  (tupleEvents s.hdt t ++ pollEvents s.hdt.adc.lockBit.reg 1 lo)
                  (.err .adcClockUnlocked)))

/-- R620 to R623, R630, R640, R650: with the clock type current, a read-back that matches at one of the
ten attempts and a lock bit set at one of the ten polls, `SET_FREQ` tunes: one program and one read-back
for each attempt, then the soft reset. -/
def Obligations.SetFreqTunes : Prop :=
  ∀ (mode : ReceiverMode) (ch f : Nat) (s : State) (clk : AdcClockType) (n : Nat)
    (bad : List Read3) (good : Read3) (lo rest : List Byte) (b : Byte),
    Ready s → synthPrepare s.hdt s.ctx mode ch f = .ok (clk, n) → s.ctx.adcClk = some clk →
    bad.length < 10 → (∀ r ∈ bad, ¬Matches mode (tuneWord s.hdt mode n) r.value) →
    Matches mode (tuneWord s.hdt mode n) good.value →
    lo.length < 10 → AllClear s.hdt.pll.lockBit lo → bitOf s.hdt.pll.lockBit.pos b = true →
    s.ctlAnswers = readBytes bad ++ good.bytes ++ lo ++ b :: rest →
    ∃ u, exec (.setFreq mode ch f) s = .next u
      ∧ ctlView u = (ctlView s).after { core s.ctx with prevFreq := f, ccip := false } rest
          (matchEvents s.hdt (tuneWord s.hdt mode n) bad good
            ++ pollEvents s.hdt.pll.lockBit.reg 2 (lo ++ [b]) ++ resetEvents s.hdt mode)
          .ok

/-- R500, R630: with another clock type current, the ADC clock is configured first, and the tune
follows. -/
def Obligations.SetFreqReclocksThenTunes : Prop :=
  ∀ (mode : ReceiverMode) (ch f : Nat) (s : State) (clk : AdcClockType) (n : Nat)
    (t : Vector Byte 7) (alo : List Byte) (ab : Byte)
    (bad : List Read3) (good : Read3) (lo rest : List Byte) (b : Byte),
    Ready s → synthPrepare s.hdt s.ctx mode ch f = .ok (clk, n) → s.ctx.adcClk ≠ some clk →
    adcTuple s.hdt s.ctx.xtal clk = some t →
    alo.length < 10 → AllClear s.hdt.adc.lockBit alo → bitOf s.hdt.adc.lockBit.pos ab = true →
    bad.length < 10 → (∀ r ∈ bad, ¬Matches mode (tuneWord s.hdt mode n) r.value) →
    Matches mode (tuneWord s.hdt mode n) good.value →
    lo.length < 10 → AllClear s.hdt.pll.lockBit lo → bitOf s.hdt.pll.lockBit.pos b = true →
    s.ctlAnswers = alo ++ ab :: (readBytes bad ++ good.bytes ++ lo ++ b :: rest) →
    ∃ u, exec (.setFreq mode ch f) s = .next u
      ∧ ctlView u = (ctlView s).after
          { core s.ctx with adcClk := some clk, prevFreq := f, ccip := false } rest
          (tupleEvents s.hdt t ++ pollEvents s.hdt.adc.lockBit.reg 1 (alo ++ [ab])
            ++ matchEvents s.hdt (tuneWord s.hdt mode n) bad good
            ++ pollEvents s.hdt.pll.lockBit.reg 2 (lo ++ [b]) ++ resetEvents s.hdt mode)
          .ok

/-- R500, R621, R622, R640, R650: after an ADC step that succeeds, ten read-backs without a match, or ten
polls without a lock, end in `PllUnlocked` with the previous frequency 0 and no soft reset. -/
def Obligations.SetFreqPllTimeouts : Prop :=
  ∀ (mode : ReceiverMode) (ch f : Nat) (s : State) (clk : AdcClockType) (n : Nat)
    (as : List Byte) (es : List Event) (bad : List Read3) (good : Read3) (lo rest : List Byte),
    Ready s → synthPrepare s.hdt s.ctx mode ch f = .ok (clk, n) → AdcStep s.hdt s.ctx clk as es →
    (∀ r ∈ bad, ¬Matches mode (tuneWord s.hdt mode n) r.value) →
    (bad.length = 9 → ¬Matches mode (tuneWord s.hdt mode n) good.value →
      s.ctlAnswers = as ++ (readBytes bad ++ good.bytes) ++ rest →
      ∃ u, exec (.setFreq mode ch f) s = .next u
        ∧ ctlView u = (ctlView s).after
            { core s.ctx with adcClk := some clk, prevFreq := 0, ccip := false } rest
            (es ++ matchEvents s.hdt (tuneWord s.hdt mode n) bad good) (.err .pllUnlocked))
    ∧ (bad.length < 10 → Matches mode (tuneWord s.hdt mode n) good.value →
      lo.length = 10 → AllClear s.hdt.pll.lockBit lo →
      s.ctlAnswers = as ++ (readBytes bad ++ good.bytes ++ lo) ++ rest →
      ∃ u, exec (.setFreq mode ch f) s = .next u
        ∧ ctlView u = (ctlView s).after
            { core s.ctx with adcClk := some clk, prevFreq := 0, ccip := false } rest
            (es ++ (matchEvents s.hdt (tuneWord s.hdt mode n) bad good
              ++ pollEvents s.hdt.pll.lockBit.reg 2 lo))
            (.err .pllUnlocked))

/-- R651, R1130: whatever the oracle answers, a tune issues at most 39 writes, 50 reads, 18 delays of
2 ms and 10 of 1 ms, and requests at most 46 ms. -/
def Obligations.SynthBudget : Prop :=
  ∀ (mode : ReceiverMode) (ch f : Nat) (s t : State) (r : Except ErrorCode Unit),
    synthSetFrequency mode ch f s = (r, t) →
    ∃ es, eventsOf .control t = eventsOf .control s ++ es
      ∧ es.countP isWrite ≤ 39 ∧ es.countP isRead ≤ 50
      ∧ es.countP (isDelayMs 2) ≤ 18 ∧ es.countP (isDelayMs 1) ≤ 10
      ∧ requestedUs es ≤ 46000

/-! ### Frames -/

/-- R500, R510, R600, R641: whatever the oracle and the getters do, the ADC commands write no context
field but the clock type; `SET_FREQ` only the clock type, the previous frequency and the flag, which it
leaves down. -/
def Obligations.ClockAndTuneFrame : Prop :=
  ∀ s t : State,
    (∀ mode clk, exec (.adcConfigure mode clk) s = .next t ∨ exec (.adcChangeClock mode clk) s = .next t →
      core t.ctx = { core s.ctx with adcClk := t.ctx.adcClk })
    ∧ (∀ mode ch f, exec (.setFreq mode ch f) s = .next t →
      core t.ctx =
        { core s.ctx with adcClk := t.ctx.adcClk, prevFreq := t.ctx.prevFreq, ccip := false }
      ∧ (t.ctx.prevFreq = f ∨ t.ctx.prevFreq = 0 ∨ t.ctx.prevFreq = s.ctx.prevFreq))

/-- R700, R710, R715, R740, R800: whatever the oracle and the getters do, closing writes the allocator
state only; an open that is not a re-tune also the stream flag; a re-tune and a scan also the clock type,
the previous frequency and the flag, which they leave down. -/
def Obligations.AllocatorFrame : Prop :=
  ∀ s t : State,
    (∀ id, exec (.closeSubch id) s = .next t ∨ exec .closeAllSubch s = .next t →
      SameButAllocator (core s.ctx) (core t.ctx))
    ∧ (∀ f id svc thr, exec (.openSubch f id svc thr) s = .next t →
      ∃ c, SameButAllocator (core s.ctx) c
        ∧ (AtTunedFreq s f →
            core t.ctx = { c with streamSuspended := t.ctx.streamSuspended })
        ∧ (OpenAdmitted s id thr → ¬AtTunedFreq s f →
            core t.ctx =
              { c with
                streamSuspended := t.ctx.streamSuspended, adcClk := t.ctx.adcClk,
                prevFreq := t.ctx.prevFreq, ccip := false }))
    ∧ (∀ f, exec (.scanFreq f) s = .next t → isDabMode s.ctx.mode = true →
      ∃ c, SameButAllocator (core s.ctx) c
        ∧ core t.ctx = { c with adcClk := t.ctx.adcClk, prevFreq := f, ccip := false })

/-- R222: when no getter move falls into it, a control command leaves the getter agent alone; only
`INIT` then writes the level (R113, R400). R110, R224, R600, R641, R700, R800: `SET_FREQ`, an open at another
frequency and a scan hold the in-progress flag up from before their first port call until after their last:
whatever the schedule, a getter command that starts within one once the flag is up makes no port call, answers
its sentinel (R901) and writes nothing. -/
def Obligations.ControlCommandsLeaveGetterAlone : Prop :=
  (∀ (i : Instr) (s t : State), agentOf i = .control → s.sched = [] → exec i s = .next t →
    SameSurroundings s t
    ∧ ((∀ mode, i ≠ .init mode) → t.ctx.antLevel = s.ctx.antLevel))
  ∧ ∀ (i : Instr) (s t : State) (ns : List Nat),
    ((∃ mode ch f, i = .setFreq mode ch f) ∨ (∃ f, i = .scanFreq f)
      ∨ ∃ f id svc thr, i = .openSubch f id svc thr ∧ ¬AtTunedFreq s f) →
    s.getter = none → s.sched = 0 :: ns → exec i s = .next t →
    eventsOf .getter t = eventsOf .getter s ∧ t.getAnswers = s.getAnswers
    ∧ t.getter = none ∧ t.ctx.antLevel = s.ctx.antLevel
    ∧ ∃ cs : List GetterCmd,
        repliesOf .getter t = repliesOf .getter s ++ cs.map fun c => .value (sentinel c)

/-- R900 to R960: a getter command changes nothing of the control agent's view; with no getter operation
before it, only `GET_ANTENNA_LEVEL` writes a context field. -/
def Obligations.GetterFrame : Prop :=
  ∀ (i : Instr) (s t : State), agentOf i = .getter → exec i s = .next t →
    ctlView t = ctlView s ∧ t.getter = none ∧ t.getterRefused = s.getterRefused
    ∧ t.inbox = s.inbox ∧ t.sched = s.sched
    ∧ (s.getter = none → (∀ cer, i ≠ .getAntennaLevel cer) → t.ctx = s.ctx)

/-! ### Sub-channel allocator -/

/-- R700, R1004, R750: an open rejected by its checks, or for want of a slot at the tuned frequency,
changes nothing but the reply. -/
def Obligations.OpenRejections : Prop :=
  ∀ (f id : Nat) (svc : ServiceType) (thr : Nat) (s : State), Ready s →
    (64 ≤ id →
      exec (.openSubch f id svc thr) s = .next (reply .control (.err .invalidSubChannelId) s))
    ∧ (id < 64 → s.hdt.alloc.framing = .individual → s.hdt.alloc.maxThrIndividual < thr →
      exec (.openSubch f id svc thr) s = .next (reply .control (.err .invalidThresholdSize) s))
    ∧ (id < 64 → (s.hdt.alloc.framing = .individual → thr ≤ s.hdt.alloc.maxThrIndividual) →
      s.ctx.mode = .isdb1seg ∨ s.ctx.mode = .fm →
      exec (.openSubch f id svc thr) s = .next (reply .control (.err .invalidMode) s))
    ∧ (OpenAdmitted s id thr → AtTunedFreq s f → registered s.ctx id = false →
      s.hdt.alloc.multiSubch = true →
      (svc ≠ .data → slotBound s.ctx 0 = true) →
      (svc = .data → ∀ k, 1 ≤ k → k ≤ s.hdt.alloc.numDataSlots → slotBound s.ctx k = true) →
      exec (.openSubch f id svc thr) s = .next (reply .control (.err .noMoreSubChannel) s))

/-- R700, R750 (P2): an open of a registered ID at the tuned frequency restores a suspended stream and
changes nothing else. -/
def Obligations.ReopenIsIdempotent : Prop :=
  ∀ (f id : Nat) (svc : ServiceType) (thr : Nat) (s : State),
    Ready s → OpenAdmitted s id thr → AtTunedFreq s f → registered s.ctx id = true →
    ∃ u, exec (.openSubch f id svc thr) s = .next u
      ∧ ctlView u = (ctlView s).after { core s.ctx with streamSuspended := false } s.ctlAnswers
          (restoreEvents s.hdt s.ctx.streamSuspended) .ok

/-- R700, R720: in a multi-sub-channel build an open of a new ID at the tuned frequency, its group not
full, binds it to the lowest free entry and its target slot. -/
def Obligations.OpenBindsNewId : Prop :=
  ∀ (f id : Nat) (svc : ServiceType) (thr : Nat) (s : State),
    Ready s → AllocInv s.hdt s.ctx → OpenAdmitted s id thr → AtTunedFreq s f →
    registered s.ctx id = false → s.hdt.alloc.multiSubch = true →
    groupFull s.hdt s.ctx (groupOf svc) = false →
    ∃ u c e slot, FirstFreeEntry s.hdt s.ctx e ∧ TargetSlot s.hdt s.ctx svc slot
      ∧ exec (.openSubch f id svc thr) s = .next u
      ∧ SameButAllocator (core s.ctx) c ∧ BoundAlso s.ctx c e ⟨id, slot, svc, thr⟩
      ∧ ctlView u = (ctlView s).after { c with streamSuspended := false } s.ctlAnswers
          (bindEvents s.hdt slot id svc thr (groupEmpty s.hdt s.ctx (groupOf svc))
            ++ restoreEvents s.hdt s.ctx.streamSuspended)
          .ok

/-- R700: in a single-sub-channel build an open of a new ID at the tuned frequency first evicts the one
existing binding, whatever its group. -/
def Obligations.OpenEvictsTheOneBinding : Prop :=
  ∀ (f id : Nat) (svc : ServiceType) (thr : Nat) (s : State),
    Ready s → AllocInv s.hdt s.ctx → OpenAdmitted s id thr → AtTunedFreq s f →
    registered s.ctx id = false → s.hdt.alloc.multiSubch = false →
    ∃ u c c0, NoBindings c0
      ∧ exec (.openSubch f id svc thr) s = .next u
      ∧ SameButAllocator (core s.ctx) c
      ∧ BoundAlso c0 c 0 ⟨id, if svc = .data then 1 else 0, svc, thr⟩
      ∧ ctlView u = (ctlView s).after { c with streamSuspended := false } s.ctlAnswers
          (closeEvents s.hdt (liveById s.ctx)
            ++ bindEvents s.hdt (if svc = .data then 1 else 0) id svc thr true
            ++ restoreEvents s.hdt s.ctx.streamSuspended)
          .ok

/-- R700, R715, R720, R630, R640: an open at another frequency closes every binding, tunes, with the ADC clock
configured first where its type changes, and binds the ID afresh. -/
def Obligations.OpenRetunes : Prop :=
  ∀ (f id : Nat) (svc : ServiceType) (thr : Nat) (s : State) (as rest : List Byte) (es : List Event)
    (clk : Option AdcClockType),
    Ready s → AllocInv s.hdt s.ctx → OpenAdmitted s id thr → ¬AtTunedFreq s f →
    Tune s.hdt s.ctx s.ctx.mode 0 f as es clk (.ok ()) → s.ctlAnswers = as ++ rest →
    ∃ u c c0, NoBindings c0
      ∧ exec (.openSubch f id svc thr) s = .next u
      ∧ SameButAllocator (core s.ctx) c
      ∧ BoundAlso c0 c 0 ⟨id, if svc = .data then 1 else 0, svc, thr⟩
      ∧ ctlView u = (ctlView s).after
          { c with streamSuspended := false, adcClk := clk, prevFreq := f, ccip := false } rest
          (closeEvents s.hdt (liveById s.ctx) ++ es
            ++ bindEvents s.hdt (if svc = .data then 1 else 0) id svc thr true
            ++ restoreEvents s.hdt s.ctx.streamSuspended)
          .ok

/-- R700, R500, R610, R621, R622, R640, R1005: an open whose re-tune fails, in any of its ways, has closed
every binding, makes none, and passes the error on; a failed lookup and an unsupported clock type keep the
previous frequency, an ADC or PLL timeout sets it to 0. -/
def Obligations.OpenRetuneFailures : Prop :=
  ∀ (f id : Nat) (svc : ServiceType) (thr : Nat) (s : State) (as rest : List Byte) (es : List Event)
    (clk : Option AdcClockType) (e : ErrorCode),
    Ready s → AllocInv s.hdt s.ctx → OpenAdmitted s id thr → ¬AtTunedFreq s f →
    Tune s.hdt s.ctx s.ctx.mode 0 f as es clk (.error e) → s.ctlAnswers = as ++ rest →
    ∃ u c, exec (.openSubch f id svc thr) s = .next u
      ∧ SameButAllocator (core s.ctx) c ∧ NoBindings c
      ∧ ctlView u = (ctlView s).after
          { c with
            adcClk := clk
            prevFreq := if e = .adcClockUnlocked ∨ e = .pllUnlocked then 0 else s.ctx.prevFreq
            ccip := false }
          rest (closeEvents s.hdt (liveById s.ctx) ++ es) (.err e)

/-- R710, R730: `CLOSE_SUBCH` rejects an ID of 64 or more, does nothing for an unregistered one, and
otherwise releases its binding, with the group's actions when the group is left empty. -/
def Obligations.CloseReleasesOneId : Prop :=
  ∀ (id : Nat) (s : State), Ready s →
    (64 ≤ id → exec (.closeSubch id) s = .next (reply .control (.err .invalidSubChannelId) s))
    ∧ (id < 64 → registered s.ctx id = false →
        exec (.closeSubch id) s = .next (reply .control .ok s))
    ∧ (id < 64 → registered s.ctx id = true → AllocInv s.hdt s.ctx →
        ∃ u c e b, entry s.ctx e = some b ∧ b.id = id
          ∧ exec (.closeSubch id) s = .next u
          ∧ SameButAllocator (core s.ctx) c ∧ Released s.ctx c e b
          ∧ ctlView u = (ctlView s).after c s.ctlAnswers
              (unbindEvents s.hdt b.slot (groupEmpty s.hdt c (groupOfSlot b.slot))) .ok)

/-- R715: `CLOSE_ALL_SUBCH` releases every binding, in ascending order of IDs. -/
def Obligations.CloseAllReleasesEveryId : Prop :=
  ∀ s : State, Ready s → AllocInv s.hdt s.ctx →
    ∃ u c, exec .closeAllSubch s = .next u
      ∧ SameButAllocator (core s.ctx) c ∧ NoBindings c
      ∧ ctlView u = (ctlView s).after c s.ctlAnswers (closeEvents s.hdt (liveById s.ctx)) .ok

/-- R740: `DISABLE_STREAM_OUT` issues the stream-off action and sets the flag, even when it is set. -/
def Obligations.StreamOffSuspends : Prop :=
  ∀ s : State, Ready s →
    ∃ u, exec .disableStreamOut s = .next u
      ∧ ctlView u = (ctlView s).after { core s.ctx with streamSuspended := true } s.ctlAnswers
          (s.hdt.alloc.streamOff.map writeEvent) .ok

/-! ### Channel scanner -/

/-- R800: a scan outside the TDMB and DAB modes records the frequency and returns `INVALID_MODE`; in
those modes every scan returns one verdict, records the frequency, leaves no binding and the flag down. After
a tune that succeeds, the verdict, `SUCCESS` or `CHANNEL_NOT_DETECTED`, is the poll's, made from the state
after the closings, the tune and the second reset with the flag still up, and the poll's port calls are the
last. -/
def Obligations.ScanRecordsFrequency : Prop :=
  ∀ (f : Nat) (s : State), Ready s →
    (s.ctx.mode = .isdb1seg ∨ s.ctx.mode = .fm →
      exec (.scanFreq f) s
        = .next (reply .control (.verdict .invalidMode) (setPrevFreq f s)))
    ∧ (s.ctx.mode = .tdmb ∨ s.ctx.mode = .dabBand3 ∨ s.ctx.mode = .dabLband →
      AllocInv s.hdt s.ctx →
      ∃ u c v, exec (.scanFreq f) s = .next u
        ∧ repliesOf .control u = repliesOf .control s ++ [.verdict v]
        ∧ SameButAllocator (core s.ctx) c ∧ NoBindings c
        ∧ core u.ctx = { c with adcClk := u.ctx.adcClk, prevFreq := f, ccip := false })
    ∧ (∀ as rest es clk, s.ctx.mode = .tdmb ∨ s.ctx.mode = .dabBand3 ∨ s.ctx.mode = .dabLband →
      AllocInv s.hdt s.ctx → Tune s.hdt s.ctx s.ctx.mode 0 f as es clk (.ok ()) →
      s.ctlAnswers = as ++ rest →
      ∃ u t c v w, SameButAllocator (core s.ctx) c ∧ NoBindings c
        ∧ ctlView t = { (ctlView s).ran (closeEvents s.hdt (liveById s.ctx) ++ es
            ++ resetEvents s.hdt s.ctx.mode) rest with
              core := { c with ccip := true, adcClk := clk } }
        ∧ scanPoll 10000 t = (v, w) ∧ (v = .success ∨ v = .channelNotDetected)
        ∧ exec (.scanFreq f) s = .next u
        ∧ ctlView u = { ctlView w with
            core := { c with adcClk := clk, prevFreq := f, ccip := false }
            replies := (ctlView s).replies ++ [.verdict v] })

/-- R800, R801: a scan whose tune fails, in any of its ways, returns the mapped verdict after closing every
binding, and issues no second reset and no poll of the scan. -/
def Obligations.ScanMapsTuneErrors : Prop :=
  ∀ (f : Nat) (s : State) (as rest : List Byte) (es : List Event) (clk : Option AdcClockType)
    (e : ErrorCode) (v : ScanVerdict),
    Ready s → AllocInv s.hdt s.ctx →
    s.ctx.mode = .tdmb ∨ s.ctx.mode = .dabBand3 ∨ s.ctx.mode = .dabLband →
    Tune s.hdt s.ctx s.ctx.mode 0 f as es clk (.error e) → s.ctlAnswers = as ++ rest →
    (e = .invalidMode ∧ v = .invalidMode ∨ e = .unsupportedAdcClock ∧ v = .invalidMode
      ∨ e = .adcClockUnlocked ∧ v = .adcClockUnlocked ∨ e = .pllUnlocked ∧ v = .pllUnlocked) →
    ∃ u c, exec (.scanFreq f) s = .next u ∧ SameButAllocator (core s.ctx) c ∧ NoBindings c
      ∧ ctlView u = (ctlView s).after { c with adcClk := clk, prevFreq := f, ccip := false } rest
          (closeEvents s.hdt (liveById s.ctx) ++ es) (.verdict v)

/-- R800 to R816: with a tune that locks, its ADC clock configured first where the type changes, a status that
turns to "signal" within 10,000 iterations and a good channel, `SCAN_FREQ` closes every binding, tunes, resets
once more, polls, classifies and answers `SUCCESS`. -/
def Obligations.ScanSucceeds : Prop :=
  ∀ (f : Nat) (s : State) (as rest : List Byte) (es : List Event) (clk : Option AdcClockType)
    (und : List Read3) (last : Read3) (tm : Fin 4) (r : ChannelReads),
    Ready s → AllocInv s.hdt s.ctx →
    s.ctx.mode = .tdmb ∨ s.ctx.mode = .dabBand3 ∨ s.ctx.mode = .dabLband →
    Tune s.hdt s.ctx s.ctx.mode 0 f as es clk (.ok ()) →
    und.length < 10000 → (∀ r ∈ und, r.h ∉ s.hdt.scan.notSignal ∧ r.h ∉ s.hdt.scan.signal) →
    last.h ∈ s.hdt.scan.signal →
    r.Good s.hdt tm (last.m.toNat * 256 + last.l.toNat) →
    s.ctlAnswers = as ++ (readBytes und ++ last.bytes ++ r.bytes ++ rest) →
    ∃ u c, exec (.scanFreq f) s = .next u ∧ SameButAllocator (core s.ctx) c ∧ NoBindings c
      ∧ ctlView u = (ctlView s).after { c with adcClk := clk, prevFreq := f, ccip := false } rest
          (closeEvents s.hdt (liveById s.ctx) ++ es ++ resetEvents s.hdt s.ctx.mode
            ++ undecidedEvents s.hdt und ++ rd24Events (scanRegs s.hdt) last
            ++ r.events s.hdt)
          (.verdict .success)

/-- R810: the outer poll goes on while the status is undecided, 40 µs after each such iteration; it ends
with `CHANNEL_NOT_DETECTED` at the first "not a signal" and after 10,000 undecided iterations, and hands
the 16-bit power read with the first "signal" to the classifier. -/
def Obligations.ScanPollDecides : Prop :=
  ∀ (s : State) (und : List Read3) (rest : List Byte),
    (∀ r ∈ und, r.h ∉ s.hdt.scan.notSignal ∧ r.h ∉ s.hdt.scan.signal) →
    (∀ last : Read3, und.length < 10000 → last.h ∈ s.hdt.scan.notSignal →
      s.ctlAnswers = readBytes und ++ last.bytes ++ rest →
      (scanPoll 10000 s).1 = .channelNotDetected
      ∧ ctlView (scanPoll 10000 s).2 = (ctlView s).ran
          (undecidedEvents s.hdt und ++ rd24Events (scanRegs s.hdt) last) rest)
    ∧ (und.length = 10000 → s.ctlAnswers = readBytes und ++ rest →
      (scanPoll 10000 s).1 = .channelNotDetected
      ∧ ctlView (scanPoll 10000 s).2 = (ctlView s).ran (undecidedEvents s.hdt und) rest)
    ∧ (∀ last : Read3, und.length < 10000 → last.h ∉ s.hdt.scan.notSignal →
      last.h ∈ s.hdt.scan.signal → s.ctlAnswers = readBytes und ++ last.bytes ++ rest →
      ∃ t, scanPoll 10000 s = classify (last.m.toNat * 256 + last.l.toNat) t
        ∧ ctlView t = (ctlView s).ran
            (undecidedEvents s.hdt und ++ rd24Events (scanRegs s.hdt) last) rest)

/-- R811, R812: a coarse frequency inside the exclusion band, a power or gain below its threshold, or a
gain of 0 ends the classification after its four reads. -/
def Obligations.PreGateRejects : Prop :=
  ∀ (pw : Nat) (s : State) (tm : Fin 4) (r : GateReads) (rest : List Byte),
    field2 s.hdt.scan.txmode.lo r.tm = tm → s.ctlAnswers = r.bytes ++ rest →
    ((scanThr s.hdt tm).cfLo ≤ r.cfH.toNat * 256 + r.cfL.toNat
        ∧ r.cfH.toNat * 256 + r.cfL.toNat ≤ (scanThr s.hdt tm).cfHi
      ∨ pw < (scanThr s.hdt tm).power
      ∨ r.gain.toNat < (scanThr s.hdt tm).gain ∨ r.gain.toNat = 0) →
    (classify pw s).1 = .channelNotDetected
    ∧ ctlView (classify pw s).2 = (ctlView s).ran (r.events s.hdt) rest

/-- R811 to R816: a good channel is accepted at its first OFDM lock, with the classifier's reads and delays
in order. -/
def Obligations.ClassifyAcceptsGoodChannel : Prop :=
  ∀ (pw : Nat) (s : State) (tm : Fin 4) (r : ChannelReads) (rest : List Byte),
    r.Good s.hdt tm pw → s.ctlAnswers = r.bytes ++ rest →
    (classify pw s).1 = .success
    ∧ ctlView (classify pw s).2 = (ctlView s).ran (r.events s.hdt) rest

/-- R813 to R816. Past the pre-gate, phase f rejects a changed transmission mode at any iteration and, at
iterations 14 and 15, more than 10 out-of-range null lengths while the gain is low; otherwise it hands their
number to phase g after 15 iterations. An iteration of phase g, after any that go on, rejects a changed mode,
a DC offset outside its window while the gain is not high, and the unlock observation that brings their count
to the limit, whether or not the DC check was made; 100 iterations without a coarse count above 1 reject, and
so do 50 polls without an OFDM lock after one. The limit is the transmission mode's tight one from
`NL_MARGINAL` out-of-range null lengths on, else 9 (log 8). -/
def Obligations.PhasesFAndGReject : Prop :=
  (∀ (pw : Nat) (s : State) (tm : Fin 4) (r : GateReads) (nulls : List Read3) (rest : List Byte),
    r.Pass s.hdt tm pw → Stable s.hdt tm nulls →
    (∀ x : Read3, nulls.length ≤ 14 →
      (nulls.length = 14 → ¬TooMany s.hdt tm r.gain.toNat nulls) →
      field2 s.hdt.scan.txmode.lo x.l ≠ tm →
      s.ctlAnswers = r.bytes ++ readBytes (nulls ++ [x]) ++ rest →
      (classify pw s).1 = .channelNotDetected
      ∧ ctlView (classify pw s).2
          = (ctlView s).ran (r.events s.hdt ++ nullEvents s.hdt (nulls ++ [x])) rest)
    ∧ (TooMany s.hdt tm r.gain.toNat nulls →
      nulls.length = 14
        ∨ nulls.length = 15 ∧ ¬TooMany s.hdt tm r.gain.toNat (nulls.take 14) →
      s.ctlAnswers = r.bytes ++ readBytes nulls ++ rest →
      (classify pw s).1 = .channelNotDetected
      ∧ ctlView (classify pw s).2 = (ctlView s).ran (r.events s.hdt ++ nullEvents s.hdt nulls) rest)
    ∧ (nulls.length = 15 → ¬TooMany s.hdt tm r.gain.toNat (nulls.take 14) →
      ¬TooMany s.hdt tm r.gain.toNat nulls →
      s.ctlAnswers = r.bytes ++ readBytes nulls ++ rest →
      ∃ t, classify pw s
          = phaseG tm r.gain.toNat (phaseGLimit s.hdt tm (outOfRange s.hdt tm nulls)) 100 0 t
        ∧ ctlView t = (ctlView s).ran (r.events s.hdt ++ nullEvents s.hdt nulls) rest))
  ∧ (∀ (tm : Fin 4) (g limit n unl : Nat) (s : State) (its : List StateReads) (rest : List Byte),
    (∀ x ∈ its, x.Pass s.hdt tm g ∧ x.count.toNat ≤ 1) →
    unlocks s.hdt its = 0 ∨ unl + unlocks s.hdt its < limit →
    (∀ tx : Byte, field2 s.hdt.scan.txmode.lo tx ≠ tm →
      s.ctlAnswers = its.flatMap StateReads.bytes ++ tx :: rest →
      ∃ t, phaseG tm g limit (its.length + (n + 1)) unl s = (.channelNotDetected, t)
        ∧ ctlView t = (ctlView s).ran
            (its.flatMap (StateReads.events s.hdt) ++ [.dlyMs 10, .rd s.hdt.scan.txmode.reg tx])
            rest)
    ∧ (∀ tx ih il qh ql : Byte, field2 s.hdt.scan.txmode.lo tx = tm →
        g < (scanThr s.hdt tm).dcGainHigh →
        ¬InWindow (ih.toNat * 256 + il.toNat) ∨ ¬InWindow (qh.toNat * 256 + ql.toNat) →
        s.ctlAnswers = its.flatMap StateReads.bytes ++ tx :: ih :: il :: qh :: ql :: rest →
        ∃ t, phaseG tm g limit (its.length + (n + 1)) unl s = (.channelNotDetected, t)
          ∧ ctlView t = (ctlView s).ran
              (its.flatMap (StateReads.events s.hdt)
                ++ [.dlyMs 10, .rd s.hdt.scan.txmode.reg tx]
                ++ dcEvents s.hdt [ih, il, qh, ql])
              rest)
    ∧ (∀ (tx st : Byte) (dc : List Byte), field2 s.hdt.scan.txmode.lo tx = tm →
        DcPasses s.hdt tm g dc → st ∈ s.hdt.scan.fsmUnlock →
        limit ≤ unl + unlocks s.hdt its + 1 →
        s.ctlAnswers = its.flatMap StateReads.bytes ++ tx :: (dc ++ st :: rest) →
        ∃ t, phaseG tm g limit (its.length + (n + 1)) unl s = (.channelNotDetected, t)
          ∧ ctlView t = (ctlView s).ran
              (its.flatMap (StateReads.events s.hdt)
                ++ ([.dlyMs 10, .rd s.hdt.scan.txmode.reg tx] ++ dcEvents s.hdt dc
                  ++ [.rd s.hdt.scan.fsmStateReg st]))
              rest)
    ∧ (s.ctlAnswers = its.flatMap StateReads.bytes ++ rest →
        ∃ t, phaseG tm g limit its.length unl s = (.channelNotDetected, t)
          ∧ ctlView t = (ctlView s).ran (its.flatMap (StateReads.events s.hdt)) rest)
    ∧ (∀ (x : StateReads) (polls : List Byte), x.Pass s.hdt tm g → 1 < x.count.toNat →
        unlocks s.hdt [x] = 0 ∨ unl + unlocks s.hdt (its ++ [x]) < limit →
        polls.length = 50 → AllClear (ofdmLockBit s.hdt) polls →
        s.ctlAnswers = (its ++ [x]).flatMap StateReads.bytes ++ polls ++ rest →
        ∃ t, phaseG tm g limit (its.length + (n + 1)) unl s = (.channelNotDetected, t)
          ∧ ctlView t = (ctlView s).ran
              ((its ++ [x]).flatMap (StateReads.events s.hdt) ++ lockWaitEvents s.hdt polls) rest))
  ∧ ∀ (h : Hdt) (tm : Fin 4) (bad : Nat),
      ((scanThr h tm).nlMarginal ≤ bad →
        phaseGLimit h tm bad = h.scan.thresholds[tm].unlockLimitTight)
      ∧ (bad < (scanThr h tm).nlMarginal → phaseGLimit h tm bad = 9)

/-- R816, R817: whatever the oracle and the getters do, a `SCAN_FREQ` that answers `SUCCESS` has, as its last
port call, read the OFDM-lock bit set. -/
def Obligations.SuccessNeedsOfdmLock : Prop :=
  ∀ (f : Nat) (s t : State), exec (.scanFreq f) s = .next t →
    repliesOf .control t = repliesOf .control s ++ [.verdict .success] →
    ∃ es b, eventsOf .control t
        = eventsOf .control s ++ es ++ [.rd (ofdmLockBit s.hdt).reg b]
      ∧ bitOf (ofdmLockBit s.hdt).pos b = true

/-- R818, R1130: whatever the oracle answers, the poll with its classification issues no write, at most
10,000 delays of 40 µs and 165 of 10 ms, and requests at most 2.05 s. -/
def Obligations.ScanBudget : Prop :=
  ∀ (s t : State) (v : ScanVerdict), scanPoll scanPolls s = (v, t) →
    ∃ es, eventsOf .control t = eventsOf .control s ++ es
      ∧ es.countP isWrite = 0
      ∧ es.countP (isDelayUs 40) ≤ 10000 ∧ es.countP (isDelayMs 10) ≤ 165
      ∧ requestedUs es ≤ 2050000

/-! ### Signal-quality estimator -/

/-- R901: under the flag every getter returns its sentinel, with no port call and no context write. -/
def Obligations.GettersUnderFlag : Prop :=
  ∀ s : State, Ready s → s.getter = none → s.ctx.ccip = true →
    exec .getLockStatus s = .next (reply .getter (.value 0) s)
    ∧ exec .getPer s = .next (reply .getter (.value 700) s)
    ∧ exec .getRssi s = .next (reply .getter (.value 0) s)
    ∧ exec .getCnr s = .next (reply .getter (.value 0) s)
    ∧ exec .getBer s = .next (reply .getter (.value 2000) s)
    ∧ exec .getCer s = .next (reply .getter (.value 2000) s)
    ∧ ∀ cer, exec (.getAntennaLevel cer) s = .next (reply .getter (.value 0) s)

/-- R900, R910, R920: the lock status, the PER and the RSSI of the bytes read. -/
def Obligations.LockPerRssiResults : Prop :=
  ∀ (s : State) (x y : Byte) (rest : List Byte),
    Ready s → s.getter = none → s.ctx.ccip = false →
    (s.getAnswers = x :: y :: rest →
      exec .getLockStatus s = .next (getterAfter s rest
        [.rd (ofdmLockBit s.hdt).reg x, .rd (fecSyncReg s.hdt) y]
        ((if bitOf (ofdmLockBit s.hdt).pos x then 1 else 0)
          + (if y.toNat / 2 ^ s.hdt.quality.fecSyncLo.val % 4 = 3 then 2 else 0)))
      ∧ exec .getRssi s = .next (getterAfter s rest
          [.rd s.hdt.quality.agcReg x, .rd s.hdt.quality.bbgainReg y]
          (rssiFn s.hdt (field2 s.hdt.quality.lnaLo x)
            (x.toNat / 2 ^ s.hdt.quality.rfagcLo.val % 16) y.toNat)))
    ∧ (bitOf s.hdt.quality.rsSyncBit.pos x = false → s.getAnswers = x :: rest →
      exec .getPer s = .next (getterAfter s rest [.rd s.hdt.quality.rsSyncBit.reg x] 700))
    ∧ (∀ l, bitOf s.hdt.quality.rsSyncBit.pos x = true → s.getAnswers = x :: y :: l :: rest →
      exec .getPer s = .next (getterAfter s rest
        [.rd s.hdt.quality.rsSyncBit.reg x, .rd s.hdt.quality.perCnt.h y,
          .rd s.hdt.quality.perCnt.l l] ((y.toNat * 256 + l.toNat : Nat) : Int)))

/-- R328, R930, R970: the CNR of the 13-bit accumulator, and that it never rises with a raw value of
15..160. -/
def Obligations.CnrResult : Prop :=
  (∀ (s : State) (x y : Byte) (rest : List Byte) (raw v : Nat),
    Ready s → s.getter = none → s.ctx.ccip = false → s.getAnswers = x :: y :: rest →
    raw = x.toNat % 32 * 256 + y.toNat →
    (raw = 0 ∧ v = 0 ∨ 1 ≤ raw ∧ raw ≤ 14 ∧ v = s.hdt.quality.cnrLowConst
      ∨ (∃ h : raw - 15 < 146, 15 ≤ raw ∧ v = s.hdt.quality.cnrLut[raw - 15])
      ∨ 160 < raw ∧ v = s.hdt.quality.cnrFloor) →
    exec .getCnr s = .next (getterAfter s rest
      (s.hdt.quality.cnrTrigger.map writeEvent
        ++ [.rd s.hdt.quality.cnrAcc.h x, .rd s.hdt.quality.cnrAcc.l y]) v))
  ∧ (∀ (h : Hdt) (i j : Nat), hdtOk h = true → 15 ≤ i → i ≤ j → j ≤ 160 →
      cnrValue h j ≤ cnrValue h i)

/-- R940, R950, R970: the BER and the CER of the counters read, and their sentinels. -/
def Obligations.BerCerResults : Prop :=
  ∀ (s : State) (x : Byte) (rest : List Byte),
    Ready s → s.getter = none → s.ctx.ccip = false →
    (bitOf s.hdt.quality.rsSyncBit.pos x = false → s.getAnswers = x :: rest →
      exec .getBer s = .next (getterAfter s rest [.rd s.hdt.quality.rsSyncBit.reg x] 2000))
    ∧ (∀ e t : Read3, bitOf s.hdt.quality.rsSyncBit.pos x = true →
      s.getAnswers = x :: (e.bytes ++ t.bytes ++ rest) →
      exec .getBer s = .next (getterAfter s rest
        (.rd s.hdt.quality.rsSyncBit.reg x :: (rd24Events s.hdt.quality.berErr e
          ++ rd24Events s.hdt.quality.berTot t))
        ((if t.value = 0 then 2000
          else if s.hdt.quality.arith = .exact then e.value * s.hdt.quality.berScale / t.value
          else e.value * s.hdt.quality.berScale % 2 ^ 32 / t.value : Nat) : Int)))
    ∧ (bitOf s.hdt.quality.cerLockBit.pos x = false → s.getAnswers = x :: rest →
      exec .getCer s = .next (getterAfter s rest [.rd s.hdt.quality.cerLockBit.reg x] 2000))
    ∧ (∀ (p3 p2 p1 p0 e3 e2 e1 e0 : Byte) (p e c : Nat),
      bitOf s.hdt.quality.cerLockBit.pos x = true →
      s.getAnswers = x :: p3 :: p2 :: p1 :: p0 :: e3 :: e2 :: e1 :: e0 :: rest →
      p = ((p3.toNat * 256 + p2.toNat) * 256 + p1.toNat) * 256 + p0.toNat →
      e = ((e3.toNat * 256 + e2.toNat) * 256 + e1.toNat) * 256 + e0.toNat →
      c = (if s.hdt.quality.arith = .exact then e * 1000 / p * 10
            else e * 1000 % 2 ^ 32 / p * 10 % 2 ^ 32) →
      exec .getCer s = .next (getterAfter s rest
        [.rd s.hdt.quality.cerLockBit.reg x, .rd s.hdt.quality.cerPeriod.r3 p3,
          .rd s.hdt.quality.cerPeriod.r2 p2, .rd s.hdt.quality.cerPeriod.r1 p1,
          .rd s.hdt.quality.cerPeriod.r0 p0, .rd s.hdt.quality.cerErr.r3 e3,
          .rd s.hdt.quality.cerErr.r2 e2, .rd s.hdt.quality.cerErr.r1 e1,
          .rd s.hdt.quality.cerErr.r0 e0]
        ((if p ≤ 4000 then 0 else if 1200 < c then 2000 else c : Nat) : Int)))

/-- R960, R970: `GET_ANTENNA_LEVEL` returns 0 and keeps the level for the sentinel 2000; otherwise it
moves the level one step at most toward the raw level of the table, stores it and returns it. R226: made one
move at a time, it reads the level in one move and writes in a later one, from the level read, whatever the
level is then (that these are moves of the getter agent is the model's choice, log 4). -/
def Obligations.AntennaLevelMovesOneStep : Prop :=
  ∀ (s : State) (cer raw prev lvl : Nat),
    raw = (if 810 ≤ cer then 0 else if 700 ≤ cer then 1 else if 490 ≤ cer then 2
      else if 400 ≤ cer then 3 else if 250 ≤ cer then 4 else if 180 ≤ cer then 5 else 6) →
    (prev < raw ∧ lvl = prev + 1 ∨ raw < prev ∧ lvl = prev - 1 ∨ raw = prev ∧ lvl = prev) →
    (Ready s → s.getter = none → s.ctx.ccip = false →
      (cer = 2000 → exec (.getAntennaLevel cer) s = .next (reply .getter (.value 0) s))
      ∧ (cer ≠ 2000 → prev = s.ctx.antLevel →
        exec (.getAntennaLevel cer) s
          = .next (reply .getter (.value lvl) { s with ctx := { s.ctx with antLevel := lvl } })))
    ∧ (cer ≠ 2000 → s.getter = some ⟨.antennaLevel cer, [], none⟩ →
        getterMove s = { s with getter := some ⟨.antennaLevel cer, [], some s.ctx.antLevel⟩ })
    ∧ (cer ≠ 2000 → s.getter = some ⟨.antennaLevel cer, [], some prev⟩ →
        getterMove s = reply .getter (.value lvl)
          { s with getter := none, ctx := { s.ctx with antLevel := lvl } })

/-! ### The two agents -/

/-- R222, R901: a getter operation made one move at a time ends in the state of the operation run at once;
so does a getter command that the getter agent takes from the host's bytes while a control operation runs,
and under the flag its first move answers the sentinel. R402: while no session is open the move refuses it,
with no port call and nothing of `S` written. That the moves take the command at the front of the bytes, and
that the refusal is left pending, is the model's choice (log 4). -/
def Obligations.GetterMovesRefineOperation : Prop :=
  (∀ (c : GetterCmd) (s : State), s.getter = none →
    ∃ n, getterMoves n (startGetter c s) = getterOp c s)
  ∧ ∀ (i : Instr) (c : GetterCmd) (s : State) (rest : List Byte),
      s.getter = none → decode s.inbox = .ok (i, rest) → getterCmd i = some c →
      (s.ctx.initialized = true →
        (∃ n, getterMoves (n + 1) s = getterOp c { s with inbox := rest })
        ∧ (s.ctx.ccip = true →
            getterMove s = reply .getter (.value (sentinel c)) { s with inbox := rest }))
      ∧ (s.ctx.initialized = false → getterMove s = { s with getterRefused := true })

/-- R204, R222, R819: a control command whose reads are all scripted ends the same for the control agent
whatever the getter agent does: with equal views before, the outcomes are equal and so are the views
after. -/
def Obligations.ControlOutcomeIgnoresGetters : Prop :=
  ∀ (i : Instr) (s s' : State), agentOf i = .control → ctlView s = ctlView s' →
    40000 ≤ s.ctlAnswers.length →
    match exec i s, exec i s' with
    | .next t, .next t' => ctlView t = ctlView t'
    | .fault x, .fault x' => x = x'
    | .refused r, .refused r' => r = r'
    | _, _ => False
end

