-- ==== Sys2Proof/Laws/State.lean ====
section
/-! SUPPORT. One lemma per field of State for each of its plain updates, so that no proof unfolds an
update. -/

namespace Sys2Proof.Machine

@[simp] theorem record_hdt (a : Agent) (e : Event) (s : State) :
    (record a e s).hdt = s.hdt := rfl
@[simp] theorem record_ctx (a : Agent) (e : Event) (s : State) :
    (record a e s).ctx = s.ctx := rfl
@[simp] theorem record_getter (a : Agent) (e : Event) (s : State) :
    (record a e s).getter = s.getter := rfl
@[simp] theorem record_inbox (a : Agent) (e : Event) (s : State) :
    (record a e s).inbox = s.inbox := rfl
@[simp] theorem record_sched (a : Agent) (e : Event) (s : State) :
    (record a e s).sched = s.sched := rfl
@[simp] theorem record_ctlAnswers (a : Agent) (e : Event) (s : State) :
    (record a e s).ctlAnswers = s.ctlAnswers := rfl
@[simp] theorem record_getAnswers (a : Agent) (e : Event) (s : State) :
    (record a e s).getAnswers = s.getAnswers := rfl
@[simp] theorem record_trace (a : Agent) (e : Event) (s : State) :
    (record a e s).trace = s.trace ++ [⟨a, e⟩] := rfl
@[simp] theorem record_getterRefused (a : Agent) (e : Event) (s : State) :
    (record a e s).getterRefused = s.getterRefused := rfl
@[simp] theorem record_replies (a : Agent) (e : Event) (s : State) :
    (record a e s).replies = s.replies := rfl

@[simp] theorem reply_hdt (a : Agent) (r : Reply) (s : State) :
    (reply a r s).hdt = s.hdt := rfl
@[simp] theorem reply_ctx (a : Agent) (r : Reply) (s : State) :
    (reply a r s).ctx = s.ctx := rfl
@[simp] theorem reply_getter (a : Agent) (r : Reply) (s : State) :
    (reply a r s).getter = s.getter := rfl
@[simp] theorem reply_inbox (a : Agent) (r : Reply) (s : State) :
    (reply a r s).inbox = s.inbox := rfl
@[simp] theorem reply_sched (a : Agent) (r : Reply) (s : State) :
    (reply a r s).sched = s.sched := rfl
@[simp] theorem reply_ctlAnswers (a : Agent) (r : Reply) (s : State) :
    (reply a r s).ctlAnswers = s.ctlAnswers := rfl
@[simp] theorem reply_getAnswers (a : Agent) (r : Reply) (s : State) :
    (reply a r s).getAnswers = s.getAnswers := rfl
@[simp] theorem reply_trace (a : Agent) (r : Reply) (s : State) :
    (reply a r s).trace = s.trace := rfl
@[simp] theorem reply_getterRefused (a : Agent) (r : Reply) (s : State) :
    (reply a r s).getterRefused = s.getterRefused := rfl
@[simp] theorem reply_replies (a : Agent) (r : Reply) (s : State) :
    (reply a r s).replies = s.replies ++ [⟨a, r⟩] := rfl

@[simp] theorem setAdcClk_hdt (v : Option AdcClockType) (s : State) :
    (setAdcClk v s).hdt = s.hdt := rfl
@[simp] theorem setAdcClk_ctx (v : Option AdcClockType) (s : State) :
    (setAdcClk v s).ctx = { s.ctx with adcClk := v } := rfl
@[simp] theorem setAdcClk_getter (v : Option AdcClockType) (s : State) :
    (setAdcClk v s).getter = s.getter := rfl
@[simp] theorem setAdcClk_inbox (v : Option AdcClockType) (s : State) :
    (setAdcClk v s).inbox = s.inbox := rfl
@[simp] theorem setAdcClk_sched (v : Option AdcClockType) (s : State) :
    (setAdcClk v s).sched = s.sched := rfl
@[simp] theorem setAdcClk_ctlAnswers (v : Option AdcClockType) (s : State) :
    (setAdcClk v s).ctlAnswers = s.ctlAnswers := rfl
@[simp] theorem setAdcClk_getAnswers (v : Option AdcClockType) (s : State) :
    (setAdcClk v s).getAnswers = s.getAnswers := rfl
@[simp] theorem setAdcClk_trace (v : Option AdcClockType) (s : State) :
    (setAdcClk v s).trace = s.trace := rfl
@[simp] theorem setAdcClk_getterRefused (v : Option AdcClockType) (s : State) :
    (setAdcClk v s).getterRefused = s.getterRefused := rfl
@[simp] theorem setAdcClk_replies (v : Option AdcClockType) (s : State) :
    (setAdcClk v s).replies = s.replies := rfl

@[simp] theorem setPrevFreq_hdt (v : Nat) (s : State) :
    (setPrevFreq v s).hdt = s.hdt := rfl
@[simp] theorem setPrevFreq_ctx (v : Nat) (s : State) :
    (setPrevFreq v s).ctx = { s.ctx with prevFreq := v } := rfl
@[simp] theorem setPrevFreq_getter (v : Nat) (s : State) :
    (setPrevFreq v s).getter = s.getter := rfl
@[simp] theorem setPrevFreq_inbox (v : Nat) (s : State) :
    (setPrevFreq v s).inbox = s.inbox := rfl
@[simp] theorem setPrevFreq_sched (v : Nat) (s : State) :
    (setPrevFreq v s).sched = s.sched := rfl
@[simp] theorem setPrevFreq_ctlAnswers (v : Nat) (s : State) :
    (setPrevFreq v s).ctlAnswers = s.ctlAnswers := rfl
@[simp] theorem setPrevFreq_getAnswers (v : Nat) (s : State) :
    (setPrevFreq v s).getAnswers = s.getAnswers := rfl
@[simp] theorem setPrevFreq_trace (v : Nat) (s : State) :
    (setPrevFreq v s).trace = s.trace := rfl
@[simp] theorem setPrevFreq_getterRefused (v : Nat) (s : State) :
    (setPrevFreq v s).getterRefused = s.getterRefused := rfl
@[simp] theorem setPrevFreq_replies (v : Nat) (s : State) :
    (setPrevFreq v s).replies = s.replies := rfl

@[simp] theorem setInitialized_hdt (s : State) :
    (setInitialized s).hdt = s.hdt := rfl
@[simp] theorem setInitialized_ctx (s : State) :
    (setInitialized s).ctx = { s.ctx with initialized := true } := rfl
@[simp] theorem setInitialized_getter (s : State) :
    (setInitialized s).getter = s.getter := rfl
@[simp] theorem setInitialized_inbox (s : State) :
    (setInitialized s).inbox = s.inbox := rfl
@[simp] theorem setInitialized_sched (s : State) :
    (setInitialized s).sched = s.sched := rfl
@[simp] theorem setInitialized_ctlAnswers (s : State) :
    (setInitialized s).ctlAnswers = s.ctlAnswers := rfl
@[simp] theorem setInitialized_getAnswers (s : State) :
    (setInitialized s).getAnswers = s.getAnswers := rfl
@[simp] theorem setInitialized_trace (s : State) :
    (setInitialized s).trace = s.trace := rfl
@[simp] theorem setInitialized_getterRefused (s : State) :
    (setInitialized s).getterRefused = s.getterRefused := rfl
@[simp] theorem setInitialized_replies (s : State) :
    (setInitialized s).replies = s.replies := rfl

@[simp] theorem refuseGetter_hdt (s : State) : (refuseGetter s).hdt = s.hdt := rfl
@[simp] theorem refuseGetter_ctx (s : State) : (refuseGetter s).ctx = s.ctx := rfl
@[simp] theorem refuseGetter_getter (s : State) : (refuseGetter s).getter = s.getter := rfl
@[simp] theorem refuseGetter_inbox (s : State) : (refuseGetter s).inbox = s.inbox := rfl
@[simp] theorem refuseGetter_sched (s : State) : (refuseGetter s).sched = s.sched := rfl
@[simp] theorem refuseGetter_ctlAnswers (s : State) : (refuseGetter s).ctlAnswers = s.ctlAnswers := rfl
@[simp] theorem refuseGetter_getAnswers (s : State) : (refuseGetter s).getAnswers = s.getAnswers := rfl
@[simp] theorem refuseGetter_trace (s : State) : (refuseGetter s).trace = s.trace := rfl
@[simp] theorem refuseGetter_replies (s : State) : (refuseGetter s).replies = s.replies := rfl
@[simp] theorem refuseGetter_getterRefused (s : State) :
    (refuseGetter s).getterRefused = true := rfl

end Sys2Proof.Machine
end

