-- ==== Sys2Proof/Laws/View.lean ====
section
/-! SUPPORT. What the getter agent's moves and the control agent's port calls do to the control agent's
view of a state (`ctlView`): the getter agent's moves nothing, a port call exactly its event and, for a
read, one scripted answer. -/

namespace Sys2Proof.Machine

/-! ### Replies and events, agent by agent -/

@[simp] theorem eventsOf_record_same (a : Agent) (e : Event) (s : State) :
    eventsOf a (record a e s) = eventsOf a s ++ [e] := by
  simp [eventsOf]

theorem eventsOf_record_other {a b : Agent} (h : b ≠ a) (e : Event) (s : State) :
    eventsOf a (record b e s) = eventsOf a s := by
  simp [eventsOf, h]

@[simp] theorem repliesOf_reply_same (a : Agent) (r : Reply) (s : State) :
    repliesOf a (reply a r s) = repliesOf a s ++ [r] := by
  simp [repliesOf]

theorem repliesOf_reply_other {a b : Agent} (h : b ≠ a) (r : Reply) (s : State) :
    repliesOf a (reply b r s) = repliesOf a s := by
  simp [repliesOf, h]

/-! ### The getter agent's moves -/

/-- A port call of the getter agent changes nothing of the control agent's view. -/
@[simp] theorem ctlView_perform_getter (op : PortOp) (s : State) :
    ctlView (perform .getter op s).2 = ctlView s := by
  cases op with
  | rd r =>
    cases h : s.getAnswers <;>
      simp [perform, oracle, h, ctlView, eventsOf, repliesOf]
  | _ => simp [perform, ctlView, eventsOf, repliesOf]

@[simp] theorem ctlView_reply_getter (r : Reply) (s : State) :
    ctlView (reply .getter r s) = ctlView s := by
  simp [ctlView, eventsOf, repliesOf]

@[simp] theorem ctlView_storeLevel (raw prev : Nat) (s : State) :
    ctlView (storeLevel raw prev s) = ctlView s := by
  simp [storeLevel, ctlView, core, eventsOf, repliesOf]

/-- Running a getter program changes nothing of the control agent's view. -/
@[simp] theorem ctlView_runProg (prev : Option Nat) (p : GetterProg) (s : State) :
    ctlView (runProg prev p s) = ctlView s := by
  induction p generalizing s with
  | ret v => simp [runProg]
  | level raw => simp [runProg]
  | call op k ih => simp [runProg, ih]

@[simp] theorem ctlView_getter (g : Option GetterRun) (s : State) :
    ctlView { s with getter := g } = ctlView s := rfl

@[simp] theorem ctlView_inbox (bs : List Byte) (s : State) :
    ctlView { s with inbox := bs } = ctlView s := rfl

@[simp] theorem ctlView_sched (ns : List Nat) (s : State) :
    ctlView { s with sched := ns } = ctlView s := rfl

@[simp] theorem ctlView_advanceGetter (g : GetterRun) (s : State) :
    ctlView (advanceGetter g s) = ctlView s := by
  unfold advanceGetter
  split <;> simp

@[simp] theorem ctlView_startGetter (c : GetterCmd) (s : State) :
    ctlView (startGetter c s) = ctlView s := by
  unfold startGetter
  split <;> simp

/-- A move of the getter agent changes nothing of the control agent's view. -/
@[simp] theorem ctlView_getterMove (s : State) : ctlView (getterMove s) = ctlView s := by
  unfold getterMove
  split
  · simp
  · split
    · split
      · simp
      · rfl
    · rfl

@[simp] theorem ctlView_getterMoves (n : Nat) (s : State) :
    ctlView (getterMoves n s) = ctlView s := by
  induction n generalizing s with
  | zero => rfl
  | succ n ih => simp [getterMoves, ih]

/-- An interleaving point changes nothing of the control agent's view (R222). -/
@[simp] theorem ctlView_interleave (s : State) : ctlView (interleave s) = ctlView s := by
  unfold interleave
  split <;> simp

@[simp] theorem ctlView_finishGetter (s : State) : ctlView (finishGetter s) = ctlView s := by
  unfold finishGetter
  split <;> simp

@[simp] theorem ctlView_getterOp (c : GetterCmd) (s : State) :
    ctlView (getterOp c s) = ctlView s := by
  unfold getterOp
  split <;> simp

/-! ### The parts of a view -/

theorem hdt_of_ctlView {s t : State} (h : ctlView s = ctlView t) : s.hdt = t.hdt :=
  congrArg CtlView.hdt h

theorem core_of_ctlView {s t : State} (h : ctlView s = ctlView t) : core s.ctx = core t.ctx :=
  congrArg CtlView.core h

theorem answers_of_ctlView {s t : State} (h : ctlView s = ctlView t) :
    s.ctlAnswers = t.ctlAnswers :=
  congrArg CtlView.answers h

theorem events_of_ctlView {s t : State} (h : ctlView s = ctlView t) :
    eventsOf .control s = eventsOf .control t :=
  congrArg CtlView.events h

theorem replies_of_ctlView {s t : State} (h : ctlView s = ctlView t) :
    repliesOf .control s = repliesOf .control t :=
  congrArg CtlView.replies h

@[simp] theorem interleave_hdt (s : State) : (interleave s).hdt = s.hdt :=
  hdt_of_ctlView (ctlView_interleave s)

@[simp] theorem interleave_core (s : State) : core (interleave s).ctx = core s.ctx :=
  core_of_ctlView (ctlView_interleave s)

@[simp] theorem interleave_ctlAnswers (s : State) : (interleave s).ctlAnswers = s.ctlAnswers :=
  answers_of_ctlView (ctlView_interleave s)

/-! ### The control agent's port calls -/

/-- A view after one more event. -/
def CtlView.addEvent (e : Event) (v : CtlView) : CtlView := { v with events := v.events ++ [e] }

/-- A view after more events. -/
def CtlView.addEvents (es : List Event) (v : CtlView) : CtlView :=
  { v with events := v.events ++ es }

theorem ctlView_record_control (e : Event) (s : State) :
    ctlView (record .control e s) = (ctlView s).addEvent e := by
  simp [ctlView, CtlView.addEvent, repliesOf]

/-- A read with a scripted answer takes that answer. -/
theorem rd_scripted (r : Reg) (s : State) {b : Byte} {bs : List Byte}
    (h : s.ctlAnswers = b :: bs) :
    (rd r s).1 = b ∧
      ctlView (rd r s).2 = { (ctlView s).addEvent (.rd r b) with answers := bs } := by
  have h' : (interleave s).ctlAnswers = b :: bs := by simpa using h
  have hv := ctlView_interleave s
  refine ⟨by simp [rd, call, perform, oracle, h], ?_⟩
  simp only [rd, call, perform, oracle, h', ctlView_record_control, ← hv]
  simp [ctlView, CtlView.addEvent, eventsOf, repliesOf]

theorem ctlView_wr (r : Reg) (v : Byte) (s : State) :
    ctlView (wr r v s) = (ctlView s).addEvent (.wr r v) := by
  simp [wr, call, perform, ctlView_record_control]

theorem ctlView_wrM (r : Reg) (m v : Byte) (s : State) :
    ctlView (wrM r m v s) = (ctlView s).addEvent (.wrM r m v) := by
  simp [wrM, call, perform, ctlView_record_control]

theorem ctlView_delayMs (n : Nat) (s : State) :
    ctlView (delayMs n s) = (ctlView s).addEvent (.dlyMs n) := by
  simp [delayMs, call, perform, ctlView_record_control]

theorem ctlView_delayUs (n : Nat) (s : State) :
    ctlView (delayUs n s) = (ctlView s).addEvent (.dlyUs n) := by
  simp [delayUs, call, perform, ctlView_record_control]

/-- `Do(A)` adds the action's writes to the events, in list order, and nothing else. -/
theorem ctlView_doAction (as : Action) (s : State) :
    ctlView (doAction as s) = (ctlView s).addEvents (as.map writeEvent) := by
  induction as generalizing s with
  | nil => simp [doAction, CtlView.addEvents]
  | cons w ws ih =>
    cases w <;>
      simp [doAction, ih, call, writeOp, perform, ctlView_record_control, CtlView.addEvents,
        CtlView.addEvent, writeEvent]

theorem ctlView_setCcip (v : Bool) (s : State) :
    ctlView (setCcip v s) = { ctlView s with core := { core s.ctx with ccip := v } } := by
  have h : ctlView (setCcip v s) =
      { ctlView (interleave s) with core := { core (interleave s).ctx with ccip := v } } := rfl
  rw [h, ctlView_interleave, interleave_core]

end Sys2Proof.Machine
end

