-- ==== Sys2Proof/Laws/Scripted.lean ====
section
/-! SUPPORT. What the shared operations do, as equations of the control agent's view, when a test double
fixes the answers of their reads (spec/20_memory.md R204): the polls, the ADC tuple, the PLL programming,
its read-back, and a whole tune. -/

namespace Sys2Proof.Machine

/-! ### A view after events and reads -/

@[simp] theorem CtlView.ran_ran (v : CtlView) (es fs : List Event) (as bs : List Byte) :
    (v.ran es as).ran fs bs = v.ran (es ++ fs) bs := by
  simp [CtlView.ran]

@[simp] theorem CtlView.ran_answers (v : CtlView) (es : List Event) (as : List Byte) :
    (v.ran es as).answers = as := rfl

@[simp] theorem CtlView.ran_hdt (v : CtlView) (es : List Event) (as : List Byte) :
    (v.ran es as).hdt = v.hdt := rfl

@[simp] theorem CtlView.ran_core (v : CtlView) (es : List Event) (as : List Byte) :
    (v.ran es as).core = v.core := rfl

theorem ctlView_hdt (s : State) : (ctlView s).hdt = s.hdt := rfl

theorem ctlView_answers (s : State) : (ctlView s).answers = s.ctlAnswers := rfl

theorem ctlView_core (s : State) : (ctlView s).core = core s.ctx := rfl

/-- A state whose view is known has the view's HDT. -/
theorem hdt_of_ran {s t : State} {es : List Event} {as : List Byte}
    (h : ctlView t = (ctlView s).ran es as) : t.hdt = s.hdt :=
  congrArg CtlView.hdt h

/-- A state whose view is known has the view's answers. -/
theorem answers_of_ran {s t : State} {es : List Event} {as : List Byte}
    (h : ctlView t = (ctlView s).ran es as) : t.ctlAnswers = as :=
  congrArg CtlView.answers h

/-- A state whose view is known has the view's context. -/
theorem core_of_ran {s t : State} {es : List Event} {as : List Byte}
    (h : ctlView t = (ctlView s).ran es as) : core t.ctx = core s.ctx :=
  congrArg CtlView.core h

/-! ### Writes and delays -/

theorem wr_ran (r : Reg) (v : Byte) (s : State) :
    ctlView (wr r v s) = (ctlView s).ran [.wr r v] s.ctlAnswers := by
  rw [ctlView_wr]; rfl

theorem wrM_ran (r : Reg) (m v : Byte) (s : State) :
    ctlView (wrM r m v s) = (ctlView s).ran [.wrM r m v] s.ctlAnswers := by
  rw [ctlView_wrM]; rfl

theorem delayMs_ran (n : Nat) (s : State) :
    ctlView (delayMs n s) = (ctlView s).ran [.dlyMs n] s.ctlAnswers := by
  rw [ctlView_delayMs]; rfl

theorem delayUs_ran (n : Nat) (s : State) :
    ctlView (delayUs n s) = (ctlView s).ran [.dlyUs n] s.ctlAnswers := by
  rw [ctlView_delayUs]; rfl

theorem doAction_ran (as : Action) (s : State) :
    ctlView (doAction as s) = (ctlView s).ran (as.map writeEvent) s.ctlAnswers := by
  rw [ctlView_doAction]; rfl

/-! ### Reads -/

theorem rd_ran (r : Reg) (s : State) {b : Byte} {bs : List Byte} (h : s.ctlAnswers = b :: bs) :
    (rd r s).1 = b ∧ ctlView (rd r s).2 = (ctlView s).ran [.rd r b] bs := by
  obtain ⟨h1, h2⟩ := rd_scripted r s h
  exact ⟨h1, by rw [h2]; rfl⟩

theorem rdBit_ran (l : BitLoc) (s : State) {b : Byte} {bs : List Byte}
    (h : s.ctlAnswers = b :: bs) :
    (rdBit l s).1 = bitOf l.pos b ∧ ctlView (rdBit l s).2 = (ctlView s).ran [.rd l.reg b] bs := by
  obtain ⟨h1, h2⟩ := rd_ran l.reg s h
  exact ⟨by rw [rdBit, h1], h2⟩

theorem rd16_ran (r : Reg2) (s : State) {h l : Byte} {bs : List Byte}
    (hs : s.ctlAnswers = h :: l :: bs) :
    (rd16 r s).1 = join2 h l
      ∧ ctlView (rd16 r s).2 = (ctlView s).ran [.rd r.h h, .rd r.l l] bs := by
  obtain ⟨a1, a2⟩ := rd_ran r.h s hs
  obtain ⟨b1, b2⟩ := rd_ran r.l (rd r.h s).2 (answers_of_ran a2)
  refine ⟨?_, ?_⟩
  · show join2 (rd r.h s).1 (rd r.l (rd r.h s).2).1 = _
    rw [a1, b1]
  · show ctlView (rd r.l (rd r.h s).2).2 = _
    rw [b2, a2]; simp

theorem rd24_ran (r : Reg3) (s : State) (b : Read3) {bs : List Byte}
    (hs : s.ctlAnswers = b.bytes ++ bs) :
    (rd24 r s).1 = b.value ∧ ctlView (rd24 r s).2 = (ctlView s).ran (rd24Events r b) bs := by
  obtain ⟨a1, a2⟩ := rd_ran r.h s hs
  obtain ⟨b1, b2⟩ := rd_ran r.m _ (answers_of_ran a2)
  obtain ⟨c1, c2⟩ := rd_ran r.l _ (answers_of_ran b2)
  refine ⟨?_, ?_⟩
  · show join3 (rd r.h s).1 (rd r.m (rd r.h s).2).1 (rd r.l (rd r.m (rd r.h s).2).2).1 = _
    rw [a1, b1, c1]; rfl
  · show ctlView (rd r.l (rd r.m (rd r.h s).2).2).2 = _
    rw [c2, b2, a2]; simp [rd24Events]

/-- A 24-bit write (R210). -/
theorem wr24_ran (r : Reg3) (w : Nat) (s : State) :
    ctlView (wr24 r w s) = (ctlView s).ran (wr24Events r w) s.ctlAnswers := by
  have a := wr_ran r.h (byteOf 2 w) s
  have b := wr_ran r.m (byteOf 1 w) (wr r.h (byteOf 2 w) s)
  have c := wr_ran r.l (byteOf 0 w) (wr r.m (byteOf 1 w) (wr r.h (byteOf 2 w) s))
  rw [answers_of_ran a] at b
  rw [answers_of_ran b] at c
  rw [wr24, c, b, a]; simp [wr24Events]

/-! ### Polls (R500, R622) -/

/-- A poll that meets its bit set within its reads: the reads up to that one, a delay between each
two. -/
theorem pollBit_hit (l : BitLoc) (ms n : Nat) (lo : List Byte) (b : Byte) (rest : List Byte)
    (hn : lo.length < n) (hlo : AllClear l lo) (hb : bitOf l.pos b = true) (s : State)
    (hs : s.ctlAnswers = lo ++ b :: rest) :
    (pollBit l ms n s).1 = true
      ∧ ctlView (pollBit l ms n s).2 = (ctlView s).ran (pollEvents l.reg ms (lo ++ [b])) rest := by
  induction lo generalizing n s with
  | nil =>
    obtain ⟨n, rfl⟩ : ∃ m, n = m + 1 := ⟨n - 1, by simp at hn; omega⟩
    obtain ⟨h1, h2⟩ := rdBit_ran l s hs
    simp only [pollBit, h1, hb]
    exact ⟨rfl, h2⟩
  | cons x lo ih =>
    obtain ⟨n, rfl⟩ : ∃ m, n = m + 1 := ⟨n - 1, by simp at hn; omega⟩
    obtain ⟨h1, h2⟩ := rdBit_ran l s hs
    have hx : bitOf l.pos x = false := hlo x (by simp)
    have hn0 : n ≠ 0 := by simp at hn; omega
    have h3 := delayMs_ran ms (rdBit l s).2
    rw [answers_of_ran h2] at h3
    obtain ⟨h4, h5⟩ := ih n (by simp at hn; omega) (fun y hy => hlo y (by simp [hy])) _
      (answers_of_ran h3)
    simp only [pollBit, h1, hx, hn0]
    refine ⟨h4, ?_⟩
    show ctlView (pollBit l ms n (delayMs ms (rdBit l s).2)).2 = _
    rw [h5, h3, h2]
    cases lo <;> simp [pollEvents]

/-- A poll that never meets its bit set: all its reads, a delay between each two. -/
theorem pollBit_miss (l : BitLoc) (ms : Nat) (lo rest : List Byte) (hlo : AllClear l lo) (s : State)
    (hs : s.ctlAnswers = lo ++ rest) :
    (pollBit l ms lo.length s).1 = false
      ∧ ctlView (pollBit l ms lo.length s).2 = (ctlView s).ran (pollEvents l.reg ms lo) rest := by
  induction lo generalizing s with
  | nil => exact ⟨rfl, by simp [pollBit, CtlView.ran, pollEvents, ctlView, ← show _ = rest from hs]⟩
  | cons x lo ih =>
    obtain ⟨h1, h2⟩ := rdBit_ran l s hs
    have hx : bitOf l.pos x = false := hlo x (by simp)
    cases lo with
    | nil =>
      simp only [List.length_cons, List.length_nil, pollBit, h1, hx]
      exact ⟨rfl, h2⟩
    | cons y lo =>
      have h3 := delayMs_ran ms (rdBit l s).2
      rw [answers_of_ran h2] at h3
      obtain ⟨h4, h5⟩ := ih (fun z hz => hlo z (by simp [hz])) _ (answers_of_ran h3)
      rw [List.length_cons, pollBit]
      simp only [h1, hx]
      refine ⟨h4, ?_⟩
      show ctlView (pollBit l ms (y :: lo).length (delayMs ms (rdBit l s).2)).2 = _
      rw [h5, h3, h2]
      simp [pollEvents]

/-! ### The ADC clock (R322, R500) -/

/-- The seven tuple writes, in index order. -/
theorem wrTuple_ran (t : Vector Byte 7) (s : State) :
    ctlView (wrTuple t s) = (ctlView s).ran (tupleEvents s.hdt t) s.ctlAnswers := by
  have key : ∀ (ks : List (Fin 7)) (h : Hdt) (s : State), s.hdt = h →
      ctlView (ks.foldl (fun s k => wr (adcTupleReg s.hdt k) t[k] s) s)
        = (ctlView s).ran (ks.map fun k => .wr (adcTupleReg h k) t[k]) s.ctlAnswers := by
    intro ks
    induction ks with
    | nil => intro h s _; simp [CtlView.ran, ctlView]
    | cons k ks ih =>
      intro h s hs
      have h1 := wr_ran (adcTupleReg s.hdt k) t[k] s
      rw [List.foldl_cons, ih h _ (by rw [hdt_of_ran h1, hs]), answers_of_ran h1, h1, hs]
      simp
  exact key _ _ _ rfl

/-! ### The PLL (R620 to R623) -/

/-- The soft reset of a mode. -/
theorem softReset_ran (mode : ReceiverMode) (s : State) :
    ctlView (softReset mode s) = (ctlView s).ran (resetEvents s.hdt mode) s.ctlAnswers := by
  have a := wr_ran (forMode s.hdt.pll.rstAssert mode).1 (forMode s.hdt.pll.rstAssert mode).2 s
  have b := delayMs_ran rstMs
    (wr (forMode s.hdt.pll.rstAssert mode).1 (forMode s.hdt.pll.rstAssert mode).2 s)
  rw [answers_of_ran a] at b
  have c := wr_ran (forMode s.hdt.pll.rstDeassert mode).1 (forMode s.hdt.pll.rstDeassert mode).2
    (delayMs rstMs
      (wr (forMode s.hdt.pll.rstAssert mode).1 (forMode s.hdt.pll.rstAssert mode).2 s))
  rw [answers_of_ran b] at c
  rw [softReset, c, b, a]; simp [resetEvents]

/-- A word programmed for a numerator below `2^23` is `2·N + sel` (R320). -/
theorem pllWord_eq_tuneWord (h : Hdt) (mode : ReceiverMode) {n : Nat} (hn : n < 2 ^ 23) :
    pllWord n (forMode h.pll.sel mode) = tuneWord h mode n := by
  rw [pllWord, tuneWord, Nat.mod_eq_of_lt hn, Nat.mul_comm]

theorem pllMatch_iff (mode : ReceiverMode) (w v : Nat) :
    pllMatch mode w v = true ↔ Matches mode w v := by
  cases mode <;> simp [pllMatch, Matches, or_comm]

/-- The read-back loop: mismatching read-backs, each answered by a reprogramming and a wait, then one
that matches. -/
theorem pllVerify_hit (mode : ReceiverMode) (w n : Nat) (bad : List Read3) (good : Read3)
    (rest : List Byte) (hn : bad.length < n) (hbad : ∀ r ∈ bad, ¬Matches mode w r.value)
    (hgood : Matches mode w good.value) (s : State)
    (hs : s.ctlAnswers = readBytes bad ++ good.bytes ++ rest) :
    (pllVerify mode w n s).1 = true
      ∧ ctlView (pllVerify mode w n s).2
        = (ctlView s).ran (retryEvents s.hdt w bad ++ rd24Events s.hdt.pll.rb good) rest := by
  induction bad generalizing n s with
  | nil =>
    obtain ⟨n, rfl⟩ : ∃ m, n = m + 1 := ⟨n - 1, by simp at hn; omega⟩
    obtain ⟨h1, h2⟩ := rd24_ran s.hdt.pll.rb s good (by simpa [readBytes] using hs)
    simp only [pllVerify, h1, (pllMatch_iff mode w good.value).2 hgood]
    exact ⟨rfl, h2⟩
  | cons x bad ih =>
    obtain ⟨n, rfl⟩ : ∃ m, n = m + 1 := ⟨n - 1, by simp at hn; omega⟩
    have hs' : s.ctlAnswers = x.bytes ++ (readBytes bad ++ good.bytes ++ rest) := by
      simpa [readBytes] using hs
    obtain ⟨h1, h2⟩ := rd24_ran s.hdt.pll.rb s x hs'
    have hx : pllMatch mode w x.value = false := by
      rw [Bool.eq_false_iff, Ne, pllMatch_iff]; exact hbad x (by simp)
    have hn0 : n ≠ 0 := by simp at hn; omega
    have h3 := wr24_ran s.hdt.pll.reg w (rd24 s.hdt.pll.rb s).2
    rw [answers_of_ran h2] at h3
    have hp : pllProgram w (rd24 s.hdt.pll.rb s).2 = wr24 s.hdt.pll.reg w (rd24 s.hdt.pll.rb s).2 := by
      rw [pllProgram, hdt_of_ran h2]
    have h4 := delayMs_ran pllRetryMs (wr24 s.hdt.pll.reg w (rd24 s.hdt.pll.rb s).2)
    rw [answers_of_ran h3] at h4
    obtain ⟨h5, h6⟩ := ih n (by simp at hn; omega) (fun y hy => hbad y (by simp [hy])) _
      (answers_of_ran h4)
    simp only [pllVerify, h1, hx, hn0, hp]
    refine ⟨h5, ?_⟩
    show ctlView (pllVerify mode w n (delayMs pllRetryMs
      (wr24 s.hdt.pll.reg w (rd24 s.hdt.pll.rb s).2))).2 = _
    rw [h6, hdt_of_ran h4, hdt_of_ran h3, hdt_of_ran h2, h4, h3, h2]
    simp [retryEvents]

/-- The read-back loop without a match: the last attempt is followed by no reprogramming. -/
theorem pllVerify_miss (mode : ReceiverMode) (w : Nat) (bad : List Read3) (last : Read3)
    (rest : List Byte) (hbad : ∀ r ∈ bad, ¬Matches mode w r.value)
    (hlast : ¬Matches mode w last.value) (s : State)
    (hs : s.ctlAnswers = readBytes bad ++ last.bytes ++ rest) :
    (pllVerify mode w (bad.length + 1) s).1 = false
      ∧ ctlView (pllVerify mode w (bad.length + 1) s).2
        = (ctlView s).ran (retryEvents s.hdt w bad ++ rd24Events s.hdt.pll.rb last) rest := by
  induction bad generalizing s with
  | nil =>
    obtain ⟨h1, h2⟩ := rd24_ran s.hdt.pll.rb s last (by simpa [readBytes] using hs)
    have hx : pllMatch mode w last.value = false := by
      rw [Bool.eq_false_iff, Ne, pllMatch_iff]; exact hlast
    simp only [List.length_nil, pllVerify, h1, hx]
    exact ⟨rfl, h2⟩
  | cons x bad ih =>
    have hs' : s.ctlAnswers = x.bytes ++ (readBytes bad ++ last.bytes ++ rest) := by
      simpa [readBytes] using hs
    obtain ⟨h1, h2⟩ := rd24_ran s.hdt.pll.rb s x hs'
    have hx : pllMatch mode w x.value = false := by
      rw [Bool.eq_false_iff, Ne, pllMatch_iff]; exact hbad x (by simp)
    have h3 := wr24_ran s.hdt.pll.reg w (rd24 s.hdt.pll.rb s).2
    rw [answers_of_ran h2] at h3
    have hp : pllProgram w (rd24 s.hdt.pll.rb s).2 = wr24 s.hdt.pll.reg w (rd24 s.hdt.pll.rb s).2 := by
      rw [pllProgram, hdt_of_ran h2]
    have h4 := delayMs_ran pllRetryMs (wr24 s.hdt.pll.reg w (rd24 s.hdt.pll.rb s).2)
    rw [answers_of_ran h3] at h4
    obtain ⟨h5, h6⟩ := ih (fun y hy => hbad y (by simp [hy])) _ (answers_of_ran h4)
    rw [List.length_cons, pllVerify]
    simp only [h1, hx, hp]
    refine ⟨h5, ?_⟩
    show ctlView (pllVerify mode w (bad.length + 1) (delayMs pllRetryMs
      (wr24 s.hdt.pll.reg w (rd24 s.hdt.pll.rb s).2))).2 = _
    rw [h6, hdt_of_ran h4, hdt_of_ran h3, hdt_of_ran h2, h4, h3, h2]
    simp [retryEvents]

/-- A tune after its ADC step that succeeds (R620 to R623). -/
theorem pllTune_ok (mode : ReceiverMode) {n : Nat} (hn : n < 2 ^ 23) (bad : List Read3)
    (good : Read3) (lo : List Byte) (b : Byte) (rest : List Byte) (s : State)
    (hl : bad.length < 10) (hbad : ∀ r ∈ bad, ¬Matches mode (tuneWord s.hdt mode n) r.value)
    (hgood : Matches mode (tuneWord s.hdt mode n) good.value) (hll : lo.length < 10)
    (hlo : AllClear s.hdt.pll.lockBit lo) (hb : bitOf s.hdt.pll.lockBit.pos b = true)
    (hs : s.ctlAnswers = readBytes bad ++ good.bytes ++ lo ++ b :: rest) :
    ∃ t, pllTune mode n s = (.ok (), t)
      ∧ ctlView t = (ctlView s).ran
          (matchEvents s.hdt (tuneWord s.hdt mode n) bad good
            ++ pollEvents s.hdt.pll.lockBit.reg 2 (lo ++ [b]) ++ resetEvents s.hdt mode) rest := by
  have h1 := wr24_ran s.hdt.pll.reg (tuneWord s.hdt mode n) s
  obtain ⟨h2, h3⟩ := pllVerify_hit mode (tuneWord s.hdt mode n) pllAttempts bad good
    (lo ++ b :: rest) hl hbad hgood _ ((answers_of_ran h1).trans (by simpa using hs))
  obtain ⟨h4, h5⟩ := pollBit_hit s.hdt.pll.lockBit lockRetryMs lockPolls lo b rest hll hlo hb _
    (answers_of_ran h3)
  rw [hdt_of_ran h1] at h3
  refine ⟨_, by
    simp only [pllTune, pllWord_eq_tuneWord s.hdt mode hn, pllProgram, h2, pllLockWait,
      hdt_of_ran h3, hdt_of_ran h1, h4]
    rfl, ?_⟩
  · rw [softReset_ran, answers_of_ran h5, hdt_of_ran h5, hdt_of_ran h3, hdt_of_ran h1, h5, h3, h1]
    simp [matchEvents, lockRetryMs]

/-- A tune whose read-back never matches (R621). -/
theorem pllTune_mismatch (mode : ReceiverMode) {n : Nat} (hn : n < 2 ^ 23) (bad : List Read3)
    (last : Read3) (rest : List Byte) (s : State) (hl : bad.length = 9)
    (hbad : ∀ r ∈ bad, ¬Matches mode (tuneWord s.hdt mode n) r.value)
    (hlast : ¬Matches mode (tuneWord s.hdt mode n) last.value)
    (hs : s.ctlAnswers = readBytes bad ++ last.bytes ++ rest) :
    ∃ t, pllTune mode n s = (.error .pllUnlocked, t)
      ∧ ctlView t = (ctlView s).ran (matchEvents s.hdt (tuneWord s.hdt mode n) bad last) rest := by
  have h1 := wr24_ran s.hdt.pll.reg (tuneWord s.hdt mode n) s
  obtain ⟨h2, h3⟩ := pllVerify_miss mode (tuneWord s.hdt mode n) bad last rest hbad hlast _
    ((answers_of_ran h1).trans hs)
  rw [hl] at h2 h3
  rw [hdt_of_ran h1] at h3
  refine ⟨(pllVerify mode (tuneWord s.hdt mode n) 10
    (wr24 s.hdt.pll.reg (tuneWord s.hdt mode n) s)).2, ?_, ?_⟩
  · simp only [pllTune, pllWord_eq_tuneWord s.hdt mode hn, pllProgram, pllAttempts]
    rw [show (10 : Nat) = 9 + 1 from rfl]
    simp only [h2]
    rfl
  · rw [h3, h1]
    simp [matchEvents]

/-- A tune whose lock bit stays clear (R622). -/
theorem pllTune_unlocked (mode : ReceiverMode) {n : Nat} (hn : n < 2 ^ 23) (bad : List Read3)
    (good : Read3) (lo rest : List Byte) (s : State) (hl : bad.length < 10)
    (hbad : ∀ r ∈ bad, ¬Matches mode (tuneWord s.hdt mode n) r.value)
    (hgood : Matches mode (tuneWord s.hdt mode n) good.value) (hll : lo.length = 10)
    (hlo : AllClear s.hdt.pll.lockBit lo)
    (hs : s.ctlAnswers = readBytes bad ++ good.bytes ++ lo ++ rest) :
    ∃ t, pllTune mode n s = (.error .pllUnlocked, t)
      ∧ ctlView t = (ctlView s).ran
          (matchEvents s.hdt (tuneWord s.hdt mode n) bad good
            ++ pollEvents s.hdt.pll.lockBit.reg 2 lo) rest := by
  have h1 := wr24_ran s.hdt.pll.reg (tuneWord s.hdt mode n) s
  obtain ⟨h2, h3⟩ := pllVerify_hit mode (tuneWord s.hdt mode n) pllAttempts bad good
    (lo ++ rest) hl hbad hgood _ ((answers_of_ran h1).trans (by simpa using hs))
  obtain ⟨h4, h5⟩ := pollBit_miss s.hdt.pll.lockBit lockRetryMs lo rest hlo _ (answers_of_ran h3)
  rw [hll] at h4 h5
  rw [hdt_of_ran h1] at h3
  refine ⟨_, by
    simp only [pllTune, pllWord_eq_tuneWord s.hdt mode hn, pllProgram, h2, pllLockWait,
      hdt_of_ran h3, hdt_of_ran h1, lockPolls, h4]
    rfl, ?_⟩
  · rw [h5, h3, h1]
    simp [matchEvents, lockRetryMs]

/-! ### AdcConfigure (R500) -/

/-- The clock is configured: the tuple, the poll that meets the lock, and the type recorded. -/
theorem adcConfigure_ok {clk : AdcClockType} {t : Vector Byte 7} (lo : List Byte) (b : Byte)
    (rest : List Byte) (s : State) (hne : s.ctx.adcClk ≠ some clk)
    (ht : adcTuple s.hdt s.ctx.xtal clk = some t) (hl : lo.length < 10)
    (hlo : AllClear s.hdt.adc.lockBit lo) (hb : bitOf s.hdt.adc.lockBit.pos b = true)
    (hs : s.ctlAnswers = lo ++ b :: rest) :
    ∃ u, adcConfigure clk s = (.ok (), u)
      ∧ ctlView u = { (ctlView s).ran
          (tupleEvents s.hdt t ++ pollEvents s.hdt.adc.lockBit.reg 1 (lo ++ [b])) rest with
            core := { core s.ctx with adcClk := some clk } } := by
  have h1 := wrTuple_ran t s
  obtain ⟨h2, h3⟩ := pollBit_hit s.hdt.adc.lockBit adcPollMs adcPolls lo b rest hl hlo hb _
    ((answers_of_ran h1).trans hs)
  rw [h1, CtlView.ran_ran] at h3
  refine ⟨_, by
    simp only [adcConfigure, hne, ht, adcVerify, hdt_of_ran h1, h2]
    rfl, ?_⟩
  · show ({ ctlView (pollBit s.hdt.adc.lockBit adcPollMs adcPolls (wrTuple t s)).2 with
      core := { core (pollBit s.hdt.adc.lockBit adcPollMs adcPolls (wrTuple t s)).2.ctx with
        adcClk := some clk } } : CtlView) = _
    rw [core_of_ran h3, h3]
    rfl

/-- The clock does not lock: the tuple, the ten polls, and no type recorded. -/
theorem adcConfigure_unlocked {clk : AdcClockType} {t : Vector Byte 7} (lo rest : List Byte)
    (s : State) (hne : s.ctx.adcClk ≠ some clk) (ht : adcTuple s.hdt s.ctx.xtal clk = some t)
    (hl : lo.length = 10) (hlo : AllClear s.hdt.adc.lockBit lo) (hs : s.ctlAnswers = lo ++ rest) :
    ∃ u, adcConfigure clk s = (.error .adcClockUnlocked, u)
      ∧ ctlView u = { (ctlView s).ran
          (tupleEvents s.hdt t ++ pollEvents s.hdt.adc.lockBit.reg 1 lo) rest with
            core := { core s.ctx with adcClk := none } } := by
  have h1 := wrTuple_ran t s
  obtain ⟨h2, h3⟩ := pollBit_miss s.hdt.adc.lockBit adcPollMs lo rest hlo _
    ((answers_of_ran h1).trans hs)
  rw [hl] at h2 h3
  rw [h1, CtlView.ran_ran] at h3
  refine ⟨_, by
    simp only [adcConfigure, hne, ht, adcVerify, hdt_of_ran h1, adcPolls, h2]
    rfl, ?_⟩
  · show ({ ctlView (pollBit s.hdt.adc.lockBit adcPollMs 10 (wrTuple t s)).2 with
      core := { core (pollBit s.hdt.adc.lockBit adcPollMs 10 (wrTuple t s)).2.ctx with
        adcClk := none } } : CtlView) = _
    rw [core_of_ran h3, h3]
    rfl

/-! ### A whole tune (R610, R630) -/

theorem synthPrepare_error {h : Hdt} {c : Session} {mode : ReceiverMode} {ch f : Nat} {e : ErrorCode}
    (hp : synthPrepare h c mode ch f = .error e) : e = .invalidMode := by
  unfold synthPrepare at hp
  split at hp
  · exact (Except.error.inj hp).symm
  · split at hp
    · exact (Except.error.inj hp).symm
    · dsimp only at hp
      split at hp
      · exact (Except.error.inj hp).symm
      · split at hp
        · exact (Except.error.inj hp).symm
        · cases hp

/-- A numerator that the lookups give fits its word (R320, R610). -/
theorem synthPrepare_bound {h : Hdt} {c : Session} {mode : ReceiverMode} {ch f n : Nat}
    {clk : AdcClockType} (hp : synthPrepare h c mode ch f = .ok (clk, n)) : n < 2 ^ 23 := by
  unfold synthPrepare at hp
  split at hp
  · cases hp
  · split at hp
    · cases hp
    · dsimp only at hp
      split at hp
      · cases hp
      · split at hp
        · cases hp
        · cases hp; omega

theorem adcStep_ran {clk : AdcClockType} {as : List Byte} {es : List Event} (s : State)
    (hA : AdcStep s.hdt s.ctx clk as es) (rest : List Byte) (hs : s.ctlAnswers = as ++ rest) :
    ∃ u, adcConfigure clk s = (.ok (), u)
      ∧ ctlView u = { (ctlView s).ran es rest with core := { core s.ctx with adcClk := some clk } } := by
  cases hA with
  | current hc =>
    refine ⟨s, by rw [adcConfigure, if_pos hc], ?_⟩
    have h2 : (core s.ctx).adcClk = some clk := hc
    rw [← h2]
    simp [CtlView.ran, ctlView, ← show _ = rest from hs]
  | locks t lo b hne ht hl hlo hb =>
    exact adcConfigure_ok lo b rest s hne ht hl hlo hb (by simpa using hs)

theorem pllStep_ran {mode : ReceiverMode} {n : Nat} (hn : n < 2 ^ 23) {bs : List Byte}
    {fs : List Event} {r : Except ErrorCode Unit} (s : State) (hP : PllStep s.hdt mode n bs fs r)
    (rest : List Byte) (hs : s.ctlAnswers = bs ++ rest) :
    ∃ t, pllTune mode n s = (r, t) ∧ ctlView t = (ctlView s).ran fs rest := by
  cases hP with
  | mismatch bad last hl hbad =>
    exact pllTune_mismatch mode hn bad last rest s hl (fun r hr => hbad r (by simp [hr]))
      (hbad last (by simp)) hs
  | unlocked bad good lo hl hbad hgood hll hlo =>
    exact pllTune_unlocked mode hn bad good lo rest s hl hbad hgood hll hlo hs
  | tuned bad good lo b hl hbad hgood hll hlo hb =>
    exact pllTune_ok mode hn bad good lo b rest s hl hbad hgood hll hlo hb (by simpa using hs)

/-- Only the mode and the crystal of the context matter to the lookups. -/
theorem synthPrepare_congr {h : Hdt} {c c' : Session} (hm : c.mode = c'.mode)
    (hx : c.xtal = c'.xtal) (mode : ReceiverMode) (ch f : Nat) :
    synthPrepare h c mode ch f = synthPrepare h c' mode ch f := by
  unfold synthPrepare; rw [hm, hx]

/-- Only the mode, the crystal and the clock type of the context matter to a tune. -/
theorem Tune.congr {h : Hdt} {c c' : Session} {mode : ReceiverMode} {ch f : Nat} {as : List Byte}
    {es : List Event} {clk : Option AdcClockType} {r : Except ErrorCode Unit} (hm : c.mode = c'.mode)
    (hx : c.xtal = c'.xtal) (ha : c.adcClk = c'.adcClk) (hT : Tune h c mode ch f as es clk r) :
    Tune h c' mode ch f as es clk r := by
  cases hT with
  | lookup e hp => rw [ha]; exact .lookup e (synthPrepare_congr hm hx mode ch f ▸ hp)
  | unsupported clk n hp hne ht =>
    rw [ha]
    exact .unsupported clk n (synthPrepare_congr hm hx mode ch f ▸ hp) (ha ▸ hne) (hx ▸ ht)
  | adcUnlocked clk n t _ hp hne ht hl hlo =>
    exact .adcUnlocked clk n t _ (synthPrepare_congr hm hx mode ch f ▸ hp) (ha ▸ hne) (hx ▸ ht) hl
      hlo
  | pll clk n as bs es fs r hp hA hP =>
    refine .pll clk n as bs es fs r (synthPrepare_congr hm hx mode ch f ▸ hp) ?_ hP
    cases hA with
    | current hc => exact .current (ha ▸ hc)
    | locks t lo b hne ht hl hlo hb => exact .locks t lo b (ha ▸ hne) (hx ▸ ht) hl hlo hb

/-- A tune under scripted answers ends as `Tune` says. -/
theorem tune_ran {mode : ReceiverMode} {ch f : Nat} {as : List Byte} {es : List Event}
    {clk' : Option AdcClockType} {r : Except ErrorCode Unit} (s : State)
    (hT : Tune s.hdt s.ctx mode ch f as es clk' r) (rest : List Byte)
    (hs : s.ctlAnswers = as ++ rest) :
    ∃ t, synthSetFrequency mode ch f s = (r, t)
      ∧ ctlView t = { (ctlView s).ran es rest with core := { core s.ctx with adcClk := clk' } } := by
  have hself : ctlView s =
      { (ctlView s).ran [] rest with core := { core s.ctx with adcClk := s.ctx.adcClk } } ↔
        s.ctlAnswers = rest := by
    have : ({ core s.ctx with adcClk := s.ctx.adcClk } : Session) = core s.ctx := rfl
    rw [this]
    simp [CtlView.ran, ctlView]
  cases hT with
  | lookup e hp =>
    refine ⟨s, ?_, hself.2 hs⟩
    rw [synthPrepare_error hp] at hp
    simp only [synthSetFrequency, hp]
  | unsupported clk n hp hne ht =>
    refine ⟨s, ?_, hself.2 hs⟩
    simp only [synthSetFrequency, hp, adcConfigure, hne, ht, if_false]
  | adcUnlocked clk n t lo hp hne ht hl hlo =>
    obtain ⟨u, h1, h2⟩ := adcConfigure_unlocked _ rest s hne ht hl hlo hs
    exact ⟨u, by simp only [synthSetFrequency, hp, h1], h2⟩
  | pll clk n as bs es fs r hp hA hP =>
    obtain ⟨u, h1, h2⟩ := adcStep_ran s hA (bs ++ rest) (by simpa using hs)
    have hd : u.hdt = s.hdt := congrArg CtlView.hdt h2
    obtain ⟨t, h3, h4⟩ := pllStep_ran (synthPrepare_bound hp) u (by rwa [hd]) rest
      (congrArg CtlView.answers h2)
    refine ⟨t, by simp only [synthSetFrequency, hp, h1, h3], ?_⟩
    rw [h4, h2]
    simp [CtlView.ran]

end Sys2Proof.Machine
end

