-- ==== Sys2Proof/Laws/Alloc.lean ====
section
/-! SUPPORT. The allocator's shared operations: what a bind and an unbind step change, that they keep the
allocator invariant, and what *Bind*, *Unbind* and closing a list of IDs do to the control agent's view
(spec/43_subchannel_alloc.md R715, R720, R730). -/

namespace Sys2Proof.Machine

/-! ### Bits -/

theorem getLsbD_setBit {w : Nat} (i k : Nat) (hi : i < w) (m : BitVec w) :
    (setBit i m).getLsbD k = (m.getLsbD k || decide (k = i)) := by
  rcases Nat.lt_or_ge k w with hk | hk
  · simp [setBit, hk, eq_comm]
  · have : k ≠ i := by omega
    simp [setBit, BitVec.getLsbD_of_ge _ _ hk, this]

theorem getLsbD_clearBit {w : Nat} (i k : Nat) (m : BitVec w) :
    (clearBit i m).getLsbD k = (m.getLsbD k && decide (k ≠ i)) := by
  rcases Nat.lt_or_ge k w with hk | hk
  · by_cases h : k = i
    · subst h; simp [clearBit, hk]
    · simp [clearBit, hk, h]
  · simp [clearBit, BitVec.getLsbD_of_ge _ _ hk]

/-! ### The fields under an update of the ID mask -/

@[simp] theorem updIdMask_reg (f : BitVec 32 → BitVec 32) (id : Nat) (c : Session) :
    (updIdMask f id c).reg = c.reg := by
  unfold updIdMask; split
  · rfl
  · split <;> rfl

@[simp] theorem updIdMask_regMask (f : BitVec 32 → BitVec 32) (id : Nat) (c : Session) :
    (updIdMask f id c).regMask = c.regMask := by
  unfold updIdMask; split
  · rfl
  · split <;> rfl

@[simp] theorem updIdMask_slotMask (f : BitVec 32 → BitVec 32) (id : Nat) (c : Session) :
    (updIdMask f id c).slotMask = c.slotMask := by
  unfold updIdMask; split
  · rfl
  · split <;> rfl

theorem idWord_updIdMask (f : BitVec 32 → BitVec 32) (id k : Nat) (hid : id < 64) (c : Session) :
    idWord (updIdMask f id c) k = if k = id / 32 then f (idWord c k) else idWord c k := by
  have : id / 32 = 0 ∨ id / 32 = 1 := by omega
  rcases this with h | h <;> rcases k with _ | _ | k <;> simp [updIdMask, idWord, h]

theorem registered_updIdMask_set (id i : Nat) (hid : id < 64) (c : Session) :
    registered (updIdMask (setBit (id % 32)) id c) i = (registered c i || decide (i = id)) := by
  unfold registered
  rw [idWord_updIdMask _ _ _ hid]
  split
  · rename_i h
    rw [getLsbD_setBit _ _ (Nat.mod_lt _ (by decide))]
    congr 1
    rw [decide_eq_decide]
    omega
  · have : i ≠ id := by rintro rfl; exact absurd rfl ‹_›
    simp [this]

theorem registered_updIdMask_clear (id i : Nat) (hid : id < 64) (c : Session) :
    registered (updIdMask (clearBit (id % 32)) id c) i = (registered c i && decide (i ≠ id)) := by
  unfold registered
  rw [idWord_updIdMask _ _ _ hid]
  split
  · rename_i h
    rw [getLsbD_clearBit]
    congr 1
    rw [decide_eq_decide]
    omega
  · have : i ≠ id := by rintro rfl; exact absurd rfl ‹_›
    simp [this]

/-! ### Entries -/

theorem entry_setIfInBounds (v : Vector (Option Binding) 5) (e k : Nat) (o : Option Binding)
    (he : e < 5) :
    ((v.setIfInBounds e o)[k]?).getD none = if k = e then o else (v[k]?).getD none := by
  by_cases h : k = e
  · subst h; simp [he]
  · simp [h, Ne.symm h]

theorem entry_lt {c : Session} {e : Nat} {b : Binding} (h : entry c e = some b) : e < 5 := by
  by_contra hn
  have : c.reg[e]? = none := by simp; omega
  simp [entry, this] at h

/-! ### The two indivisible steps (R226) -/

/-- A bind step adds one binding to the array and all three masks (R720). -/
theorem bindStep_boundAlso (c : Session) {e : Nat} {b : Binding} (he : e < 5) (hid : b.id < 64)
    (hs : b.slot < 5) : BoundAlso c (bindStep e b c) e b := by
  refine ⟨fun k => ?_, fun i _ => ?_, fun k => ?_, fun k => ?_⟩
  · simp only [entry, bindStep, updIdMask_reg]; exact entry_setIfInBounds _ _ _ _ he
  · exact registered_updIdMask_set b.id i hid _
  · simp only [slotBound, bindStep, updIdMask_slotMask]; exact getLsbD_setBit _ _ hs _
  · simp only [bindStep, updIdMask_regMask]; exact getLsbD_setBit _ _ he _

/-- An unbind step removes one binding from the array and all three masks (R730). -/
theorem unbindStep_released (c : Session) {e : Nat} {b : Binding} (he : e < 5) (hid : b.id < 64) :
    Released c (unbindStep e b c) e b := by
  refine ⟨fun k => ?_, fun i _ => ?_, fun k => ?_, fun k => ?_⟩
  · simp only [entry, unbindStep, updIdMask_reg]; exact entry_setIfInBounds _ _ _ _ he
  · exact registered_updIdMask_clear b.id i hid _
  · simp only [slotBound, unbindStep, updIdMask_slotMask]; exact getLsbD_clearBit _ _ _
  · simp only [unbindStep, updIdMask_regMask]; exact getLsbD_clearBit _ _ _

theorem updIdMask_same (f : BitVec 32 → BitVec 32) (id : Nat) (c : Session) :
    SameButAllocator c (updIdMask f id c) := by
  unfold updIdMask SameButAllocator; split
  · rfl
  · split <;> rfl

theorem SameButAllocator.refl (c : Session) : SameButAllocator c c := rfl

theorem SameButAllocator.trans {a b c : Session} (h : SameButAllocator a b)
    (h' : SameButAllocator b c) : SameButAllocator a c := by
  unfold SameButAllocator at *
  rw [h'.trans (by rw [h])]

theorem bindStep_same (c : Session) (e : Nat) (b : Binding) : SameButAllocator c (bindStep e b c) :=
  SameButAllocator.trans
    (show SameButAllocator c { c with
      reg := c.reg.setIfInBounds e (some b)
      regMask := setBit e c.regMask
      slotMask := setBit b.slot c.slotMask } from rfl) (updIdMask_same _ _ _)

theorem unbindStep_same (c : Session) (e : Nat) (b : Binding) :
    SameButAllocator c (unbindStep e b c) :=
  SameButAllocator.trans
    (show SameButAllocator c { c with
      reg := c.reg.setIfInBounds e none
      regMask := clearBit e c.regMask
      slotMask := clearBit b.slot c.slotMask } from rfl) (updIdMask_same _ _ _)

theorem core_bindStep (e : Nat) (b : Binding) (c : Session) :
    core (bindStep e b c) = bindStep e b (core c) := by
  unfold bindStep updIdMask core; dsimp only; split
  · rfl
  · split <;> rfl

theorem core_unbindStep (e : Nat) (b : Binding) (c : Session) :
    core (unbindStep e b c) = unbindStep e b (core c) := by
  unfold unbindStep updIdMask core; dsimp only; split
  · rfl
  · split <;> rfl

/-! ### The invariant -/

/-- The level is no part of the allocator's invariant. -/
theorem allocInv_core {h : Hdt} {c : Session} : AllocInv h (core c) ↔ AllocInv h c :=
  ⟨fun ⟨a, b, c, d, e, f, g, i, j⟩ => ⟨a, b, c, d, e, f, g, i, j⟩,
    fun ⟨a, b, c, d, e, f, g, i, j⟩ => ⟨a, b, c, d, e, f, g, i, j⟩⟩

/-- A context without bindings meets the invariant. -/
theorem allocInv_of_noBindings (h : Hdt) {c : Session} (hn : NoBindings c) : AllocInv h c := by
  obtain ⟨h1, h2, h3, h4, h5⟩ := hn
  have hno : ∀ {e b}, entry c e ≠ some b := fun {e b} he => by rw [h1] at he; cases he
  constructor
  · intro e _; simp [h1, h5]
  · exact fun _ _ he => absurd he hno
  · exact fun _ _ he => absurd he hno
  · exact fun _ _ he => absurd he hno
  · exact fun _ _ he => absurd he hno
  · exact fun _ _ _ _ he => absurd he hno
  · exact fun _ _ _ _ he => absurd he hno
  · intro i _
    have : registered c i = false := by
      unfold registered idWord
      split
      · simp [h2]
      · split <;> simp [h3]
    rw [this]
    exact ⟨nofun, fun ⟨_, _, he, _⟩ => absurd he hno⟩
  · intro k
    have : slotBound c k = false := by simp [slotBound, h4]
    rw [this]
    exact ⟨nofun, fun ⟨_, _, he, _⟩ => absurd he hno⟩

/-- A bind of a free ID to a free entry and a free slot keeps the invariant. -/
theorem AllocInv.bound {h : Hdt} {c c' : Session} {e : Nat} {b : Binding} (hi : AllocInv h c)
    (he : e < maxBindings h) (hnone : entry c e = none) (hid : b.id < numIds)
    (hreg : registered c b.id = false) (hfit : slotFits h b) (hslot : b.slot < 5)
    (hfree : slotBound c b.slot = false) (hb : BoundAlso c c' e b) : AllocInv h c' := by
  obtain ⟨h1, h2, h3, h4⟩ := hb
  have hne : ∀ {k x}, entry c k = some x → k ≠ e := by
    rintro k x hx rfl; rw [hnone] at hx; cases hx
  have hdiff : ∀ {k x}, entry c k = some x → x.id ≠ b.id := fun {k x} hx hxb => by
    have := (hi.ids _ (hi.idRange _ _ hx)).2 ⟨k, x, hx, rfl⟩
    rw [hxb, hreg] at this; cases this
  have hdiffs : ∀ {k x}, entry c k = some x → x.slot ≠ b.slot := fun {k x} hx hxb => by
    have := (hi.slots _).2 ⟨k, x, hx, rfl⟩
    rw [hxb, hfree] at this; cases this
  have hcase : ∀ {k x}, entry c' k = some x → (k = e ∧ x = b) ∨ (k ≠ e ∧ entry c k = some x) := by
    intro k x hx
    rw [h1] at hx
    split at hx
    · cases hx; exact .inl ⟨‹_›, rfl⟩
    · exact .inr ⟨‹_›, hx⟩
  have hself : entry c' e = some b := by rw [h1, if_pos rfl]
  have hother : ∀ {k x}, entry c k = some x → entry c' k = some x := fun {k x} hx => by
    rw [h1, if_neg (hne hx), hx]
  constructor
  · intro k hk
    rw [h4, h1, hi.entries k hk]
    by_cases hke : k = e <;> simp [hke]
  · intro k x hx
    rcases hcase hx with ⟨rfl, -⟩ | ⟨-, hx⟩
    · exact he
    · exact hi.bounded _ _ hx
  · intro k x hx
    rcases hcase hx with ⟨-, rfl⟩ | ⟨-, hx⟩
    · exact hid
    · exact hi.idRange _ _ hx
  · intro k x hx
    rcases hcase hx with ⟨-, rfl⟩ | ⟨-, hx⟩
    · exact hfit
    · exact hi.fits _ _ hx
  · intro k x hx
    rcases hcase hx with ⟨-, rfl⟩ | ⟨-, hx⟩
    · exact hslot
    · exact hi.slotRange _ _ hx
  · intro k k' x x' hx hx' hxx
    rcases hcase hx with ⟨rfl, rfl⟩ | ⟨-, hx⟩ <;> rcases hcase hx' with ⟨rfl, rfl⟩ | ⟨-, hx'⟩
    · rfl
    · exact absurd hxx.symm (hdiff hx')
    · exact absurd hxx (hdiff hx)
    · exact hi.sameId _ _ _ _ hx hx' hxx
  · intro k k' x x' hx hx' hxx
    rcases hcase hx with ⟨rfl, rfl⟩ | ⟨-, hx⟩ <;> rcases hcase hx' with ⟨rfl, rfl⟩ | ⟨-, hx'⟩
    · rfl
    · exact absurd hxx.symm (hdiffs hx')
    · exact absurd hxx (hdiffs hx)
    · exact hi.sameSlot _ _ _ _ hx hx' hxx
  · intro i hlt
    rw [h2 i hlt, Bool.or_eq_true, hi.ids i hlt, decide_eq_true_iff]
    constructor
    · rintro (⟨k, x, hx, rfl⟩ | rfl)
      · exact ⟨k, x, hother hx, rfl⟩
      · exact ⟨e, b, hself, rfl⟩
    · rintro ⟨k, x, hx, rfl⟩
      rcases hcase hx with ⟨-, rfl⟩ | ⟨-, hx⟩
      · exact .inr rfl
      · exact .inl ⟨k, x, hx, rfl⟩
  · intro k
    rw [h3 k, Bool.or_eq_true, hi.slots k, decide_eq_true_iff]
    constructor
    · rintro (⟨k, x, hx, rfl⟩ | rfl)
      · exact ⟨k, x, hother hx, rfl⟩
      · exact ⟨e, b, hself, rfl⟩
    · rintro ⟨k, x, hx, rfl⟩
      rcases hcase hx with ⟨-, rfl⟩ | ⟨-, hx⟩
      · exact .inr rfl
      · exact .inl ⟨k, x, hx, rfl⟩

/-- An unbind of a live binding keeps the invariant. -/
theorem AllocInv.released {h : Hdt} {c c' : Session} {e : Nat} {b : Binding} (hi : AllocInv h c)
    (heb : entry c e = some b) (hr : Released c c' e b) : AllocInv h c' := by
  obtain ⟨h1, h2, h3, h4⟩ := hr
  have hcase : ∀ {k x}, entry c' k = some x → k ≠ e ∧ entry c k = some x := by
    intro k x hx
    rw [h1] at hx
    split at hx
    · cases hx
    · exact ⟨‹_›, hx⟩
  have hother : ∀ {k x}, entry c k = some x → k ≠ e → entry c' k = some x := fun {k x} hx hk => by
    rw [h1, if_neg hk, hx]
  constructor
  · intro k hk
    rw [h4, h1, hi.entries k hk]
    by_cases hke : k = e <;> simp [hke]
  · exact fun k x hx => hi.bounded _ _ (hcase hx).2
  · exact fun k x hx => hi.idRange _ _ (hcase hx).2
  · exact fun k x hx => hi.fits _ _ (hcase hx).2
  · exact fun k x hx => hi.slotRange _ _ (hcase hx).2
  · exact fun k k' x x' hx hx' => hi.sameId _ _ _ _ (hcase hx).2 (hcase hx').2
  · exact fun k k' x x' hx hx' => hi.sameSlot _ _ _ _ (hcase hx).2 (hcase hx').2
  · intro i hlt
    rw [h2 i hlt, Bool.and_eq_true, hi.ids i hlt, decide_eq_true_iff]
    constructor
    · rintro ⟨⟨k, x, hx, rfl⟩, hne⟩
      refine ⟨k, x, hother hx ?_, rfl⟩
      rintro rfl; rw [heb] at hx; cases hx; exact hne rfl
    · rintro ⟨k, x, hx, rfl⟩
      obtain ⟨hk, hx⟩ := hcase hx
      exact ⟨⟨k, x, hx, rfl⟩, fun hxb => hk (hi.sameId _ _ _ _ hx heb hxb)⟩
  · intro k
    rw [h3 k, Bool.and_eq_true, hi.slots k, decide_eq_true_iff]
    constructor
    · rintro ⟨⟨k, x, hx, rfl⟩, hne⟩
      refine ⟨k, x, hother hx ?_, rfl⟩
      rintro rfl; rw [heb] at hx; cases hx; exact hne rfl
    · rintro ⟨k, x, hx, rfl⟩
      obtain ⟨hk, hx⟩ := hcase hx
      exact ⟨⟨k, x, hx, rfl⟩, fun hxb => hk (hi.sameSlot _ _ _ _ hx heb hxb)⟩

/-! ### Unbind (R730) -/

/-- Under the invariant a registered ID has exactly one entry, which `entryOf` finds. -/
theorem entryOf_eq {h : Hdt} {c : Session} {e : Nat} {b : Binding} (hi : AllocInv h c)
    (heb : entry c e = some b) : entryOf h c b.id = some e := by
  have hf : (List.range (maxBindings h)).filter (holdsId c b.id) = [e] := by
    have hp : ∀ k, holdsId c b.id k = decide (k = e) := by
      intro k
      unfold holdsId
      split
      · rename_i x hx
        rw [decide_eq_decide]
        exact ⟨fun hxb => hi.sameId _ _ _ _ hx heb hxb, fun hk => by
          subst hk; rw [heb] at hx; cases hx; rfl⟩
      · rename_i hx
        symm; rw [decide_eq_false_iff_not]; rintro rfl; rw [heb] at hx; cases hx
    rw [List.filter_congr (fun k _ => hp k), List.filter_eq]
    have := List.count_eq_one_of_mem (List.nodup_range (n := maxBindings h))
      (List.mem_range.2 (hi.bounded _ _ heb))
    simp only [this, List.replicate_one]
  simp [entryOf, hf]

/-- What an unbind of a live binding's ID does: its events, and its step on the context. -/
theorem unbind_spec {h : Hdt} {e : Nat} {b : Binding} (s : State) (hh : s.hdt = h)
    (hi : AllocInv h s.ctx) (heb : entry s.ctx e = some b) :
    ∃ t, unbind b.id s = .ok t
      ∧ ctlView t = { (ctlView s).ran
            (unbindEvents h b.slot (groupEmpty h (unbindStep e b (core s.ctx)) (groupOfSlot b.slot)))
            s.ctlAnswers with core := unbindStep e b (core s.ctx) } := by
  subst hh
  refine ⟨_, by simp only [unbind, entryOf_eq hi heb, heb]; rfl, ?_⟩
  have h1 := doAction_ran (actSlotDisable s.hdt b.slot) s
  generalize hs1 : doAction (actSlotDisable s.hdt b.slot) s = s1 at *
  have hc1 := core_of_ran h1
  generalize hs2 : ({ s1 with ctx := unbindStep e b s1.ctx } : State) = s2 at *
  have h2 : ctlView s2 = { ctlView s1 with core := unbindStep e b (core s.ctx) } := by
    rw [← hc1, ← core_unbindStep, ← hs2]; rfl
  have hg : groupEmpty s2.hdt s2.ctx (groupOfSlot b.slot)
      = groupEmpty s.hdt (unbindStep e b (core s.ctx)) (groupOfSlot b.slot) := by
    have : core s2.ctx = unbindStep e b (core s.ctx) := congrArg CtlView.core h2
    rw [← this, show s2.hdt = s.hdt from (congrArg CtlView.hdt h2).trans (congrArg CtlView.hdt h1)]
    rfl
  unfold releaseGroup
  rw [hg]
  split
  · rename_i hge
    have h3 := doAction_ran (forGroup s2.hdt.alloc.irqDisable (groupOfSlot b.slot)) s2
    have h4 := doAction_ran (forGroup s2.hdt.alloc.payloadReset (groupOfSlot b.slot))
      (doAction (forGroup s2.hdt.alloc.irqDisable (groupOfSlot b.slot)) s2)
    rw [h4, answers_of_ran h3, h3]
    have ha : s2.ctlAnswers = s.ctlAnswers :=
      (congrArg CtlView.answers h2).trans (answers_of_ran h1)
    have hd : s2.hdt = s.hdt := (congrArg CtlView.hdt h2).trans (hdt_of_ran h1)
    rw [ha, hd, h2, h1, hge]
    simp [unbindEvents, CtlView.ran]
  · rename_i hge
    rw [Bool.not_eq_true] at hge
    rw [h2, h1, hge]
    simp [unbindEvents, CtlView.ran]

/-! ### Bind (R720) -/

theorem freeSlot_of_target {h : Hdt} {c : Session} {svc : ServiceType} {slot : Nat}
    (ht : TargetSlot h c svc slot) : freeSlot h c (groupOf svc) = some slot := by
  cases svc
  · simpa [TargetSlot, groupOf, freeSlot, eq_comm] using ht
  · simpa [TargetSlot, groupOf, freeSlot, eq_comm] using ht
  · obtain ⟨h1, h2, h3, h4⟩ := ht
    show (slotsOf h .msc0).find? _ = _
    have : slotsOf h .msc0 = (List.range h.alloc.numDataSlots).map (· + 1) := rfl
    rw [this, List.find?_map]
    have key : ∀ n k, k < n → slotBound c (k + 1) = false →
        (∀ j < k, slotBound c (j + 1) = true) →
        (List.range n).find? ((fun t => !slotBound c t) ∘ (· + 1)) = some k := by
      intro n k hk hf hl
      rw [List.find?_range_eq_some]
      refine ⟨?_, List.mem_range.2 hk, fun j hj => ?_⟩
      · simp [hf]
      · simp [hl j hj]
    rw [key _ (slot - 1) (by omega) (by rwa [Nat.sub_add_cancel h1])
      (fun j hj => h4 _ (by omega) (by omega))]
    simp; omega

theorem freeEntry_of_first {h : Hdt} {c : Session} {e : Nat} (he : FirstFreeEntry h c e) :
    freeEntry h c = some e := by
  obtain ⟨h1, h2, h3⟩ := he
  unfold freeEntry
  rw [List.find?_range_eq_some]
  refine ⟨by simp [h2], List.mem_range.2 h1, fun j hj => ?_⟩
  have := h3 j hj
  cases hx : entry c j
  · exact absurd hx this
  · simp

/-- What a bind to the first free entry and the target slot does: its events, and its step on the
context. -/
theorem bind_spec {h : Hdt} {e slot : Nat} {svc : ServiceType} (id thr : Nat) (s : State)
    (hh : s.hdt = h) (he : FirstFreeEntry h s.ctx e) (ht : TargetSlot h s.ctx svc slot) :
    ∃ t, bind id svc thr s = .ok t
      ∧ ctlView t = { (ctlView s).ran
            (bindEvents h slot id svc thr (groupEmpty h s.ctx (groupOf svc)))
            s.ctlAnswers with core := bindStep e ⟨id, slot, svc, thr⟩ (core s.ctx) } := by
  subst hh
  refine ⟨_, by simp only [bind, freeSlot_of_target ht, freeEntry_of_first he]; rfl, ?_⟩
  have h1 := doAction_ran (actSlotSetId s.hdt slot id) s
  generalize doAction (actSlotSetId s.hdt slot id) s = s1 at *
  have h2 := doAction_ran (actSlotRs s1.hdt slot (decide (svc = .video))) s1
  rw [answers_of_ran h1, hdt_of_ran h1, h1, CtlView.ran_ran] at h2
  rw [hdt_of_ran h1]
  generalize doAction (actSlotRs s.hdt slot (decide (svc = .video))) s1 = s2 at *
  have h3 : ctlView (if groupEmpty s.hdt s.ctx (groupOf svc) then
        doAction (forGroup s2.hdt.alloc.irqEnable (groupOf svc)) s2 else s2)
      = (ctlView s).ran ((actSlotSetId s.hdt slot id).map writeEvent
          ++ (actSlotRs s.hdt slot (decide (svc = .video))).map writeEvent
          ++ (if groupEmpty s.hdt s.ctx (groupOf svc) then
              forGroup s.hdt.alloc.irqEnable (groupOf svc) else []).map writeEvent)
          s.ctlAnswers := by
    split
    · rw [doAction_ran, answers_of_ran h2, hdt_of_ran h2, h2, CtlView.ran_ran]
    · rw [h2]; simp
  generalize (if groupEmpty s.hdt s.ctx (groupOf svc) then
        doAction (forGroup s2.hdt.alloc.irqEnable (groupOf svc)) s2 else s2) = s3 at *
  have h4 := doAction_ran (actPayloadAlloc s3.hdt slot thr) s3
  rw [answers_of_ran h3, hdt_of_ran h3, h3, CtlView.ran_ran] at h4
  rw [hdt_of_ran h3]
  generalize doAction (actPayloadAlloc s.hdt slot thr) s3 = s4 at *
  have h5 : ctlView { s4 with ctx := bindStep e ⟨id, slot, svc, thr⟩ s4.ctx }
      = { ctlView s4 with core := bindStep e ⟨id, slot, svc, thr⟩ (core s.ctx) } := by
    rw [← core_of_ran h4, ← core_bindStep]; rfl
  rw [h5, h4]
  simp [bindEvents, CtlView.ran]

/-! ### Closing (R715) -/

/-- The live binding of an ID. -/
def bindingOf (c : Session) (i : Nat) : Option Binding :=
  ((List.range 5).filterMap (entry c)).find? fun b => decide (b.id = i)

theorem liveById_eq (c : Session) : liveById c = (List.range numIds).filterMap (bindingOf c) := rfl

theorem bindingOf_eq_some {h : Hdt} {c : Session} (hi : AllocInv h c) {i : Nat} {b : Binding} :
    bindingOf c i = some b ↔ ∃ e, entry c e = some b ∧ b.id = i := by
  constructor
  · intro hb
    have h1 := List.find?_some hb
    obtain ⟨e, -, he⟩ := List.mem_filterMap.1 (List.mem_of_find?_eq_some hb)
    exact ⟨e, he, by simpa using h1⟩
  · rintro ⟨e, he, rfl⟩
    cases hf : bindingOf c b.id with
    | none =>
      have := List.find?_eq_none.1 hf b
        (List.mem_filterMap.2 ⟨e, List.mem_range.2 (entry_lt he), he⟩)
      simp at this
    | some x =>
      have h1 : x.id = b.id := by simpa using List.find?_some hf
      obtain ⟨k, -, hk⟩ := List.mem_filterMap.1 (List.mem_of_find?_eq_some hf)
      have := hi.sameId _ _ _ _ hk he h1
      subst this
      rw [he] at hk; cases hk; rfl

theorem bindingOf_eq_none {h : Hdt} {c : Session} (hi : AllocInv h c) {i : Nat} (hlt : i < numIds) :
    bindingOf c i = none ↔ registered c i = false := by
  rw [← Bool.not_eq_true, hi.ids i hlt, Option.eq_none_iff_forall_ne_some]
  constructor
  · rintro hn ⟨e, b, he, hb⟩
    exact hn b ((bindingOf_eq_some hi).2 ⟨e, he, hb⟩)
  · intro hn b hb
    obtain ⟨e, he, hid⟩ := (bindingOf_eq_some hi).1 hb
    exact hn ⟨e, b, he, hid⟩

/-- An unbind leaves the bindings of the other IDs. -/
theorem bindingOf_released {h : Hdt} {c c' : Session} {e : Nat} {b : Binding} (hi : AllocInv h c)
    (heb : entry c e = some b) (hr : Released c c' e b) {i : Nat} (hne : i ≠ b.id) :
    bindingOf c' i = bindingOf c i := by
  have hi' := hi.released heb hr
  apply Option.ext
  intro x
  rw [bindingOf_eq_some hi', bindingOf_eq_some hi]
  constructor
  · rintro ⟨k, hk, hx⟩
    rw [hr.1] at hk
    split at hk
    · cases hk
    · exact ⟨k, hk, hx⟩
  · rintro ⟨k, hk, hx⟩
    refine ⟨k, ?_, hx⟩
    rw [hr.1, if_neg, hk]
    rintro rfl; rw [heb] at hk; cases hk; exact hne hx.symm

theorem groupOfSlot_of_fits {h : Hdt} {b : Binding} (hf : slotFits h b) :
    groupOfSlot b.slot = groupOf b.svc := by
  unfold slotFits at hf
  cases hs : b.svc <;> rw [hs] at hf <;> simp only at hf
  · simp [groupOfSlot, groupOf, hf]
  · simp [groupOfSlot, groupOf, hf]
  · simp [groupOfSlot, groupOf]; omega

/-- Under the invariant a group is empty exactly when no live binding is in it. -/
theorem groupEmpty_iff {h : Hdt} {c : Session} (hi : AllocInv h c) (g : Group) :
    groupEmpty h c g = true ↔ ∀ e b, entry c e = some b → groupOfSlot b.slot ≠ g := by
  unfold groupEmpty
  rw [List.all_eq_true]
  constructor
  · intro hall e b he hg
    have hs : slotBound c b.slot = true := (hi.slots _).2 ⟨e, b, he, rfl⟩
    have hmem : b.slot ∈ slotsOf h g := by
      subst hg
      have hf := hi.fits _ _ he
      rw [groupOfSlot_of_fits hf]
      unfold slotFits at hf
      cases hv : b.svc <;> rw [hv] at hf <;> simp only at hf
      · simp [slotsOf, groupOf, hf]
      · simp [slotsOf, groupOf, hf]
      · simp only [slotsOf, groupOf, List.mem_map, List.mem_range]
        exact ⟨b.slot - 1, by omega, by omega⟩
    have := hall _ hmem
    rw [hs] at this
    cases this
  · intro hn k hk
    rw [Bool.not_eq_true', ← Bool.not_eq_true, hi.slots]
    rintro ⟨e, b, he, rfl⟩
    refine hn e b he ?_
    cases g
    · simp only [slotsOf, List.mem_map] at hk
      obtain ⟨a, -, ha⟩ := hk
      simp [groupOfSlot]; omega
    · simp only [slotsOf, List.mem_singleton] at hk
      simp [groupOfSlot, hk]

theorem noBindings_of_no_entry {h : Hdt} {c : Session} (hi : AllocInv h c)
    (hn : ∀ e, entry c e = none) : NoBindings c := by
  have hreg : ∀ i < 64, registered c i = false := fun i hlt => by
    rw [← Bool.not_eq_true, hi.ids i hlt]; rintro ⟨e, b, he, -⟩; rw [hn] at he; cases he
  refine ⟨hn, ?_, ?_, ?_, ?_⟩
  · apply BitVec.eq_of_getLsbD_eq
    intro i hlt
    have := hreg i (by omega)
    simpa [registered, idWord, Nat.div_eq_of_lt hlt, Nat.mod_eq_of_lt hlt] using this
  · apply BitVec.eq_of_getLsbD_eq
    intro i hlt
    have := hreg (32 + i) (by omega)
    have h1 : (32 + i) / 32 = 1 := by omega
    have h2 : (32 + i) % 32 = i := by omega
    simpa [registered, idWord, h1, h2] using this
  · apply BitVec.eq_of_getLsbD_eq
    intro i hlt
    have : ¬slotBound c i = true := by
      rw [hi.slots]; rintro ⟨e, b, he, -⟩; rw [hn] at he; cases he
    simpa [slotBound] using this
  · apply BitVec.eq_of_getLsbD_eq
    intro i hlt
    have := hi.entries i hlt
    rw [hn] at this
    simpa using this

/-- Closing a list of IDs that covers the live bindings: their events, in the list's order, and a context
without bindings. -/
theorem closeIds_spec {h : Hdt} (ids : List Nat) (hnd : ids.Nodup) (hlt : ∀ i ∈ ids, i < numIds)
    (s : State) (hh : s.hdt = h) (hi : AllocInv h s.ctx)
    (hcov : ∀ e b, entry s.ctx e = some b → b.id ∈ ids) :
    ∃ t c, closeIds ids s = .ok t ∧ SameButAllocator (core s.ctx) c ∧ NoBindings c ∧ AllocInv h c
      ∧ ctlView t = { (ctlView s).ran (closeEvents h (ids.filterMap (bindingOf s.ctx)))
            s.ctlAnswers with core := c } := by
  induction ids generalizing s with
  | nil =>
    have hn : ∀ e, entry s.ctx e = none := fun e => by
      cases he : entry s.ctx e with
      | none => rfl
      | some b => exact absurd (hcov e b he) (by simp)
    exact ⟨s, core s.ctx, rfl, SameButAllocator.refl _, noBindings_of_no_entry (allocInv_core.2 hi) hn,
      allocInv_core.2 hi, by simp [CtlView.ran, closeEvents, ctlView]⟩
  | cons i ids ih =>
    rw [List.nodup_cons] at hnd
    have hilt := hlt i (by simp)
    cases hb : bindingOf s.ctx i with
    | none =>
      have hreg := (bindingOf_eq_none hi hilt).1 hb
      obtain ⟨t, c, h1, h2⟩ := ih hnd.2 (fun j hj => hlt j (by simp [hj])) s hh hi (by
        intro e b he
        rcases List.mem_cons.1 (hcov e b he) with hbi | hmem
        · have := (hi.ids i hilt).2 ⟨e, b, he, hbi⟩
          rw [hreg] at this; cases this
        · exact hmem)
      refine ⟨t, c, ?_, ?_⟩
      · simp only [closeIds, hreg, h1]; rfl
      · simpa [hb] using h2
    | some b =>
      obtain ⟨e, he, rfl⟩ := (bindingOf_eq_some hi).1 hb
      have hreg : registered s.ctx b.id = true := (hi.ids _ hilt).2 ⟨e, b, he, rfl⟩
      obtain ⟨u, h1, h2⟩ := unbind_spec s hh hi he
      have hrel := unbindStep_released (core s.ctx) (b := b) (entry_lt he) hilt
      have hi' := (allocInv_core.2 hi).released (c' := unbindStep e b (core s.ctx)) he hrel
      have hcu : core u.ctx = unbindStep e b (core s.ctx) := congrArg CtlView.core h2
      have hiu : AllocInv h u.ctx := allocInv_core.1 (by rw [hcu]; exact hi')
      have hent : ∀ k, entry u.ctx k = if k = e then none else entry s.ctx k := fun k => by
        have := hrel.1 k
        rw [← hcu] at this; exact this
      have hrel' : Released s.ctx u.ctx e b := by
        have : Released (core s.ctx) (core u.ctx) e b := by rw [hcu]; exact hrel
        exact this
      have hu : u.hdt = h := (congrArg CtlView.hdt h2).trans hh
      obtain ⟨t, c, h3, h4, h5, h6, h7⟩ := ih hnd.2 (fun j hj => hlt j (by simp [hj])) u hu hiu (by
        intro k x hk
        rw [hent] at hk
        split at hk
        · cases hk
        · rcases List.mem_cons.1 (hcov k x hk) with hxb | hmem
          · exact absurd (hi.sameId _ _ _ _ hk he hxb) ‹_›
          · exact hmem)
      refine ⟨t, c, ?_, ?_, h5, h6, ?_⟩
      · simp only [closeIds, hreg, h1, h3]; rfl
      · rw [hcu] at h4; exact (unbindStep_same _ _ _).trans h4
      · have hfm : ids.filterMap (bindingOf u.ctx) = ids.filterMap (bindingOf s.ctx) :=
          List.filterMap_congr fun j hj =>
            bindingOf_released hi he hrel' (by rintro rfl; exact hnd.1 hj)
        have ha : u.ctlAnswers = s.ctlAnswers := congrArg CtlView.answers h2
        rw [hfm, ha] at h7
        rw [h7, h2, List.filterMap_cons_some hb, closeEvents]
        have hlast : groupEmpty h (unbindStep e b (core s.ctx)) (groupOfSlot b.slot)
            = (ids.filterMap (bindingOf s.ctx)).all
                fun x => decide (groupOfSlot x.slot ≠ groupOfSlot b.slot) := by
          rw [Bool.eq_iff_iff, ← hcu, groupEmpty_iff (allocInv_core.2 hiu), List.all_eq_true]
          constructor
          · intro hall x hx
            obtain ⟨j, hj, hjx⟩ := List.mem_filterMap.1 hx
            obtain ⟨k, hk, hkx⟩ := (bindingOf_eq_some hi).1 hjx
            have hke : k ≠ e := by
              rintro rfl
              rw [he] at hk; cases hk
              exact hnd.1 (by rw [hkx]; exact hj)
            rw [decide_eq_true_iff]
            exact hall k x (by have := hent k; rw [if_neg hke] at this; exact this.trans hk)
          · intro hall k x hk
            have hk' : entry u.ctx k = some x := hk
            rw [hent] at hk'
            split at hk'
            · cases hk'
            · have hmem : x.id ∈ ids := by
                rcases List.mem_cons.1 (hcov k x hk') with hxb | hmem
                · exact absurd (hi.sameId _ _ _ _ hk' he hxb) ‹_›
                · exact hmem
              have := hall x (List.mem_filterMap.2
                ⟨x.id, hmem, (bindingOf_eq_some hi).2 ⟨k, hk', rfl⟩⟩)
              simpa using this
        rw [hlast]
        simp [CtlView.ran]

/-- *CloseAllBindings* (R715). -/
theorem closeAllBindings_spec (s : State) (hi : AllocInv s.hdt s.ctx) :
    ∃ t c, closeAllBindings s = .ok t ∧ SameButAllocator (core s.ctx) c ∧ NoBindings c
      ∧ AllocInv s.hdt c
      ∧ ctlView t = { (ctlView s).ran (closeEvents s.hdt (liveById s.ctx)) s.ctlAnswers with
            core := c } :=
  closeIds_spec (List.range numIds) List.nodup_range (fun _ hi => List.mem_range.1 hi) s rfl hi
    fun _ _ he => List.mem_range.2 (hi.idRange _ _ he)

/-! ### Room for a bind (R702) -/

/-- A group that is not full has a free target slot. -/
theorem exists_targetSlot {h : Hdt} {c : Session} {svc : ServiceType}
    (hf : groupFull h c (groupOf svc) = false) :
    ∃ slot, TargetSlot h c svc slot ∧ slotBound c slot = false
      ∧ ∀ id thr, slotFits h ⟨id, slot, svc, thr⟩ := by
  cases svc with
  | video => exact ⟨0, rfl, by simpa [groupFull, slotsOf, groupOf] using hf, fun _ _ => rfl⟩
  | audio => exact ⟨0, rfl, by simpa [groupFull, slotsOf, groupOf] using hf, fun _ _ => rfl⟩
  | data =>
    have hex : ∃ k, k < h.alloc.numDataSlots ∧ slotBound c (k + 1) = false := by
      simpa [groupFull, slotsOf, groupOf] using hf
    obtain ⟨hk, hb⟩ := Nat.find_spec hex
    refine ⟨Nat.find hex + 1, ⟨by omega, by omega, hb, fun j hj hjk => ?_⟩, hb, fun _ _ => ⟨?_, ?_⟩⟩
    · have := Nat.find_min hex (m := j - 1) (by omega)
      rw [Nat.sub_add_cancel hj] at this
      rw [← Bool.not_eq_false]
      exact fun hjf => this ⟨by omega, hjf⟩
    · exact Nat.le_add_left _ _
    · exact hk

/-- An occupied entry below every free one gives the first free entry. -/
theorem exists_firstFreeEntry_of_none {h : Hdt} {c : Session}
    (hex : ∃ e, e < maxBindings h ∧ entry c e = none) : ∃ e, FirstFreeEntry h c e := by
  classical
  obtain ⟨h1, h2⟩ := Nat.find_spec hex
  exact ⟨Nat.find hex, h1, h2, fun k hk hn => Nat.find_min hex hk ⟨by omega, hn⟩⟩

/-- In a multi-sub-channel build an entry is free whenever a slot is (R702). -/
theorem exists_firstFreeEntry {h : Hdt} {c : Session} {slot : Nat} (hi : AllocInv h c)
    (hm : h.alloc.multiSubch = true) (hs : slot ≤ h.alloc.numDataSlots)
    (hfree : slotBound c slot = false) : ∃ e, FirstFreeEntry h c e := by
  apply exists_firstFreeEntry_of_none
  by_contra hn
  have hmax : maxBindings h = h.alloc.numDataSlots + 1 := by simp [maxBindings, hm]; omega
  have hsome : ∀ e : Fin (h.alloc.numDataSlots + 1), ∃ b, entry c e = some b := fun e => by
    cases he : entry c e with
    | none => exact absurd ⟨e.val, by omega, he⟩ hn
    | some b => exact ⟨b, rfl⟩
  choose b hb using hsome
  have hle : ∀ e, (b e).slot < h.alloc.numDataSlots + 1 := fun e => by
    have := hi.fits _ _ (hb e)
    unfold slotFits at this
    split at this <;> omega
  let f : Fin (h.alloc.numDataSlots + 1) → Fin (h.alloc.numDataSlots + 1) :=
    fun e => ⟨(b e).slot, hle e⟩
  have hinj : Function.Injective f := fun x y hxy => by
    have := hi.sameSlot _ _ _ _ (hb x) (hb y) (congrArg Fin.val hxy)
    exact Fin.ext this
  obtain ⟨e, he⟩ := Finite.injective_iff_surjective.1 hinj ⟨slot, by omega⟩
  have hslot : (b e).slot = slot := congrArg Fin.val he
  have := (hi.slots slot).2 ⟨e, b e, hb e, hslot⟩
  rw [hfree] at this
  cases this

/-! ### Closing all, then tuning (R700, R800) -/

/-- The beginning that a re-tuning open and a scan share: the flag, the closings, the tune. -/
theorem closeAndTune_ran {f : Nat} {as : List Byte} {es : List Event} {clk : Option AdcClockType}
    {r : Except ErrorCode Unit} (s : State) (hi : AllocInv s.hdt s.ctx)
    (hT : Tune s.hdt s.ctx s.ctx.mode 0 f as es clk r) (rest : List Byte)
    (hs : s.ctlAnswers = as ++ rest) :
    ∃ u t c, closeAllBindings (setCcip true s) = .ok u
      ∧ synthSetFrequency u.ctx.mode 0 f u = (r, t)
      ∧ SameButAllocator (core s.ctx) c ∧ NoBindings c ∧ AllocInv s.hdt c
      ∧ ctlView t = { (ctlView s).ran (closeEvents s.hdt (liveById s.ctx) ++ es) rest with
            core := { c with ccip := true, adcClk := clk } } := by
  have h1 := ctlView_setCcip true s
  have c1 : core (setCcip true s).ctx = { core s.ctx with ccip := true } :=
    congrArg CtlView.core h1
  generalize hv : setCcip true s = v at h1 c1
  have d1 : v.hdt = s.hdt := congrArg CtlView.hdt h1
  have a1 : v.ctlAnswers = s.ctlAnswers := congrArg CtlView.answers h1
  have hi1 : AllocInv v.hdt v.ctx := by
    rw [d1, ← allocInv_core, c1]
    have h := allocInv_core.2 hi
    exact ⟨h.1, h.2, h.3, h.4, h.5, h.6, h.7, h.8, h.9⟩
  have hlive : liveById v.ctx = liveById s.ctx := by
    have hr : (core v.ctx).reg = s.ctx.reg := by rw [c1]; rfl
    have hr : v.ctx.reg = s.ctx.reg := hr
    unfold liveById entry; rw [hr]
  obtain ⟨u, c, e1, e2, e3, e4, e5⟩ := closeAllBindings_spec v hi1
  rw [c1] at e2
  have hu : core u.ctx = c := congrArg CtlView.core e5
  have d2 : u.hdt = s.hdt := (congrArg CtlView.hdt e5).trans d1
  have hm : s.ctx.mode = u.ctx.mode := (congrArg Session.mode (hu.trans e2)).symm
  have hx : s.ctx.xtal = u.ctx.xtal := (congrArg Session.xtal (hu.trans e2)).symm
  have ha : s.ctx.adcClk = u.ctx.adcClk := (congrArg Session.adcClk (hu.trans e2)).symm
  obtain ⟨t, h2, h3⟩ := tune_ran u (by rw [d2]; exact hT.congr hm hx ha) rest
    ((show u.ctlAnswers = v.ctlAnswers from congrArg CtlView.answers e5).trans (a1.trans hs))
  refine ⟨u, t, { c with ccip := s.ctx.ccip }, e1, by rw [← hm]; exact h2, ?_, e3, ?_, ?_⟩
  · rw [e2]; rfl
  · rw [d1] at e4
    exact ⟨e4.1, e4.2, e4.3, e4.4, e4.5, e4.6, e4.7, e4.8, e4.9⟩
  · have hc : c.ccip = true := by rw [e2]
    rw [h3, hu, e5, h1, hlive, d1, ← hc]
    simp [CtlView.ran]

end Sys2Proof.Machine
end

