-- ==== Sys2Proof/Laws/PerInstr.lean ====
section
/-! SUPPORT. The family `Frame`, one lemma per command: its frame's first byte fixes the frame's length
(spec/30_encoding.md R301, R302), and no frame is longer than the longest format. -/

namespace Sys2Proof.Laws.Frame

/-- The frame starts with an opcode whose format has exactly the frame's length (R301, R302), at most
`longestFrame`. -/
def Statement (i : Instr) : Prop :=
  ∃ op rest, encode i = op :: rest ∧ frameLength op = some (encode i).length
    ∧ (encode i).length ≤ longestFrame

theorem init (mode : ReceiverMode) : Statement (.init mode) := ⟨_, _, rfl, rfl, Nat.le_of_ble_eq_true rfl⟩

theorem adcConfigure (mode : ReceiverMode) (clk : AdcClockType) :
    Statement (.adcConfigure mode clk) := ⟨_, _, rfl, rfl, Nat.le_of_ble_eq_true rfl⟩

theorem adcChangeClock (mode : ReceiverMode) (clk : AdcClockType) :
    Statement (.adcChangeClock mode clk) := ⟨_, _, rfl, rfl, Nat.le_of_ble_eq_true rfl⟩

theorem setFreq (mode : ReceiverMode) (ch freq : Nat) : Statement (.setFreq mode ch freq) :=
  ⟨_, _, rfl, rfl, Nat.le_of_ble_eq_true rfl⟩

theorem scanFreq (freq : Nat) : Statement (.scanFreq freq) := ⟨_, _, rfl, rfl, Nat.le_of_ble_eq_true rfl⟩

theorem openSubch (freq id : Nat) (svc : ServiceType) (thr : Nat) :
    Statement (.openSubch freq id svc thr) := ⟨_, _, rfl, rfl, Nat.le_of_ble_eq_true rfl⟩

theorem closeSubch (id : Nat) : Statement (.closeSubch id) := ⟨_, _, rfl, rfl, Nat.le_of_ble_eq_true rfl⟩

theorem closeAllSubch : Statement .closeAllSubch := ⟨_, _, rfl, rfl, Nat.le_of_ble_eq_true rfl⟩

theorem disableStreamOut : Statement .disableStreamOut := ⟨_, _, rfl, rfl, Nat.le_of_ble_eq_true rfl⟩

theorem getLockStatus : Statement .getLockStatus := ⟨_, _, rfl, rfl, Nat.le_of_ble_eq_true rfl⟩

theorem getPer : Statement .getPer := ⟨_, _, rfl, rfl, Nat.le_of_ble_eq_true rfl⟩

theorem getRssi : Statement .getRssi := ⟨_, _, rfl, rfl, Nat.le_of_ble_eq_true rfl⟩

theorem getCnr : Statement .getCnr := ⟨_, _, rfl, rfl, Nat.le_of_ble_eq_true rfl⟩

theorem getBer : Statement .getBer := ⟨_, _, rfl, rfl, Nat.le_of_ble_eq_true rfl⟩

theorem getCer : Statement .getCer := ⟨_, _, rfl, rfl, Nat.le_of_ble_eq_true rfl⟩

theorem getAntennaLevel (cer : Nat) : Statement (.getAntennaLevel cer) :=
  ⟨_, _, rfl, rfl, Nat.le_of_ble_eq_true rfl⟩

theorem getPrevFreq : Statement .getPrevFreq := ⟨_, _, rfl, rfl, Nat.le_of_ble_eq_true rfl⟩

end Sys2Proof.Laws.Frame
end

