-- ==== Sys2Proof/Laws/Ports.lean ====
section
/-! SUPPORT. What a port call does whatever the oracle answers (spec/20_memory.md R203, R204): the control
agent's view gains exactly its event; and what every operation keeps: the HDT, the trace and the
replies so far as a prefix, and a pending refusal; and what the getter agent can do under the flag. -/

namespace Sys2Proof.Machine

/-! ### One call, whatever the answer -/

/-- The event of a call with this answer. -/
def eventOf : PortOp → Byte → Event
  | .rd r, b => .rd r b
  | .wr r v, _ => .wr r v
  | .wrM r m v, _ => .wrM r m v
  | .dlyMs n, _ => .dlyMs n
  | .dlyUs n, _ => .dlyUs n

/-- The scripted answers a call leaves. -/
def answersLeft : PortOp → List Byte → List Byte
  | .rd _, as => as.tail
  | .wr _ _, as => as
  | .wrM _ _ _, as => as
  | .dlyMs _, as => as
  | .dlyUs _, as => as

/-- A control port call adds its event to the view, and a read takes a scripted answer if one is left. -/
theorem call_ran (op : PortOp) (s : State) :
    ctlView (call op s).2
      = (ctlView s).ran [eventOf op (call op s).1] (answersLeft op s.ctlAnswers) := by
  have hv := ctlView_interleave s
  cases op with
  | rd r =>
    have ha : (interleave s).ctlAnswers = s.ctlAnswers := interleave_ctlAnswers s
    cases h : (interleave s).ctlAnswers with
    | nil =>
      rw [h] at ha
      simp only [call, perform, oracle, h, ctlView_record_control, eventOf, answersLeft, ← ha, hv]
      have h2 : (ctlView s).answers = [] := ha.symm
      simp [CtlView.addEvent, CtlView.ran, h2]
    | cons b bs =>
      rw [h] at ha
      simp only [call, perform, oracle, h, ctlView_record_control, eventOf, answersLeft, ← ha, ← hv]
      simp [ctlView, CtlView.addEvent, CtlView.ran, eventsOf, repliesOf]
  | wr r v => exact wr_ran r v s
  | wrM r m v => exact wrM_ran r m v s
  | dlyMs n => exact delayMs_ran n s
  | dlyUs n => exact delayUs_ran n s

/-- A read, whatever its answer. -/
theorem rd_any (r : Reg) (s : State) :
    ctlView (rd r s).2 = (ctlView s).ran [.rd r (rd r s).1] s.ctlAnswers.tail :=
  call_ran (.rd r) s

/-- A 24-bit read, whatever its answers. -/
theorem rd24_any (r : Reg3) (s : State) :
    ∃ b : Read3, (rd24 r s).1 = b.value
      ∧ ctlView (rd24 r s).2 = (ctlView s).ran (rd24Events r b) s.ctlAnswers.tail.tail.tail := by
  have a := rd_any r.h s
  have b := rd_any r.m (rd r.h s).2
  have c := rd_any r.l (rd r.m (rd r.h s).2).2
  refine ⟨⟨(rd r.h s).1, (rd r.m (rd r.h s).2).1, (rd r.l (rd r.m (rd r.h s).2).2).1⟩, rfl, ?_⟩
  show ctlView (rd r.l (rd r.m (rd r.h s).2).2).2 = _
  rw [c, answers_of_ran b, answers_of_ran a, b, a]
  simp [rd24Events]

/-- A poll of at most `n` reads, whatever their answers: at most `n` reads and `n - 1` delays, no write. -/
theorem pollBit_any (l : BitLoc) (ms n : Nat) (s : State) :
    ∃ es as, ctlView (pollBit l ms n s).2 = (ctlView s).ran es as
      ∧ es.countP isRead ≤ n ∧ es.countP (isDelayMs ms) ≤ n - 1 ∧ es.countP isWrite = 0
      ∧ ∀ e ∈ es, isRead e = true ∨ e = .dlyMs ms := by
  induction n generalizing s with
  | zero => exact ⟨[], s.ctlAnswers, by simp [pollBit, CtlView.ran, ctlView], by simp⟩
  | succ n ih =>
    have h1 : ctlView (rdBit l s).2
        = (ctlView s).ran [.rd l.reg (rd l.reg s).1] s.ctlAnswers.tail := rd_any l.reg s
    simp only [pollBit]
    cases (rdBit l s).1 with
    | true =>
      exact ⟨_, _, h1, by simp [isRead], by simp [isDelayMs], by simp [isWrite], by simp [isRead]⟩
    | false =>
      cases n with
      | zero =>
        exact ⟨_, _, h1, by simp [isRead], by simp [isDelayMs], by simp [isWrite], by simp [isRead]⟩
      | succ n =>
        have h2 := delayMs_ran ms (rdBit l s).2
        obtain ⟨es, as, h3, h4, h5, h6, h7⟩ := ih (delayMs ms (rdBit l s).2)
        refine ⟨[.rd l.reg (rd l.reg s).1, .dlyMs ms] ++ es, as, ?_, ?_, ?_, ?_, ?_⟩
        · simp only [Bool.false_eq_true, if_false, Nat.add_one_ne_zero]
          rw [h3, h2, h1]; simp
        · simp [List.countP_cons, isRead]; omega
        · simp [isDelayMs]; omega
        · simp [isWrite, h6]
        · intro e he
          rcases List.mem_append.1 he with he | he
          · simp at he; rcases he with rfl | rfl <;> simp [isRead]
          · exact h7 e he

/-! ### What every operation keeps -/

/-- The HDT stays, the trace and the replies only grow, and a pending refusal stays. -/
structure Grows (s t : State) : Prop where
  hdt : t.hdt = s.hdt
  trace : s.trace <+: t.trace
  replies : s.replies <+: t.replies
  refused : s.getterRefused = true → t.getterRefused = true

theorem Grows.refl (s : State) : Grows s s := ⟨rfl, List.prefix_rfl, List.prefix_rfl, id⟩

theorem Grows.trans {s t u : State} (h : Grows s t) (h' : Grows t u) : Grows s u :=
  ⟨h'.hdt.trans h.hdt, h.trace.trans h'.trace, h.replies.trans h'.replies,
    fun hr => h'.refused (h.refused hr)⟩

theorem grows_reply (a : Agent) (r : Reply) (s : State) : Grows s (reply a r s) :=
  ⟨rfl, List.prefix_rfl, List.prefix_append _ _, id⟩

theorem grows_getter (g : Option GetterRun) (s : State) : Grows s { s with getter := g } :=
  ⟨rfl, List.prefix_rfl, List.prefix_rfl, id⟩

theorem grows_inbox (bs : List Byte) (s : State) : Grows s { s with inbox := bs } :=
  ⟨rfl, List.prefix_rfl, List.prefix_rfl, id⟩

theorem grows_sched (ns : List Nat) (s : State) : Grows s { s with sched := ns } :=
  ⟨rfl, List.prefix_rfl, List.prefix_rfl, id⟩

theorem grows_refuseGetter (s : State) : Grows s (refuseGetter s) :=
  ⟨rfl, List.prefix_rfl, List.prefix_rfl, fun _ => rfl⟩

theorem grows_perform (a : Agent) (op : PortOp) (s : State) : Grows s (perform a op s).2 := by
  cases op with
  | rd r =>
    cases a
    · cases h : s.ctlAnswers <;> simp only [perform, oracle, h] <;>
        exact ⟨rfl, List.prefix_append _ _, List.prefix_rfl, id⟩
    · cases h : s.getAnswers <;> simp only [perform, oracle, h] <;>
        exact ⟨rfl, List.prefix_append _ _, List.prefix_rfl, id⟩
  | _ => exact ⟨rfl, List.prefix_append _ _, List.prefix_rfl, id⟩

theorem grows_storeLevel (raw prev : Nat) (s : State) : Grows s (storeLevel raw prev s) :=
  ⟨rfl, List.prefix_rfl, List.prefix_append _ _, id⟩

theorem grows_runProg (prev : Option Nat) (p : GetterProg) (s : State) :
    Grows s (runProg prev p s) := by
  induction p generalizing s with
  | ret v => exact grows_reply _ _ _
  | level raw => exact grows_storeLevel _ _ _
  | call op k ih => exact (grows_perform _ _ _).trans (ih _ _)

theorem grows_advanceGetter (g : GetterRun) (s : State) : Grows s (advanceGetter g s) := by
  unfold advanceGetter
  split
  · exact (grows_perform .getter _ s).trans (grows_getter _ _)
  · exact grows_getter _ _
  · exact (grows_getter none s).trans (grows_storeLevel _ _ _)
  · exact (grows_getter none s).trans (grows_reply _ _ _)

theorem grows_getterMove (s : State) : Grows s (getterMove s) := by
  unfold getterMove
  split
  · exact grows_advanceGetter _ _
  · split
    · split
      · unfold startGetter
        split
        · exact ⟨rfl, List.prefix_rfl, List.prefix_append _ _, id⟩
        · exact ⟨rfl, List.prefix_rfl, List.prefix_rfl, id⟩
      · exact grows_refuseGetter _
    · exact .refl _

theorem grows_getterMoves (n : Nat) (s : State) : Grows s (getterMoves n s) := by
  induction n generalizing s with
  | zero => exact .refl _
  | succ n ih => exact (grows_getterMove s).trans (ih _)

theorem grows_interleave (s : State) : Grows s (interleave s) := by
  unfold interleave
  split
  · exact .refl _
  · exact (grows_sched _ s).trans (grows_getterMoves _ _)

theorem grows_call (op : PortOp) (s : State) : Grows s (call op s).2 :=
  (grows_interleave s).trans (grows_perform _ _ _)

theorem grows_doAction (as : Action) (s : State) : Grows s (doAction as s) := by
  induction as generalizing s with
  | nil => exact .refl _
  | cons w ws ih => exact (grows_call _ _).trans (ih _)

theorem grows_pollBit (l : BitLoc) (ms n : Nat) (s : State) : Grows s (pollBit l ms n s).2 := by
  induction n generalizing s with
  | zero => exact .refl _
  | succ n ih =>
    have h1 : Grows s (rdBit l s).2 := grows_call _ _
    simp only [pollBit]
    cases (rdBit l s).1 with
    | true => exact h1
    | false =>
      cases n with
      | zero => exact h1
      | succ n => exact (h1.trans (grows_call _ _)).trans (ih _)

theorem grows_finishGetter (s : State) : Grows s (finishGetter s) := by
  unfold finishGetter
  split
  · exact .refl _
  · exact (grows_getter none s).trans (grows_runProg _ _ _)

theorem grows_getterOp (c : GetterCmd) (s : State) : Grows s (getterOp c s) := by
  unfold getterOp
  split
  · exact (grows_finishGetter s).trans (grows_reply _ _ _)
  · exact (grows_finishGetter s).trans (grows_runProg _ _ _)

/-! ### Under the in-progress flag (R224, R901) -/

/-- Under the flag, with no getter operation in progress, the getter agent's moves only answer sentinels. -/
theorem getterMoves_underFlag (n : Nat) (s : State) (hi : s.ctx.initialized = true)
    (hc : s.ctx.ccip = true) (hg : s.getter = none) :
    ∃ (bs : List Byte) (cs : List GetterCmd), getterMoves n s =
      { s with
        inbox := bs
        replies := s.replies ++ cs.map fun c => ⟨.getter, .value (sentinel c)⟩ } := by
  induction n generalizing s with
  | zero => exact ⟨s.inbox, [], by simp [getterMoves]⟩
  | succ n ih =>
    cases h : nextGetter s with
    | none =>
      obtain ⟨bs, cs, h'⟩ := ih s hi hc hg
      exact ⟨bs, cs, by rw [getterMoves]; simpa only [getterMove, hg, h] using h'⟩
    | some p =>
      obtain ⟨bs, cs, h'⟩ := ih (reply .getter (.value (sentinel p.1)) { s with inbox := p.2 }) hi hc hg
      refine ⟨bs, p.1 :: cs, ?_⟩
      have hm : getterMove s = reply .getter (.value (sentinel p.1)) { s with inbox := p.2 } := by
        simp only [getterMove, hg, h, hi, if_true, startGetter, hc]
      rw [getterMoves, hm, h']
      simp [reply]

/-- So does an interleaving point of the control agent. -/
theorem interleave_underFlag (s : State) (hi : s.ctx.initialized = true) (hc : s.ctx.ccip = true)
    (hg : s.getter = none) :
    ∃ (ns : List Nat) (bs : List Byte) (cs : List GetterCmd), interleave s =
      { s with
        sched := ns
        inbox := bs
        replies := s.replies ++ cs.map fun c => ⟨.getter, .value (sentinel c)⟩ } := by
  unfold interleave
  split
  · exact ⟨s.sched, s.inbox, [], by simp⟩
  · rename_i n ns _
    obtain ⟨bs, cs, h⟩ := getterMoves_underFlag n { s with sched := ns } hi hc hg
    exact ⟨ns, bs, cs, h⟩

end Sys2Proof.Machine
end

