-- ==== Sys2Proof/Laws/Scan.lean ====
section
/-! SUPPORT. The parts of a channel scan under scripted answers (spec/44_channel_scan.md): the outer poll's
iterations, the pre-gate, and one iteration and a run of iterations of phase f, of phase g and of the lock
wait; and the whole poll whatever the oracle answers. -/

namespace Sys2Proof.Machine

/-- A read of the transmission-mode field (R323). -/
theorem rdTxMode_ran (s : State) {b : Byte} {bs : List Byte} (h : s.ctlAnswers = b :: bs) :
    (rdTxMode s).1 = field2 s.hdt.scan.txmode.lo b
      ∧ ctlView (rdTxMode s).2 = (ctlView s).ran [.rd s.hdt.scan.txmode.reg b] bs := by
  obtain ⟨h1, h2⟩ := rd_ran s.hdt.scan.txmode.reg s h
  exact ⟨by simp only [rdTxMode, h1], h2⟩

/-! ### The outer poll (R810) -/

/-- One iteration of the outer poll: its three reads, then the branch its status takes. -/
theorem scanPoll_step (n : Nat) (s : State) (x : Read3) (rest : List Byte)
    (hs : s.ctlAnswers = x.bytes ++ rest) :
    ∃ u, ctlView u = (ctlView s).ran (rd24Events (scanRegs s.hdt) x) rest
      ∧ scanPoll (n + 1) s =
        if s.hdt.scan.notSignal.contains x.h then (.channelNotDetected, u)
        else if s.hdt.scan.signal.contains x.h then classify (x.m.toNat * 256 + x.l.toNat) u
        else scanPoll n (delayUs scanPollUs u) := by
  obtain ⟨a1, a2⟩ := rd_ran s.hdt.scan.doneReg s hs
  obtain ⟨b1, b2⟩ := rd16_ran s.hdt.scan.pwr (rd s.hdt.scan.doneReg s).2 (answers_of_ran a2)
  have ha := hdt_of_ran a2
  generalize hsd : rd s.hdt.scan.doneReg s = p at a1 a2 b1 b2 ha
  have hb := (hdt_of_ran b2).trans ha
  generalize hpw : rd16 s.hdt.scan.pwr p.2 = q at b1 b2 hb
  refine ⟨q.2, by rw [b2, a2]; simp [rd24Events, scanRegs], ?_⟩
  have e : scanPoll (n + 1) s =
      if (rd16 (rd s.hdt.scan.doneReg s).2.hdt.scan.pwr (rd s.hdt.scan.doneReg s).2).2.hdt.scan.notSignal.contains
          (rd s.hdt.scan.doneReg s).1 then
        (.channelNotDetected,
          (rd16 (rd s.hdt.scan.doneReg s).2.hdt.scan.pwr (rd s.hdt.scan.doneReg s).2).2)
      else if (rd16 (rd s.hdt.scan.doneReg s).2.hdt.scan.pwr (rd s.hdt.scan.doneReg s).2).2.hdt.scan.signal.contains
          (rd s.hdt.scan.doneReg s).1 then
        classify (rd16 (rd s.hdt.scan.doneReg s).2.hdt.scan.pwr (rd s.hdt.scan.doneReg s).2).1
          (rd16 (rd s.hdt.scan.doneReg s).2.hdt.scan.pwr (rd s.hdt.scan.doneReg s).2).2
      else scanPoll n (delayUs scanPollUs
        (rd16 (rd s.hdt.scan.doneReg s).2.hdt.scan.pwr (rd s.hdt.scan.doneReg s).2).2) := rfl
  rw [e, hsd, ha, hpw, hb, a1, b1]
  rfl

/-- Undecided iterations: three reads and 40 µs each. -/
theorem scanPoll_undecided (und : List Read3) (n : Nat) (s : State) (rest : List Byte)
    (hu : ∀ r ∈ und, r.h ∉ s.hdt.scan.notSignal ∧ r.h ∉ s.hdt.scan.signal)
    (hs : s.ctlAnswers = readBytes und ++ rest) :
    ∃ t, scanPoll (und.length + n) s = scanPoll n t
      ∧ ctlView t = (ctlView s).ran (undecidedEvents s.hdt und) rest := by
  induction und generalizing s with
  | nil =>
    exact ⟨s, by simp, by
      simp [CtlView.ran, undecidedEvents, ctlView, ← show _ = rest from hs]⟩
  | cons x xs ih =>
    obtain ⟨u, h1, h2⟩ := scanPoll_step (xs.length + n) s x (readBytes xs ++ rest)
      (by simpa [readBytes] using hs)
    obtain ⟨q1, q2⟩ := hu x (by simp)
    have h3 := delayUs_ran scanPollUs u
    have hh := (hdt_of_ran h3).trans (hdt_of_ran h1)
    obtain ⟨t, h4, h5⟩ := ih (delayUs scanPollUs u) (by rw [hh]; exact fun y hy => hu y (by simp [hy]))
      ((answers_of_ran h3).trans (answers_of_ran h1))
    refine ⟨t, ?_, ?_⟩
    · rw [← h4, show (x :: xs).length + n = (xs.length + n) + 1 by simp; omega, h2,
        if_neg (by simpa using q1), if_neg (by simpa using q2)]
    · rw [h5, hh, h3, h1]
      simp [undecidedEvents, scanPollUs]

/-! ### The pre-gate (R811, R812) -/

/-- The classifier's first four reads, then the pre-gate's branch. -/
theorem classify_reads (pw : Nat) (s : State) (g tx ch cl : Byte) (rest : List Byte)
    (hs : s.ctlAnswers = g :: tx :: ch :: cl :: rest) :
    ∃ u, ctlView u = (ctlView s).ran
        [.rd s.hdt.scan.preagcReg g, .rd s.hdt.scan.txmode.reg tx, .rd s.hdt.scan.coarseFreq.h ch,
          .rd s.hdt.scan.coarseFreq.l cl] rest
      ∧ classify pw s =
        if preGate (scanThr s.hdt (field2 s.hdt.scan.txmode.lo tx)) (join2 ch cl) pw g.toNat then
          match phaseF (field2 s.hdt.scan.txmode.lo tx) g.toNat fIters 1 0 u with
          | (none, v) => (.channelNotDetected, v)
          | (some bad, v) =>
            phaseG (field2 s.hdt.scan.txmode.lo tx) g.toNat
              (phaseGLimit v.hdt (field2 s.hdt.scan.txmode.lo tx) bad) gIters 0 v
        else (.channelNotDetected, u) := by
  obtain ⟨a1, a2⟩ := rd_ran s.hdt.scan.preagcReg s hs
  have ha := hdt_of_ran a2
  generalize hp : rd s.hdt.scan.preagcReg s = p at a1 a2 ha
  obtain ⟨b1, b2⟩ := rdTxMode_ran p.2 (answers_of_ran a2)
  have hb := (hdt_of_ran b2).trans ha
  rw [ha] at b1 b2
  generalize hq : rdTxMode p.2 = q at b1 b2 hb
  obtain ⟨c1, c2⟩ := rd16_ran s.hdt.scan.coarseFreq q.2 (answers_of_ran b2)
  have hc := (hdt_of_ran c2).trans hb
  generalize hr : rd16 s.hdt.scan.coarseFreq q.2 = r at c1 c2 hc
  refine ⟨r.2, by rw [c2, b2, a2]; simp, ?_⟩
  rw [← a1, ← b1, ← c1]
  have e : classify pw s =
      if preGate (scanThr (rd16 (rdTxMode (rd s.hdt.scan.preagcReg s).2).2.hdt.scan.coarseFreq
          (rdTxMode (rd s.hdt.scan.preagcReg s).2).2).2.hdt
            (rdTxMode (rd s.hdt.scan.preagcReg s).2).1)
          (rd16 (rdTxMode (rd s.hdt.scan.preagcReg s).2).2.hdt.scan.coarseFreq
            (rdTxMode (rd s.hdt.scan.preagcReg s).2).2).1 pw
          (rd s.hdt.scan.preagcReg s).1.toNat then
        match phaseF (rdTxMode (rd s.hdt.scan.preagcReg s).2).1
            (rd s.hdt.scan.preagcReg s).1.toNat fIters 1 0
            (rd16 (rdTxMode (rd s.hdt.scan.preagcReg s).2).2.hdt.scan.coarseFreq
              (rdTxMode (rd s.hdt.scan.preagcReg s).2).2).2 with
        | (none, v) => (.channelNotDetected, v)
        | (some bad, v) =>
          phaseG (rdTxMode (rd s.hdt.scan.preagcReg s).2).1 (rd s.hdt.scan.preagcReg s).1.toNat
            (phaseGLimit v.hdt (rdTxMode (rd s.hdt.scan.preagcReg s).2).1 bad) gIters 0 v
      else
        (.channelNotDetected,
          (rd16 (rdTxMode (rd s.hdt.scan.preagcReg s).2).2.hdt.scan.coarseFreq
            (rdTxMode (rd s.hdt.scan.preagcReg s).2).2).2) := rfl
  rw [e, hp, hq, hb, hr, hc]

/-! ### Phase f (R813) -/

theorem outOfRange_cons (h : Hdt) (tm : Fin 4) (x : Read3) (xs : List Read3) :
    outOfRange h tm (x :: xs) = outOfRange h tm [x] + outOfRange h tm xs := by
  simp only [outOfRange, List.countP_cons, List.countP_nil]; omega

theorem outOfRange_append (h : Hdt) (tm : Fin 4) (xs ys : List Read3) :
    outOfRange h tm (xs ++ ys) = outOfRange h tm xs + outOfRange h tm ys :=
  List.countP_append

/-- One iteration of phase f: its delay and reads, then the branch it takes. -/
theorem phaseF_step (tm : Fin 4) (g n i bad : Nat) (s : State) (x : Read3) (rest : List Byte)
    (hs : s.ctlAnswers = x.bytes ++ rest) :
    ∃ u, ctlView u = (ctlView s).ran (nullEvents s.hdt [x]) rest
      ∧ phaseF tm g (n + 1) i bad s =
        if field2 s.hdt.scan.txmode.lo x.l ≠ tm then (none, u)
        else if fCheckFrom ≤ i ∧ fBadMax < bad + outOfRange s.hdt tm [x]
            ∧ g < (scanThr s.hdt tm).gainLow then (none, u)
        else if fAcceptAt ≤ i then (some (bad + outOfRange s.hdt tm [x]), u)
        else phaseF tm g n (i + 1) (bad + outOfRange s.hdt tm [x]) u := by
  have h0 := delayMs_ran phaseMs s
  have hs' : s.ctlAnswers = x.h :: x.m :: x.l :: rest := hs
  obtain ⟨h1, h2⟩ := rd16_ran s.hdt.scan.nullLen (delayMs phaseMs s) ((answers_of_ran h0).trans hs')
  have hh2 := (hdt_of_ran h2).trans (hdt_of_ran h0)
  obtain ⟨h3, h4⟩ := rdTxMode_ran (rd16 s.hdt.scan.nullLen (delayMs phaseMs s)).2
    (answers_of_ran h2)
  have hh := (hdt_of_ran h4).trans hh2
  rw [hh2] at h3 h4
  have hout : (if join2 x.h x.m < (scanThr s.hdt tm).nlMin
      ∨ (scanThr s.hdt tm).nlMax < join2 x.h x.m then bad + 1 else bad)
      = bad + outOfRange s.hdt tm [x] := by
    by_cases hc : x.h.toNat * 256 + x.m.toNat < (scanThr s.hdt tm).nlMin
        ∨ (scanThr s.hdt tm).nlMax < x.h.toNat * 256 + x.m.toNat <;>
      simp [outOfRange, join2, hc]
  refine ⟨(rdTxMode (rd16 s.hdt.scan.nullLen (delayMs phaseMs s)).2).2, ?_, ?_⟩
  · rw [h4, h2, h0]
    simp [nullEvents, rd24Events, phaseMs]
  · simp only [phaseF, h1, h3, hh, hout]

/-- Readings of a stable mode that phase f neither rejects nor accepts: it goes on with their count. -/
theorem phaseF_goesOn (tm : Fin 4) (g : Nat) (nulls : List Read3) (n i bad : Nat) (s : State)
    (rest : List Byte) (hi : i + nulls.length ≤ 15) (hm : Stable s.hdt tm nulls)
    (hr : i + nulls.length = 15 →
      ¬(10 < bad + outOfRange s.hdt tm nulls ∧ g < (scanThr s.hdt tm).gainLow))
    (hs : s.ctlAnswers = readBytes nulls ++ rest) :
    ∃ u, ctlView u = (ctlView s).ran (nullEvents s.hdt nulls) rest
      ∧ phaseF tm g (nulls.length + n) i bad s
        = phaseF tm g n (i + nulls.length) (bad + outOfRange s.hdt tm nulls) u := by
  induction nulls generalizing i bad s with
  | nil =>
    exact ⟨s, by simp [CtlView.ran, nullEvents, ctlView, ← show _ = rest from hs],
      by simp [outOfRange]⟩
  | cons x xs ih =>
    obtain ⟨u, h1, h2⟩ := phaseF_step tm g (xs.length + n) i bad s x (readBytes xs ++ rest)
      (by simpa [readBytes] using hs)
    have hh := hdt_of_ran h1
    rw [outOfRange_cons] at hr
    simp only [List.length_cons] at hi hr
    obtain ⟨v, h3, h4⟩ := ih (i + 1) (bad + outOfRange s.hdt tm [x]) u (by omega)
      (by rw [hh]; exact fun y hy => hm y (by simp [hy]))
      (by rw [hh]; exact fun h => by have := hr (by omega); omega) (answers_of_ran h1)
    have hrej : ¬(fCheckFrom ≤ i ∧ fBadMax < bad + outOfRange s.hdt tm [x]
        ∧ g < (scanThr s.hdt tm).gainLow) := by
      rintro ⟨a, b, c⟩
      simp only [fCheckFrom, fBadMax] at a b
      exact hr (by omega) ⟨by omega, c⟩
    refine ⟨v, ?_, ?_⟩
    · rw [h3, h1, hh]; simp [nullEvents]
    · rw [show (x :: xs).length + n = (xs.length + n) + 1 by simp; omega, h2,
        if_neg (by simpa using hm x (by simp)), if_neg hrej,
        if_neg (by simp only [fAcceptAt]; omega), h4, hh, outOfRange_cons s.hdt tm x xs]
      congr 1
      · simp only [List.length_cons]; omega
      · omega

/-! ### Phase g (R814) -/

/-- The DC check that passes: its reads. -/
theorem dcCheck_passes {tm : Fin 4} {g : Nat} {dc : List Byte} (s : State)
    (hd : DcPasses s.hdt tm g dc) (rest : List Byte) (hs : s.ctlAnswers = dc ++ rest) :
    ∃ u, dcCheck tm g s = (true, u) ∧ ctlView u = (ctlView s).ran (dcEvents s.hdt dc) rest := by
  rcases hd with ⟨hg, rfl⟩ | ⟨hg, ih, il, qh, ql, rfl, hi, hq⟩
  · exact ⟨s, by rw [dcCheck, if_neg (by omega)], by
      simp [CtlView.ran, dcEvents, ctlView, ← show _ = rest from hs]⟩
  · obtain ⟨h1, h2⟩ := rd16_ran s.hdt.scan.dcI s hs
    obtain ⟨h3, h4⟩ := rd16_ran s.hdt.scan.dcQ (rd16 s.hdt.scan.dcI s).2 (answers_of_ran h2)
    refine ⟨(rd16 s.hdt.scan.dcQ (rd16 s.hdt.scan.dcI s).2).2, ?_, by
      rw [h4, h2]; simp [dcEvents]⟩
    have w : ∀ a b : Byte, InWindow (a.toNat * 256 + b.toNat) → inWin (join2 a b) = true := by
      intro a b h
      simp only [inWin, Bool.or_eq_true, decide_eq_true_eq]
      exact h
    simp only [dcCheck, hg, if_true, h1, hdt_of_ran h2, h3, w ih il hi, w qh ql hq, Bool.and_self]

/-- The DC check that fails: its reads. -/
theorem dcCheck_fails {tm : Fin 4} {g : Nat} {ih il qh ql : Byte} (s : State)
    (hg : g < (scanThr s.hdt tm).dcGainHigh)
    (hw : ¬InWindow (ih.toNat * 256 + il.toNat) ∨ ¬InWindow (qh.toNat * 256 + ql.toNat))
    (rest : List Byte) (hs : s.ctlAnswers = ih :: il :: qh :: ql :: rest) :
    ∃ u, dcCheck tm g s = (false, u)
      ∧ ctlView u = (ctlView s).ran (dcEvents s.hdt [ih, il, qh, ql]) rest := by
  obtain ⟨h1, h2⟩ := rd16_ran s.hdt.scan.dcI s hs
  obtain ⟨h3, h4⟩ := rd16_ran s.hdt.scan.dcQ (rd16 s.hdt.scan.dcI s).2 (answers_of_ran h2)
  refine ⟨(rd16 s.hdt.scan.dcQ (rd16 s.hdt.scan.dcI s).2).2, ?_, by rw [h4, h2]; simp [dcEvents]⟩
  have w : (inWin (join2 ih il) && inWin (join2 qh ql)) = false := by
    have e : ∀ a b : Byte, ¬InWindow (a.toNat * 256 + b.toNat) → inWin (join2 a b) = false := by
      intro a b h
      rw [Bool.eq_false_iff]
      intro h'
      apply h
      simp only [inWin, Bool.or_eq_true, decide_eq_true_eq] at h'
      exact h'
    rcases hw with h | h <;> simp [e _ _ h]
  simp only [dcCheck, hg, if_true, h1, hdt_of_ran h2, h3, w]

/-- The first read of an iteration of phase g, then the branch of the mode check. -/
theorem phaseG_mode (tm : Fin 4) (g limit n unl : Nat) (s : State) (tx : Byte) (rest : List Byte)
    (hs : s.ctlAnswers = tx :: rest) :
    ∃ u, ctlView u = (ctlView s).ran [.dlyMs 10, .rd s.hdt.scan.txmode.reg tx] rest
      ∧ phaseG tm g limit (n + 1) unl s =
        if field2 s.hdt.scan.txmode.lo tx ≠ tm then (.channelNotDetected, u)
        else if (dcCheck tm g u).1 = false then (.channelNotDetected, (dcCheck tm g u).2)
        else
          let st := (rd (dcCheck tm g u).2.hdt.scan.fsmStateReg (dcCheck tm g u).2).1
          let v := (rd (dcCheck tm g u).2.hdt.scan.fsmStateReg (dcCheck tm g u).2).2
          let unl := if v.hdt.scan.fsmUnlock.contains st then unl + 1 else unl
          if v.hdt.scan.fsmUnlock.contains st ∧ limit ≤ unl then (.channelNotDetected, v)
          else if coarseCntMin < (rd v.hdt.scan.coarseCntReg v).1.toNat then
            lockWait lockwaitIters (rd v.hdt.scan.coarseCntReg v).2
          else phaseG tm g limit n unl (rd v.hdt.scan.coarseCntReg v).2 := by
  have h0 := delayMs_ran phaseMs s
  obtain ⟨h1, h2⟩ := rdTxMode_ran (delayMs phaseMs s) ((answers_of_ran h0).trans hs)
  rw [hdt_of_ran h0] at h1 h2
  refine ⟨(rdTxMode (delayMs phaseMs s)).2, by rw [h2, h0]; simp [phaseMs], ?_⟩
  rw [← h1]
  rfl

/-- The reads of an iteration of phase g up to its state, where the mode and the DC check pass: the branch
of the unlock count. -/
theorem phaseG_state (tm : Fin 4) (g limit n unl : Nat) (s : State) (tx st : Byte) (dc rest : List Byte)
    (hm : field2 s.hdt.scan.txmode.lo tx = tm) (hd : DcPasses s.hdt tm g dc)
    (hs : s.ctlAnswers = tx :: (dc ++ st :: rest)) :
    ∃ u, ctlView u = (ctlView s).ran
        ([.dlyMs 10, .rd s.hdt.scan.txmode.reg tx] ++ dcEvents s.hdt dc
          ++ [.rd s.hdt.scan.fsmStateReg st]) rest
      ∧ phaseG tm g limit (n + 1) unl s =
        if s.hdt.scan.fsmUnlock.contains st
            ∧ limit ≤ (if s.hdt.scan.fsmUnlock.contains st then unl + 1 else unl) then
          (.channelNotDetected, u)
        else if coarseCntMin < (rd s.hdt.scan.coarseCntReg u).1.toNat then
          lockWait lockwaitIters (rd s.hdt.scan.coarseCntReg u).2
        else phaseG tm g limit n (if s.hdt.scan.fsmUnlock.contains st then unl + 1 else unl)
          (rd s.hdt.scan.coarseCntReg u).2 := by
  obtain ⟨a, h1, h2⟩ := phaseG_mode tm g limit n unl s tx (dc ++ st :: rest) hs
  have ha := hdt_of_ran h1
  obtain ⟨b, h3, h4⟩ := dcCheck_passes a (by rw [ha]; exact hd) (st :: rest) (answers_of_ran h1)
  have hb := (hdt_of_ran h4).trans ha
  obtain ⟨h5, h6⟩ := rd_ran s.hdt.scan.fsmStateReg b (answers_of_ran h4)
  have hc := (hdt_of_ran h6).trans hb
  refine ⟨(rd s.hdt.scan.fsmStateReg b).2, by rw [h6, h4, h1, ha]; simp, ?_⟩
  rw [h2, if_neg (by simpa using hm)]
  simp only [h3, hb, h5, hc, Bool.true_eq_false, if_false]

/-- A whole iteration of phase g that does not reject: it goes on to the lock wait, or to the next
iteration. -/
theorem phaseG_step (tm : Fin 4) (g limit n unl : Nat) (s : State) (x : StateReads) (rest : List Byte)
    (hx : x.Pass s.hdt tm g) (hl : unlocks s.hdt [x] = 0 ∨ unl + unlocks s.hdt [x] < limit)
    (hs : s.ctlAnswers = x.bytes ++ rest) :
    ∃ u, ctlView u = (ctlView s).ran (x.events s.hdt) rest
      ∧ phaseG tm g limit (n + 1) unl s =
        if 1 < x.count.toNat then lockWait lockwaitIters u
        else phaseG tm g limit n (unl + unlocks s.hdt [x]) u := by
  obtain ⟨u, h1, h2⟩ := phaseG_state tm g limit n unl s x.tm x.fsm x.dc (x.count :: rest) hx.1 hx.2
    (by simpa [StateReads.bytes] using hs)
  obtain ⟨h3, h4⟩ := rd_ran s.hdt.scan.coarseCntReg u (answers_of_ran h1)
  have hu : unlocks s.hdt [x] = if s.hdt.scan.fsmUnlock.contains x.fsm then 1 else 0 := by
    simp [unlocks, List.countP_cons]
  refine ⟨(rd s.hdt.scan.coarseCntReg u).2, by rw [h4, h1]; simp [StateReads.events], ?_⟩
  rw [h2, h3, hu]
  rw [hu] at hl
  cases hc : s.hdt.scan.fsmUnlock.contains x.fsm with
  | true =>
    rw [hc] at hl
    rw [if_neg (by simp at hl ⊢; omega)]
    rfl
  | false => rw [if_neg (by simp)]; rfl

/-- Iterations of phase g that neither reject nor meet a coarse count. -/
theorem phaseG_goesOn (tm : Fin 4) (g limit n unl : Nat) (xs : List StateReads) (s : State)
    (rest : List Byte) (hx : ∀ x ∈ xs, x.Pass s.hdt tm g ∧ x.count.toNat ≤ 1)
    (hl : unlocks s.hdt xs = 0 ∨ unl + unlocks s.hdt xs < limit)
    (hs : s.ctlAnswers = xs.flatMap StateReads.bytes ++ rest) :
    ∃ u, ctlView u = (ctlView s).ran (xs.flatMap (StateReads.events s.hdt)) rest
      ∧ phaseG tm g limit (xs.length + n) unl s
        = phaseG tm g limit n (unl + unlocks s.hdt xs) u := by
  induction xs generalizing unl s with
  | nil =>
    exact ⟨s, by simp [CtlView.ran, ctlView, ← show _ = rest from hs], by simp [unlocks]⟩
  | cons x xs ih =>
    have hu : unlocks s.hdt (x :: xs) = unlocks s.hdt [x] + unlocks s.hdt xs := by
      simp only [unlocks, List.countP_cons, List.countP_nil]; omega
    rw [hu] at hl
    obtain ⟨u, h1, h2⟩ := phaseG_step tm g limit (xs.length + n) unl s x
      (xs.flatMap StateReads.bytes ++ rest) (hx x (by simp)).1 (by omega) (by simpa using hs)
    have hh := hdt_of_ran h1
    obtain ⟨v, h3, h4⟩ := ih (unl + unlocks s.hdt [x]) u
      (by rw [hh]; exact fun y hy => hx y (by simp [hy])) (by rw [hh]; omega) (answers_of_ran h1)
    refine ⟨v, by rw [h3, h1, hh]; simp, ?_⟩
    rw [show (x :: xs).length + n = (xs.length + n) + 1 by simp; omega, h2,
      if_neg (by have := (hx x (by simp)).2; omega), h4, hh, hu, Nat.add_assoc]

/-! ### The lock wait (R816) -/

/-- One iteration of the lock wait. -/
theorem lockWait_step (n : Nat) (s : State) (b : Byte) (rest : List Byte)
    (hs : s.ctlAnswers = b :: rest) :
    ∃ u, ctlView u = (ctlView s).ran (lockWaitEvents s.hdt [b]) rest
      ∧ lockWait (n + 1) s =
        if bitOf (ofdmLockBit s.hdt).pos b then (.success, u) else lockWait n u := by
  have h0 := delayMs_ran phaseMs s
  obtain ⟨h1, h2⟩ := rdBit_ran (ofdmLockBit s.hdt) (delayMs phaseMs s) ((answers_of_ran h0).trans hs)
  refine ⟨(rdBit (ofdmLockBit s.hdt) (delayMs phaseMs s)).2, ?_, by simp only [lockWait, h1]⟩
  rw [h2, h0]; simp [lockWaitEvents, phaseMs]

/-- Iterations of the lock wait that meet no lock. -/
theorem lockWait_goesOn (n : Nat) (polls rest : List Byte) (s : State)
    (hp : AllClear (ofdmLockBit s.hdt) polls) (hs : s.ctlAnswers = polls ++ rest) :
    ∃ u, ctlView u = (ctlView s).ran (lockWaitEvents s.hdt polls) rest
      ∧ lockWait (polls.length + n) s = lockWait n u := by
  induction polls generalizing s with
  | nil =>
    exact ⟨s, by simp [CtlView.ran, lockWaitEvents, ctlView, ← show _ = rest from hs], by simp⟩
  | cons x xs ih =>
    obtain ⟨u, h1, h2⟩ := lockWait_step (xs.length + n) s x (xs ++ rest) hs
    have hh := hdt_of_ran h1
    obtain ⟨v, h3, h4⟩ := ih u (by rw [hh]; exact fun y hy => hp y (by simp [hy]))
      (answers_of_ran h1)
    refine ⟨v, by rw [h3, h1, hh]; simp [lockWaitEvents], ?_⟩
    rw [show (x :: xs).length + n = (xs.length + n) + 1 by simp; omega, h2,
      if_neg (by simp [hp x (by simp)]), h4]

/-- The lock wait that meets the OFDM lock within its iterations. -/
theorem lockWait_hit (n : Nat) (polls : List Byte) (b : Byte) (rest : List Byte) (s : State)
    (hn : polls.length < n) (hp : AllClear (ofdmLockBit s.hdt) polls)
    (hb : bitOf (ofdmLockBit s.hdt).pos b = true) (hs : s.ctlAnswers = polls ++ b :: rest) :
    ∃ u, lockWait n s = (.success, u)
      ∧ ctlView u = (ctlView s).ran (lockWaitEvents s.hdt (polls ++ [b])) rest := by
  obtain ⟨k, rfl⟩ : ∃ k, n = polls.length + (k + 1) := ⟨n - polls.length - 1, by omega⟩
  obtain ⟨u, h1, h2⟩ := lockWait_goesOn (k + 1) polls (b :: rest) s hp hs
  have hh := hdt_of_ran h1
  obtain ⟨v, h3, h4⟩ := lockWait_step k u b rest (answers_of_ran h1)
  rw [hh] at h3 h4
  refine ⟨v, by rw [h2, h4, if_pos hb], ?_⟩
  rw [h3, h1]; simp [lockWaitEvents]

/-! ### Whatever the oracle answers -/

/-- A part of a scan that ends in a verdict reads and waits only, and answers one of two verdicts (R810). -/
def ScanEnds (s : State) (r : ScanVerdict × State) : Prop :=
  (r.1 = .success ∨ r.1 = .channelNotDetected) ∧ ∃ es as, ctlView r.2 = (ctlView s).ran es as

theorem ScanEnds.rejected {s t : State} {es : List Event} {as : List Byte}
    (h : ctlView t = (ctlView s).ran es as) : ScanEnds s (.channelNotDetected, t) :=
  ⟨.inr rfl, es, as, h⟩

theorem ScanEnds.here (s : State) : ScanEnds s (.channelNotDetected, s) :=
  .rejected (es := []) (as := s.ctlAnswers) (by simp [CtlView.ran, ctlView])

theorem ScanEnds.after {s t : State} {es : List Event} {as : List Byte} {r : ScanVerdict × State}
    (h : ctlView t = (ctlView s).ran es as) (hr : ScanEnds t r) : ScanEnds s r := by
  obtain ⟨hv, fs, bs, h'⟩ := hr
  exact ⟨hv, es ++ fs, bs, by rw [h', h, CtlView.ran_ran]⟩

theorem rd16_any (r : Reg2) (s : State) :
    ∃ es as, ctlView (rd16 r s).2 = (ctlView s).ran es as :=
  ⟨_, _, (rd_any r.l (rd r.h s).2).trans (by rw [rd_any r.h s, CtlView.ran_ran])⟩

theorem lockWait_any (n : Nat) (s : State) : ScanEnds s (lockWait n s) := by
  induction n generalizing s with
  | zero => exact .here _
  | succ n ih =>
    have h := rd_any (ofdmLockBit s.hdt).reg (delayMs phaseMs s)
    have h0 := delayMs_ran phaseMs s
    rw [h0, CtlView.ran_ran] at h
    simp only [lockWait]
    split
    · exact ⟨.inl rfl, _, _, h⟩
    · exact (ih _).after h

theorem dcCheck_any (tm : Fin 4) (g : Nat) (s : State) :
    ∃ es as, ctlView (dcCheck tm g s).2 = (ctlView s).ran es as := by
  unfold dcCheck
  split
  · obtain ⟨es, as, h⟩ := rd16_any s.hdt.scan.dcI s
    obtain ⟨fs, bs, h'⟩ := rd16_any (rd16 s.hdt.scan.dcI s).2.hdt.scan.dcQ (rd16 s.hdt.scan.dcI s).2
    exact ⟨es ++ fs, bs, h'.trans (by rw [h, CtlView.ran_ran])⟩
  · exact ⟨[], s.ctlAnswers, by simp [CtlView.ran, ctlView]⟩

theorem phaseG_any (tm : Fin 4) (g limit n unl : Nat) (s : State) :
    ScanEnds s (phaseG tm g limit n unl s) := by
  induction n generalizing unl s with
  | zero => exact .here _
  | succ n ih =>
    refine .after (delayMs_ran phaseMs s) ?_
    generalize hu : delayMs phaseMs s = u
    simp only [phaseG, hu]
    refine .after (rd_any u.hdt.scan.txmode.reg u) ?_
    have e : rdTxMode u = ((rdTxMode u).1, (rd u.hdt.scan.txmode.reg u).2) := rfl
    rw [e]
    generalize (rd u.hdt.scan.txmode.reg u).2 = v
    split
    · exact .here _
    · obtain ⟨es, as, h⟩ := dcCheck_any tm g v
      refine .after h ?_
      generalize dcCheck tm g v = p
      obtain ⟨ok, w⟩ := p
      dsimp only
      split
      · exact .here _
      · refine .after (rd_any w.hdt.scan.fsmStateReg w) ?_
        generalize rd w.hdt.scan.fsmStateReg w = q
        obtain ⟨st, x⟩ := q
        dsimp only
        generalize (if x.hdt.scan.fsmUnlock.contains st then unl + 1 else unl) = unl'
        split
        · exact .here _
        · refine .after (rd_any x.hdt.scan.coarseCntReg x) ?_
          split
          · exact lockWait_any _ _
          · exact ih _ _

theorem phaseF_any (tm : Fin 4) (g n i bad : Nat) (s : State) :
    ∃ es as, ctlView (phaseF tm g n i bad s).2 = (ctlView s).ran es as := by
  induction n generalizing i bad s with
  | zero => exact ⟨[], s.ctlAnswers, by simp [phaseF, CtlView.ran, ctlView]⟩
  | succ n ih =>
    have h0 := delayMs_ran phaseMs s
    generalize hu : delayMs phaseMs s = u at h0
    obtain ⟨es, as, h1⟩ := rd16_any s.hdt.scan.nullLen u
    rw [h0, CtlView.ran_ran] at h1
    generalize hp : rd16 s.hdt.scan.nullLen u = p at h1
    have h2 : ctlView (rdTxMode p.2).2 = _ := rd_any p.2.hdt.scan.txmode.reg p.2
    rw [h1, CtlView.ran_ran] at h2
    simp only [phaseF, hu, hp]
    generalize (if p.1 < (scanThr (rdTxMode p.2).2.hdt tm).nlMin
      ∨ (scanThr (rdTxMode p.2).2.hdt tm).nlMax < p.1 then bad + 1 else bad) = bad'
    split
    · exact ⟨_, _, h2⟩
    · split
      · exact ⟨_, _, h2⟩
      · split
        · exact ⟨_, _, h2⟩
        · obtain ⟨fs, bs, h3⟩ := ih (i + 1) _ (rdTxMode p.2).2
          exact ⟨_, bs, h3.trans (by rw [h2, CtlView.ran_ran])⟩

theorem classify_any (pw : Nat) (s : State) : ScanEnds s (classify pw s) := by
  refine .after (rd_any s.hdt.scan.preagcReg s) ?_
  unfold classify
  generalize rd s.hdt.scan.preagcReg s = p
  refine .after (rd_any p.2.hdt.scan.txmode.reg p.2) ?_
  have e : rdTxMode p.2 = ((rdTxMode p.2).1, (rd p.2.hdt.scan.txmode.reg p.2).2) := rfl
  dsimp only
  rw [e]
  generalize (rd p.2.hdt.scan.txmode.reg p.2).2 = q
  obtain ⟨es, as, h⟩ := rd16_any q.hdt.scan.coarseFreq q
  refine .after h ?_
  dsimp only
  generalize rd16 q.hdt.scan.coarseFreq q = r
  split
  · split
    · rename_i hf
      obtain ⟨fs, bs, h'⟩ := phaseF_any (rdTxMode p.2).1 p.1.toNat fIters 1 0 r.2
      rw [hf] at h'
      exact .rejected h'
    · rename_i hf
      obtain ⟨fs, bs, h'⟩ := phaseF_any (rdTxMode p.2).1 p.1.toNat fIters 1 0 r.2
      rw [hf] at h'
      exact (phaseG_any _ _ _ _ _ _).after h'
  · exact .here _

/-- The scan's poll with its classification reads and waits only, and answers `SUCCESS` or
`CHANNEL_NOT_DETECTED` (R810 to R818). -/
theorem scanPoll_any (n : Nat) (s : State) : ScanEnds s (scanPoll n s) := by
  induction n generalizing s with
  | zero => exact .here _
  | succ n ih =>
    refine .after (rd_any s.hdt.scan.doneReg s) ?_
    simp only [scanPoll]
    generalize rd s.hdt.scan.doneReg s = p
    obtain ⟨es, as, h⟩ := rd16_any p.2.hdt.scan.pwr p.2
    refine .after h ?_
    generalize rd16 p.2.hdt.scan.pwr p.2 = q
    split
    · exact .here _
    · split
      · exact classify_any _ _
      · exact (ih _).after (delayUs_ran scanPollUs _)

end Sys2Proof.Machine
end

