-- ==== Sys2Proof/Tests/Slice0.lean ====
section
/-! SUPPORT. Tests: the checks of WellFormed, the frames of spec/95_tests.md section 2, one-step runs of
its vectors (named in each docstring) under a small form of its configuration TC, and for every statement
with hypotheses a concrete instance that meets them. -/

namespace Sys2Proof.Tests

open Sys2Proof.Machine

/- One theorem at a time: tests that wait for the kernel side by side hold a thread with its stack each. -/
set_option Elab.async false

/-! ### WellFormed (R303): the widest operand passes, one more is refused -/

theorem test_wellFormed_setFreq :
    (Instr.setFreq .tdmb 255 4294967295).wellFormed = true
      ∧ (Instr.setFreq .tdmb 256 0).wellFormed = false
      ∧ (Instr.setFreq .tdmb 0 4294967296).wellFormed = false := by decide

theorem test_wellFormed_scanFreq :
    (Instr.scanFreq 4294967295).wellFormed = true
      ∧ (Instr.scanFreq 4294967296).wellFormed = false := by decide

theorem test_wellFormed_openSubch :
    (Instr.openSubch 4294967295 255 .data 4294967295).wellFormed = true
      ∧ (Instr.openSubch 4294967296 0 .data 0).wellFormed = false
      ∧ (Instr.openSubch 0 256 .data 0).wellFormed = false
      ∧ (Instr.openSubch 0 0 .data 4294967296).wellFormed = false := by decide

theorem test_wellFormed_closeSubch :
    (Instr.closeSubch 255).wellFormed = true ∧ (Instr.closeSubch 256).wellFormed = false := by decide

theorem test_wellFormed_getAntennaLevel :
    (Instr.getAntennaLevel 65535).wellFormed = true
      ∧ (Instr.getAntennaLevel 65536).wellFormed = false := by decide

/-! ### Frames (spec/95_tests.md section 2) -/

theorem test_decode_init : decode [0x01, 0x00] = .ok (.init .tdmb, []) := by decide

theorem test_decode_adcConfigure :
    decode [0x02, 0x00, 0x01] = .ok (.adcConfigure .tdmb .clk8192, []) := by decide

theorem test_decode_adcChangeClock :
    decode [0x03, 0x01, 0x00] = .ok (.adcChangeClock .dabBand3 .clk8000, []) := by decide

theorem test_decode_setFreq :
    decode [0x10, 0x03, 0x0D, 0x00, 0x07, 0x38, 0x37]
      = .ok (.setFreq .isdb1seg 13 473143, []) := by decide

theorem test_decode_scanFreq :
    decode [0x11, 0x00, 0x02, 0xC4, 0x20] = .ok (.scanFreq 181280, []) := by decide

theorem test_decode_openSubch :
    decode [0x20, 0x00, 0x02, 0xC4, 0x20, 0x03, 0x02, 0x00, 0x00, 0x04, 0x00]
      = .ok (.openSubch 181280 3 .data 1024, []) := by decide

theorem test_decode_closeSubch : decode [0x21, 0x03] = .ok (.closeSubch 3, []) := by decide

theorem test_decode_closeAllSubch : decode [0x22, 0x23] = .ok (.closeAllSubch, [0x23]) := by decide

theorem test_decode_disableStreamOut : decode [0x23] = .ok (.disableStreamOut, []) := by decide

theorem test_decode_getters :
    decode [0x30] = .ok (.getLockStatus, []) ∧ decode [0x31] = .ok (.getPer, [])
      ∧ decode [0x32] = .ok (.getRssi, []) ∧ decode [0x33] = .ok (.getCnr, [])
      ∧ decode [0x34] = .ok (.getBer, []) ∧ decode [0x35] = .ok (.getCer, [])
      ∧ decode [0x37] = .ok (.getPrevFreq, []) := by decide

theorem test_decode_getAntennaLevel :
    decode [0x36, 0x03, 0x29] = .ok (.getAntennaLevel 809, []) := by decide

theorem test_decode_refused :
    decode [0x00] = .error (.unassignedOpcode 0x00) ∧ decode [0x38] = .error (.unassignedOpcode 0x38)
      ∧ decode [0x01, 0x05] = .error (.reservedMode 5)
      ∧ decode [0x02, 0x00, 0x04] = .error (.reservedClock 4)
      ∧ decode [0x20, 0x00, 0x02, 0xC4, 0x20, 0x03, 0x03, 0x00, 0x00, 0x04, 0x00]
          = .error (.reservedService 3)
      ∧ decode [0x10, 0x00, 0x00] = .error .shortFrame ∧ decode [] = .error .shortFrame := by decide

/-- The opcode table's numbering: the first byte is the low one. -/
theorem test_decodeTableWord :
    decodeTableWord 8 0x22 = some .closeAllSubch
      ∧ decodeTableWord 16 0x0301 = some (.init .isdb1seg)
      ∧ decodeTableWord 8 0x20 = some (.openSubch 0 0 .video 0)
      ∧ decodeTableWord 8 0x00 = none := by decide

/-! ### Text (R340, R341) -/

theorem test_assemble_setFreq :
    assembleLine "  SET_FREQ ISDB_1SEG, 0x0D , 473143 ; tune".toList
      = some (.command (.setFreq .isdb1seg 13 473143)) := by decide

theorem test_assemble_others :
    assembleLine "GET_ANTENNA_LEVEL_AUTO".toList = some .antennaLevelAuto
      ∧ assembleLine "; nothing".toList = some .blank
      ∧ assembleLine "CLOSE_SUBCH 256".toList = none
      ∧ assembleLine "INIT CLK_8000".toList = none := by decide

/-! ### The test configuration TC (spec/95_tests.md section 0), its values invented there -/

/-- A register of the RF page. -/
def r (n : Nat) : Reg := ⟨.rf, BitVec.ofNat 8 n⟩

/-- Bit 0 of a register. -/
def bit0 (n : Nat) : BitLoc := ⟨r n, 0⟩

/-- One write of the argument's low byte for each slot. -/
def slotRows (n : Nat) : List SlotActionRow :=
  (List.range 5).map fun k => ⟨k, 0, 4294967295, [.wr (r (n + k)) (.arg 0)]⟩

/-- The same reset write for every mode. -/
def allModes (w : Reg × Byte) : PerMode (Reg × Byte) := ⟨w, w, w, w, w⟩

def tcAdc : AdcHdt where
  tupleRows := [⟨16384, .clk8000, #v[0x11, 0x12, 0x13, 0x14, 0x15, 0x16, 0x17]⟩]
  tupleOff := #v[0, 1, 2, 3, 4, 5, 6]
  lockBit := bit0 7
  busLockReg := r 8
  busLockMask := 0x80
  busLockOff := 0x00
  busLockOn := 0x80
  clkInit := .clk8192

def tcPll : PllHdt where
  clkRows :=
    [⟨16384, .tdmb, 175000, 214999, .clk8192⟩, ⟨16384, .tdmb, 215000, 215999, .clk9600⟩,
      ⟨16384, .tdmb, 216000, 216999, .clk8000⟩, ⟨16384, .isdb1seg, 470000, 770000, .clk8192⟩]
  nfRows :=
    [⟨16384, .tdmb, 181280, 181280, 0x123456⟩, ⟨16384, .tdmb, 199000, 199000, 0x800000⟩,
      ⟨16384, .tdmb, 175000, 216999, 0x200000⟩]
  isdbRows := [⟨16384, 0x100000, 0x100⟩]
  isdbChMin := 13
  isdbChMax := 62
  sel := ⟨true, true, true, false, false⟩
  reg := ⟨r 0x10, r 0x11, r 0x12⟩
  rb := ⟨r 0x13, r 0x14, r 0x15⟩
  lockBit := bit0 0x16
  rstAssert := allModes (r 0x17, 1)
  rstDeassert := allModes (r 0x17, 0)

def tcAlloc : AllocHdt where
  multiSubch := true
  numDataSlots := 2
  framing := .individual
  maxThrIndividual := 4096
  slotSetId := slotRows 0x20
  slotRs := slotRows 0x28
  slotDisable := slotRows 0x30
  irqEnable := ⟨[.wr (r 0x40) 1], [.wr (r 0x41) 1]⟩
  irqDisable := ⟨[.wr (r 0x42) 1], [.wr (r 0x43) 1]⟩
  payloadAlloc := slotRows 0x38
  payloadReset := ⟨[.wr (r 0x44) 1], [.wr (r 0x45) 1]⟩
  streamOn := [.wr (r 0x46) 1]
  streamOff := [.wr (r 0x46) 0]

def tcThr : ScanThresholds where
  power := 1000
  gain := 20
  cfHi := 200
  cfLo := 100
  nlMin := 2600
  nlMax := 2700
  gainLow := 40
  nlMarginal := 5
  dcGainHigh := 60
  unlockLimitTight := 5

def tcScan : ScanHdt where
  doneReg := r 0x50
  notSignal := [2]
  signal := [1]
  pwr := ⟨r 0x51, r 0x52⟩
  preagcReg := r 0x53
  txmode := ⟨r 0x54, 0⟩
  thresholds := #v[tcThr, tcThr, tcThr, tcThr]
  coarseFreq := ⟨r 0x55, r 0x56⟩
  nullLen := ⟨r 0x57, r 0x58⟩
  dcI := ⟨r 0x59, r 0x5A⟩
  dcQ := ⟨r 0x5B, r 0x5C⟩
  fsmStateReg := r 0x5D
  fsmUnlock := [0xFF]
  coarseCntReg := r 0x5E

/-- TC's CNR table, `3300 - 2716·i / 145`. -/
def tcLut : Vector Nat 146 :=
  ⟨((List.range 146).map fun i => 3300 - 2716 * i / 145).toArray, by simp⟩

def tcQuality : QualityHdt where
  ofdmLockOff := 0
  ofdmLockPos := 0
  fecSyncOff := 0
  fecSyncLo := 0
  rsSyncBit := bit0 0x60
  perCnt := ⟨r 0x61, r 0x62⟩
  agcReg := r 0x63
  lnaLo := 4
  rfagcLo := 0
  bbgainReg := r 0x64
  rssi :=
    { values := []
      coeff := #v[⟨-50, -1, -9000⟩, ⟨-50, -1, -8000⟩, ⟨-50, -1, -7000⟩, ⟨-50, -1, -6000⟩]
      div := 1
      corrWhen := []
      corr := 0 }
  cnrTrigger := [.wr (r 0x65) 1]
  cnrAcc := ⟨r 0x66, r 0x67⟩
  cnrLowConst := 3500
  cnrLut := tcLut
  cnrFloor := 500
  cnrDiv := 100
  berErr := ⟨r 0x68, r 0x69, r 0x6A⟩
  berTot := ⟨r 0x6B, r 0x6C, r 0x6D⟩
  berScale := 1000
  cerLockBit := bit0 0x6E
  cerPeriod := ⟨r 0x70, r 0x71, r 0x72, r 0x73⟩
  cerErr := ⟨r 0x74, r 0x75, r 0x76, r 0x77⟩
  arith := .exact

def tc : Hdt where
  xtalKhz := 16384
  supportedModes := [.tdmb, .dabBand3, .isdb1seg]
  initSeq := ⟨[], [], [], [], []⟩
  adc := tcAdc
  pll := tcPll
  alloc := tcAlloc
  scan := tcScan
  quality := tcQuality

/-! ### Start states -/

/-- A state with TC and this context. -/
def startAt (c : Session) : State := { State.reset with hdt := tc, ctx := c }

/-- R131 under TC, in a mode: the context after `INIT`. -/
def opened (mode : ReceiverMode) : Session :=
  { Session.fresh with
    initialized := true, mode := mode, xtal := 16384, adcClk := some .clk8192 }

/-- The context after vector F1. -/
def tuned : Session := { opened .tdmb with prevFreq := 181280 }

/-- The context after vector AL2: IDs 3 and 5 at slots 1 and 2. -/
def twoBound : Session :=
  { tuned with
    reg := #v[some ⟨3, 1, .data, 1024⟩, some ⟨5, 2, .data, 2048⟩, none, none, none]
    idMask0 := 0x28, slotMask := 0b00110, regMask := 0b00011 }

/-- The context after vector AL1. -/
def oneBound : Session :=
  { tuned with
    reg := #v[some ⟨3, 1, .data, 1024⟩, none, none, none, none]
    idMask0 := 0x8, slotMask := 0b00010, regMask := 0b00001 }

/-- A state with answers scripted for both agents. -/
def answering (bs : List Byte) (s : State) : State := { s with ctlAnswers := bs, getAnswers := bs }

/-- What one command shows: its events, its replies and the context it leaves; `none` for a stop. -/
def shows (i : Instr) (bs : List Byte) (s : State) :
    Option (List Event × List Reply × Session) :=
  match exec i (answering bs s) with
  | .next t => some (t.trace.map (·.event), t.replies.map (·.reply), t.ctx)
  | .fault _ => none
  | .refused _ => none

/-- What a test expects to be shown: the events, piece by piece, the replies and the context. -/
def shown (es : List (List Event)) (rs : List Reply) (c : Session) :
    Option (List Event × List Reply × Session) :=
  some (es.flatten, rs, c)

/-- The source's tuple written to TC's registers. -/
def adc8192 : List Event :=
  [.wr (r 0) 0x04, .wr (r 1) 0x01, .wr (r 2) 0x0F, .wr (r 3) 0x27, .wr (r 4) 0x07, .wr (r 5) 0x60,
    .wr (r 6) 0xB8]

/-- TC's test tuple for 8 MHz. -/
def adc8000 : List Event :=
  [.wr (r 0) 0x11, .wr (r 1) 0x12, .wr (r 2) 0x13, .wr (r 3) 0x14, .wr (r 4) 0x15, .wr (r 5) 0x16,
    .wr (r 6) 0x17]

/-- The reset sequence of TC. -/
def rst : List Event := [.wr (r 0x17) 1, .dlyMs 1, .wr (r 0x17) 0]

/-! ### One step of each command -/

/-- Vector S1. -/
theorem test_init :
    shows (.init .tdmb) [0x01] (startAt Session.fresh)
      = shown [adc8192, [.rd (r 7) 0x01]] [.ok]
          (opened .tdmb) := by decide +kernel

/-- Vector S2. -/
theorem test_init_unsupported :
    shows (.init .fm) [] (startAt Session.fresh)
      = shown [] [.err .invalidCountryBand]
          (Session.fresh) := by decide +kernel

/-- Vector SV1: the lock bit is set on the third poll. -/
theorem test_adcConfigure :
    shows (.adcConfigure .tdmb .clk8192) [0, 0, 1] (startAt { opened .tdmb with adcClk := none })
      = shown [adc8192, [.rd (r 7) 0, .dlyMs 1, .rd (r 7) 0, .dlyMs 1, .rd (r 7) 1]] [.ok]
          (opened .tdmb) := by decide +kernel

/-- Vector A10: only bit 0 is tested. -/
theorem test_adcConfigure_bit0 :
    shows (.adcConfigure .tdmb .clk8000) [0xFE, 0x01] (startAt (opened .tdmb))
      = shown [adc8000, [.rd (r 7) 0xFE, .dlyMs 1, .rd (r 7) 0x01]] [.ok]
          { opened .tdmb with adcClk := some .clk8000 } := by decide +kernel

/-- Vector A6. -/
theorem test_adcChangeClock :
    shows (.adcChangeClock .tdmb .clk8000) [0, 1] (startAt (opened .tdmb))
      = shown [[.wrM (r 8) 0x80 0x00], adc8000, [.rd (r 7) 0, .dlyMs 1, .rd (r 7) 1], [.wrM (r 8) 0x80 0x80]] [.ok]
          { opened .tdmb with adcClk := some .clk8000 } := by
  decide +kernel

/-- Vector A9. -/
theorem test_adcChangeClock_unsupported :
    shows (.adcChangeClock .tdmb .clk9000) [] (startAt (opened .tdmb))
      = shown [] [.err .unsupportedAdcClock]
          (opened .tdmb) := by decide +kernel

/-- Vector F6, with one mismatch: the word `0x2468AD` and a read-back of `W >> 1`. -/
theorem test_setFreq :
    shows (.setFreq .tdmb 0 181280) [0, 0, 0, 0x12, 0x34, 0x56, 1] (startAt (opened .tdmb))
      = shown [[.wr (r 0x10) 0x24, .wr (r 0x11) 0x68, .wr (r 0x12) 0xAD,
          .rd (r 0x13) 0, .rd (r 0x14) 0, .rd (r 0x15) 0,
          .wr (r 0x10) 0x24, .wr (r 0x11) 0x68, .wr (r 0x12) 0xAD, .dlyMs 2,
          .rd (r 0x13) 0x12, .rd (r 0x14) 0x34, .rd (r 0x15) 0x56, .rd (r 0x16) 1], rst] [.ok]
          tuned := by decide +kernel

/-- Vector F12: ISDB-T accepts the whole word. -/
theorem test_setFreq_isdb :
    shows (.setFreq .isdb1seg 13 473143) [0x20, 0x1A, 0x00, 1] (startAt (opened .isdb1seg))
      = shown [[.wr (r 0x10) 0x20, .wr (r 0x11) 0x1A, .wr (r 0x12) 0x00,
          .rd (r 0x13) 0x20, .rd (r 0x14) 0x1A, .rd (r 0x15) 0x00, .rd (r 0x16) 1], rst] [.ok]
          { opened .isdb1seg with prevFreq := 473143 } := by decide +kernel

/-- Vector SC3. -/
theorem test_scanFreq_noSignal :
    (shows (.scanFreq 181280) [0x12, 0x34, 0x56, 1, 0, 4, 0, 0, 4, 0, 2, 4, 0] (startAt tuned)).map
        (fun x => (x.1.drop 13, x.2))
      = some ([.rd (r 0x50) 0, .rd (r 0x51) 4, .rd (r 0x52) 0, .dlyUs 40,
          .rd (r 0x50) 0, .rd (r 0x51) 4, .rd (r 0x52) 0, .dlyUs 40,
          .rd (r 0x50) 2, .rd (r 0x51) 4, .rd (r 0x52) 0],
          [.verdict .channelNotDetected], tuned) := by decide +kernel

/-- Vector SC15: fifteen null lengths in range, the gain too high for the DC check, a lock at the second
poll. -/
theorem test_scanFreq_success :
    (shows (.scanFreq 181280)
        ([0x12, 0x34, 0x56, 1] ++ [1, 4, 0] ++ [70, 0, 0, 250]
          ++ ((List.range 15).flatMap fun _ => [0x0A, 0x5A, 0]) ++ [0, 0, 2, 0, 1])
        (startAt tuned)).map (fun x => (x.1.length, x.2))
      = some (10 + 3 + 3 + 4 + 60 + 4 + 4, [.verdict .success], tuned) := by decide +kernel

/-- Vector AL1. -/
theorem test_openSubch :
    shows (.openSubch 181280 3 .data 1024) [] (startAt tuned)
      = shown [[.wr (r 0x21) 3, .wr (r 0x29) 0, .wr (r 0x40) 1, .wr (r 0x39) 0]] [.ok]
          oneBound := by decide +kernel

/-- Vector AL15: close, re-clock, re-tune, bind. -/
theorem test_openSubch_retune :
    shows (.openSubch 216000 3 .data 1024) [1, 0x20, 0, 0, 1] (startAt oneBound)
      = shown [[.wr (r 0x31) 0, .wr (r 0x42) 1, .wr (r 0x44) 1], adc8000, [.rd (r 7) 1], [.wr (r 0x10) 0x40, .wr (r 0x11) 0x00, .wr (r 0x12) 0x01,
            .rd (r 0x13) 0x20, .rd (r 0x14) 0, .rd (r 0x15) 0, .rd (r 0x16) 1], rst, [.wr (r 0x21) 3, .wr (r 0x29) 0, .wr (r 0x40) 1, .wr (r 0x39) 0]] [.ok]
          { oneBound with adcClk := some .clk8000, prevFreq := 216000 } := by decide +kernel

/-- Vector AL8: slot 1 keeps the data group non-empty. -/
theorem test_closeSubch :
    shows (.closeSubch 5) [] (startAt twoBound) = shown [[.wr (r 0x32) 0]] [.ok]
          oneBound := by decide +kernel

/-- Vector AL11. -/
theorem test_closeSubch_range :
    shows (.closeSubch 64) [] (startAt twoBound)
      = shown [] [.err .invalidSubChannelId]
          twoBound := by decide +kernel

/-- R715: the group's actions follow its last binding. -/
theorem test_closeAllSubch :
    shows .closeAllSubch [] (startAt twoBound)
      = shown [[.wr (r 0x31) 0, .wr (r 0x32) 0, .wr (r 0x42) 1, .wr (r 0x44) 1]] [.ok]
          tuned := by
  decide +kernel

/-- Vector AL14's first command. -/
theorem test_disableStreamOut :
    shows .disableStreamOut [] (startAt oneBound)
      = shown [[.wr (r 0x46) 0]] [.ok]
          { oneBound with streamSuspended := true } := by decide +kernel

/-- Vector Q2. -/
theorem test_getLockStatus :
    (shows .getLockStatus [1, 3] (startAt tuned)).map (·.2.1) = some [.value 3]
      ∧ (shows .getLockStatus [1, 2] (startAt tuned)).map (·.2.1) = some [.value 1]
      ∧ (shows .getLockStatus [0, 3] (startAt tuned)).map (·.2.1) = some [.value 2]
      ∧ (shows .getLockStatus [0, 0] (startAt tuned)).map (·.2.1) = some [.value 0] := by decide +kernel

/-- Vector Q3. -/
theorem test_getPer :
    shows .getPer [0] (startAt tuned) = shown [[.rd (r 0x60) 0]] [.value 700]
          tuned
      ∧ shows .getPer [1, 0x01, 0x2C] (startAt tuned)
          = shown [[.rd (r 0x60) 1, .rd (r 0x61) 0x01, .rd (r 0x62) 0x2C]] [.value 300]
          tuned := by
  decide +kernel

/-- Vectors Q8 and Q9. -/
theorem test_getRssi :
    (shows .getRssi [0x25, 0x10] (startAt tuned)).map (·.2.1) = some [.value (-7266)]
      ∧ (shows .getRssi [0xC0, 0x00] (startAt tuned)).map (·.2.1) = some [.value (-9000)] := by decide +kernel

/-- Vector Q4, the formula at its breaks. -/
theorem test_getCnr_values :
    ([0, 1, 14, 15, 16, 160, 161, 256].map (cnrValue tc))
      = [0, 3500, 3500, 3300, 3282, 584, 500, 500] := by decide +kernel

/-- Vector Q4: the trigger, and the high byte's bits 7 to 5 ignored. -/
theorem test_getCnr :
    shows .getCnr [0xE0, 0x0F] (startAt tuned)
      = shown [[.wr (r 0x65) 1, .rd (r 0x66) 0xE0, .rd (r 0x67) 0x0F]] [.value 3300]
          tuned := by
  decide +kernel

/-- Vector Q5. -/
theorem test_getBer :
    (shows .getBer [1, 0, 0, 16, 0, 0, 3] (startAt tuned)).map (·.2.1) = some [.value 5333]
      ∧ (shows .getBer [1, 0xFF, 0xFF, 0xFF, 0, 0, 1] (startAt tuned)).map (·.2.1)
          = some [.value 16777215000]
      ∧ (shows .getBer [1, 0, 0, 7, 0, 0, 0] (startAt tuned)).map (·.2.1) = some [.value 2000] := by
  decide +kernel

/-- Vector Q6, the formula. -/
theorem test_getCer_values :
    ([(4000, 999), (4001, 0), (5000, 10), (5000, 7), (5000, 600), (5000, 605), (5000, 700)].map
        fun x => cerValue tc x.1 x.2)
      = [0, 0, 20, 10, 1200, 2000, 2000] := by decide +kernel

/-- Vector Q6: period 5000, ten errors. -/
theorem test_getCer :
    (shows .getCer [1, 0, 0, 0x13, 0x88, 0, 0, 0, 10] (startAt tuned)).map (·.2.1)
      = some [.value 20] := by decide +kernel

/-- Vector Q7, the raw levels. -/
theorem test_getAntennaLevel_raw :
    [810, 809, 700, 699, 490, 489, 400, 399, 250, 249, 180, 179, 0, 2001, 65535].map antRaw
      = [0, 1, 1, 2, 2, 3, 3, 4, 4, 5, 5, 6, 6, 0, 0] := by decide +kernel

/-- Vector Q7, the hysteresis: from 5 to 4, and the sentinel from 3. -/
theorem test_getAntennaLevel :
    shows (.getAntennaLevel 900) [] (startAt { tuned with antLevel := 5 })
        = shown [] [.value 4]
          { tuned with antLevel := 4 }
      ∧ shows (.getAntennaLevel 2000) [] (startAt { tuned with antLevel := 3 })
          = shown [] [.value 0]
          { tuned with antLevel := 3 } := by decide +kernel

/-- Vector S4, after F1. -/
theorem test_getPrevFreq :
    shows .getPrevFreq [] (startAt tuned) = shown [] [.value 181280]
          tuned := by decide +kernel

/-- Vector F16: a getter between the programming and the read-back meets the flag. -/
theorem test_getter_during_tune :
    (match step { startAt (opened .tdmb) with
        inbox := [0x10, 0, 0, 0, 2, 0xC4, 0x20, 0x35]
        ctlAnswers := [0x12, 0x34, 0x56, 1]
        sched := [0, 0, 0, 0, 1] } with
      | .next t => some (eventsOf .getter t, t.replies, t.inbox)
      | _ => none)
      = some ([], [⟨.getter, .value 2000⟩, ⟨.control, .ok⟩], []) := by decide +kernel

/-- A getter command within `INIT` is refused: it makes no port call and no reply, `INIT` completes, and the
next step stops (R402, log 4). -/
theorem test_getter_during_init :
    (match step { startAt Session.fresh with
        inbox := [0x01, 0x00, 0x35], ctlAnswers := [1], sched := [0, 1] } with
      | .next t => some (eventsOf .getter t, t.replies, t.inbox,
          match step t with | .refused .notInitialised => true | _ => false)
      | _ => none)
      = some ([], [⟨.control, .ok⟩], [0x35], true) := by decide +kernel

/-- R226: `INIT` resets the level between the read of `GET_ANTENNA_LEVEL 900`, which finds 5, and its write,
which stores and returns 4. -/
theorem test_level_not_atomic :
    (match step { startAt { opened .tdmb with antLevel := 5 } with
        inbox := [0x01, 0x00, 0x36, 0x03, 0x84], ctlAnswers := [1], sched := [2, 1] } with
      | .next t => some (t.ctx.antLevel, t.replies)
      | _ => none)
      = some (4, [⟨.getter, .value 4⟩, ⟨.control, .ok⟩]) := by decide +kernel

/-! ### Witnesses: states and operands that meet each statement's hypotheses -/

/-- A state with TC, this context and these answers for both agents. -/
def ready (c : Session) (bs : List Byte) : State := answering bs (startAt c)

/-- TC with no data slot, which R12 rejects. -/
def badHdt : Hdt := { tc with alloc := { tcAlloc with numDataSlots := 0 } }

/-- A state under the rejected table. -/
def underBad (c : Session) : State := { startAt c with hdt := badHdt }

/-- A TC for one sub-channel at a time. -/
def singleHdt : Hdt := { tc with alloc := { tcAlloc with multiSubch := false } }

/-- A state under that table. -/
def underSingle (c : Session) : State := { startAt c with hdt := singleHdt }

/-- Three zero bytes, a read-back no word of TC matches. -/
def zero3 : Read3 := ⟨0, 0, 0⟩

/-- The read-back of `W >> 1` for the word of 181280 kHz in TDMB. -/
def rb181280 : Read3 := ⟨0x12, 0x34, 0x56⟩

theorem allocInv_tuned : AllocInv tc tuned :=
  allocInv_of_noBindings tc ⟨fun e => by
    by_cases h : e < 5
    · interval_cases e <;> rfl
    · cases he : entry tuned e with
      | none => rfl
      | some b => exact absurd (entry_lt he) h, rfl, rfl, rfl, rfl⟩

theorem allocInv_oneBound : AllocInv tc oneBound :=
  allocInv_tuned.bound (e := 0) (b := ⟨3, 1, .data, 1024⟩) (by decide) rfl (by decide) (by decide)
    ⟨by decide, by decide⟩ (by decide) (by decide)
    (show BoundAlso tuned (bindStep 0 ⟨3, 1, .data, 1024⟩ tuned) 0 _ from
      bindStep_boundAlso tuned (by decide) (by decide) (by decide))

theorem allocInv_twoBound : AllocInv tc twoBound :=
  allocInv_oneBound.bound (e := 1) (b := ⟨5, 2, .data, 2048⟩) (by decide) rfl (by decide) (by decide)
    ⟨by decide, by decide⟩ (by decide) (by decide)
    (show BoundAlso oneBound (bindStep 1 ⟨5, 2, .data, 2048⟩ oneBound) 1 _ from
      bindStep_boundAlso oneBound (by decide) (by decide) (by decide))

/-- The same binding in a single-sub-channel build. -/
theorem allocInv_single : AllocInv singleHdt oneBound := by
  have hn : AllocInv singleHdt tuned := allocInv_of_noBindings _
    (noBindings_of_no_entry allocInv_tuned fun e => by
      by_cases h : e < 5
      · interval_cases e <;> rfl
      · cases he : entry tuned e with
        | none => rfl
        | some b => exact absurd (entry_lt he) h)
  exact hn.bound (e := 0) (b := ⟨3, 1, .data, 1024⟩) (by decide) rfl (by decide) (by decide)
    ⟨by decide, by decide⟩ (by decide) (by decide)
    (show BoundAlso tuned (bindStep 0 ⟨3, 1, .data, 1024⟩ tuned) 0 _ from
      bindStep_boundAlso tuned (by decide) (by decide) (by decide))

/-- A state with two bindings and a command waiting meets the invariant. -/
theorem inv_twoBound (bs : List Byte) : Inv { startAt twoBound with inbox := bs } where
  alloc := allocInv_twoBound
  idle := rfl
  level := show twoBound.antLevel ≤ 6 by decide
  read := fun _ _ h _ => nomatch h
  freq := show twoBound.prevFreq < 2 ^ 32 by decide
  thr := fun e b he => by
    have h := entry_lt he
    interval_cases e <;> cases he <;> decide
  mode := fun _ => show twoBound.mode ∈ tc.supportedModes by decide
  xtal := fun _ => rfl

theorem witness_DecodeEncodeRoundTrip :
    (Instr.openSubch 4294967295 255 .data 4294967295).wellFormed = true
      ∧ (Instr.setFreq .fm 255 4294967295).wellFormed = true
      ∧ (Instr.getAntennaLevel 65535).wellFormed = true := by decide

theorem witness_EncodeDecodeRoundTrip :
    decode [0x36, 0xFF, 0xFF, 0x00] = .ok (.getAntennaLevel 65535, [0x00]) := by decide

theorem witness_UnassignedOpcodesRefused :
    ∀ op ∈ ([0x00, 0x04, 0x0F, 0x12, 0x1F, 0x24, 0x2F, 0x38, 0xFF] : List Byte),
      op.toNat = 0x00 ∨ (0x04 ≤ op.toNat ∧ op.toNat ≤ 0x0F) ∨ (0x12 ≤ op.toNat ∧ op.toNat ≤ 0x1F)
        ∨ (0x24 ≤ op.toNat ∧ op.toNat ≤ 0x2F) ∨ 0x38 ≤ op.toNat := by decide

theorem witness_ShortFramesRefused :
    ∀ k ∈ [1, 10], 0 < k ∧ k < (encode (.openSubch 181280 3 .data 1024)).length
      ∧ ({ startAt tuned with
            inbox := (encode (.openSubch 181280 3 .data 1024)).take k } : State).inbox
          = (encode (.openSubch 181280 3 .data 1024)).take k := by decide

theorem witness_ReservedEnumeratorsRefused :
    (∀ b ∈ ([5, 255] : List Byte), 5 ≤ b.toNat) ∧ (∀ b ∈ ([4, 255] : List Byte), 4 ≤ b.toNat)
      ∧ (∀ b ∈ ([3, 255] : List Byte), 3 ≤ b.toNat) ∧ (4 : Byte).toNat < 5 := by decide

/-- A command, an idle step, and a pending refusal. -/
theorem witness_StepRunsDecodedCommand :
    decode ({ startAt tuned with inbox := [0x22, 0x37] } : State).inbox
        = .ok (.closeAllSubch, [0x37])
      ∧ (startAt tuned).inbox = [] ∧ (startAt tuned).getter = none
      ∧ (startAt tuned).getterRefused = false
      ∧ ({ startAt tuned with getterRefused := true } : State).getterRefused = true := by decide

theorem witness_CommandsBeforeInitRefused :
    (∀ mode, Instr.getPrevFreq ≠ .init mode) ∧ State.reset.ctx.initialized = false :=
  ⟨by simp, rfl⟩

theorem witness_RejectedHdtRefusesEveryCommand :
    hdtOk (underBad Session.fresh).hdt = false ∧ (underBad Session.fresh).ctx.initialized = false
      ∧ (underBad tuned).ctx.initialized = true
      ∧ (∀ mode, Instr.getPer ≠ .init mode) ∧ (∃ mode, Instr.init .fm = .init mode) :=
  ⟨by decide, rfl, rfl, by simp, ⟨.fm, rfl⟩⟩

theorem witness_OnlyTheSpecsRefusals :
    exec .getPer (startAt Session.fresh) = .refused .notInitialised
      ∧ exec (.init .tdmb) (underBad Session.fresh) = .refused .hdtRejected
      ∧ ∃ t, exec .getPrevFreq { startAt tuned with getterRefused := true } = .next t
        ∧ t.getterRefused = true := ⟨rfl, rfl, _, rfl, rfl⟩

theorem witness_StepKeepsInvariant :
    Inv { startAt twoBound with inbox := [0x21, 0x05] }
      ∧ ∃ t, step { startAt twoBound with inbox := [0x21, 0x05] } = .next t :=
  ⟨inv_twoBound _, ⟨_, rfl⟩⟩

theorem witness_InvariantRulesOutFaults : Inv { startAt twoBound with inbox := [0x22] } :=
  inv_twoBound _

theorem witness_AllocatorRulesHoldOnEveryRun :
    Inv { startAt twoBound with inbox := [0x21, 0x05, 0x21, 0x03] }
      ∧ ∃ t, Sys2Proof.core.run 2 { startAt twoBound with inbox := [0x21, 0x05, 0x21, 0x03] }
          = .next t := ⟨inv_twoBound _, ⟨_, rfl⟩⟩

theorem witness_StepKeepsHdtAndHistory :
    ∃ t, step { startAt twoBound with inbox := [0x21, 0x05] } = .next t := ⟨_, rfl⟩

theorem witness_OnlyInitWritesModeAndCrystal :
    (∀ mode, Instr.closeSubch 5 ≠ .init mode)
      ∧ ∃ t, exec (.closeSubch 5) (startAt twoBound) = .next t := ⟨by simp, ⟨_, rfl⟩⟩

theorem witness_AcceptedCommandsReturn :
    hdtOk (startAt twoBound).hdt = true ∧ (startAt twoBound).ctx.initialized = true
      ∧ AllocInv (startAt twoBound).hdt (startAt twoBound).ctx :=
  ⟨by decide, rfl, allocInv_twoBound⟩

/-- A getter command within `INIT`, met before its second port call. -/
def getterInInit : State :=
  { ready Session.fresh [1] with inbox := [0x35], sched := [0, 1] }

/-- A lock at the first and at the tenth poll; a getter command within the first. -/
theorem witness_InitOpensSession :
    (decode getterInInit.inbox = .ok (.getCer, []) ∧ getterCmd .getCer = some .cer
      ∧ getterInInit.getter = none ∧ getterInInit.sched = 0 :: (0 + 1) :: []
      ∧ getterInInit.ctlAnswers = [] ++ 1 :: []) ∧
    ∀ lo ∈ [[], List.replicate 9 (0 : Byte)],
      hdtOk (ready Session.fresh (lo ++ [1])).hdt = true ∧ ReceiverMode.tdmb ∈ tc.supportedModes
        ∧ adcTuple tc tc.xtalKhz tc.adc.clkInit = some sourceTuple ∧ lo.length < 10
        ∧ AllClear tc.adc.lockBit lo ∧ bitOf tc.adc.lockBit.pos 1 = true
        ∧ (ready Session.fresh (lo ++ [1])).ctlAnswers = lo ++ 1 :: [] := by decide

/-- TC whose initial clock type has no tuple. -/
def noTupleHdt : Hdt := { tc with adc := { tcAdc with clkInit := .clk9600 } }

theorem witness_InitFailures :
    (hdtOk tc = true ∧ ReceiverMode.fm ∉ tc.supportedModes)
    ∧ (hdtOk noTupleHdt = true ∧ ReceiverMode.tdmb ∈ noTupleHdt.supportedModes
      ∧ adcTuple noTupleHdt noTupleHdt.xtalKhz noTupleHdt.adc.clkInit = none)
    ∧ (hdtOk tc = true ∧ ReceiverMode.isdb1seg ∈ tc.supportedModes
      ∧ adcTuple tc tc.xtalKhz tc.adc.clkInit = some sourceTuple
      ∧ (List.replicate 10 (0 : Byte)).length = 10
      ∧ AllClear tc.adc.lockBit (List.replicate 10 0)
      ∧ (ready Session.fresh (List.replicate 10 0)).ctlAnswers = List.replicate 10 0 ++ []) := by
  decide

theorem witness_PrevFreqReturned : Ready (startAt tuned) := by decide

theorem witness_AdcShortCircuitAndUnsupported :
    Ready (startAt tuned) ∧ (startAt tuned).ctx.adcClk = some .clk8192
      ∧ (startAt tuned).ctx.adcClk ≠ some .clk9600
      ∧ adcTuple tc (startAt tuned).ctx.xtal .clk9600 = none := by decide

/-- For both ADC commands: a lock at the tenth poll, and none at ten. -/
theorem witness_AdcConfigureOutcomes :
    Ready (ready tuned (List.replicate 10 0)) ∧ tuned.adcClk ≠ some .clk8000
      ∧ adcTuple tc tuned.xtal .clk8000 = some #v[0x11, 0x12, 0x13, 0x14, 0x15, 0x16, 0x17]
      ∧ AllClear tc.adc.lockBit (List.replicate 9 0) ∧ bitOf tc.adc.lockBit.pos 1 = true
      ∧ (ready tuned (List.replicate 9 0 ++ [1])).ctlAnswers = List.replicate 9 0 ++ 1 :: []
      ∧ AllClear tc.adc.lockBit (List.replicate 10 0)
      ∧ (ready tuned (List.replicate 10 0)).ctlAnswers = List.replicate 10 0 ++ [] := by decide

theorem witness_AdcChangeClockOutcomes :
    Ready (ready tuned [0xFE, 0x01]) ∧ tuned.adcClk ≠ some .clk8000
      ∧ adcTuple tc tuned.xtal .clk8000 = some #v[0x11, 0x12, 0x13, 0x14, 0x15, 0x16, 0x17]
      ∧ AllClear tc.adc.lockBit [0xFE] ∧ bitOf tc.adc.lockBit.pos 0x01 = true
      ∧ (ready tuned [0xFE, 0x01]).ctlAnswers = [0xFE] ++ 0x01 :: []
      ∧ AllClear tc.adc.lockBit (List.replicate 10 0)
      ∧ (ready tuned (List.replicate 10 0)).ctlAnswers = List.replicate 10 0 ++ [] := by decide

/-- Vectors F3, F5, F4 and F11. -/
theorem witness_SetFreqEarlyErrors :
    Ready (startAt tuned)
      ∧ synthPrepare tc tuned .tdmb 0 100000 = .error .invalidMode
      ∧ synthPrepare tc tuned .tdmb 0 199000 = .error .invalidMode
      ∧ synthPrepare tc tuned .tdmb 0 215000 = .ok (.clk9600, 0x200000)
      ∧ tuned.adcClk ≠ some .clk9600 ∧ adcTuple tc tuned.xtal .clk9600 = none
      ∧ synthPrepare tc tuned .tdmb 0 216000 = .ok (.clk8000, 0x200000)
      ∧ adcTuple tc tuned.xtal .clk8000 = some #v[0x11, 0x12, 0x13, 0x14, 0x15, 0x16, 0x17]
      ∧ AllClear tc.adc.lockBit (List.replicate 10 0)
      ∧ (ready tuned (List.replicate 10 0)).ctlAnswers = List.replicate 10 0 ++ [] := by decide

/-- Nine mismatches and a match, nine clear polls and a lock. -/
theorem witness_SetFreqTunes :
    Ready (startAt (opened .tdmb)) ∧ synthPrepare tc (opened .tdmb) .tdmb 0 181280 = .ok (.clk8192, 0x123456)
      ∧ (opened .tdmb).adcClk = some .clk8192
      ∧ (List.replicate 9 zero3).length < 10
      ∧ (∀ x ∈ List.replicate 9 zero3, ¬Matches .tdmb (tuneWord tc .tdmb 0x123456) x.value)
      ∧ Matches .tdmb (tuneWord tc .tdmb 0x123456) rb181280.value
      ∧ (List.replicate 9 (0 : Byte)).length < 10 ∧ AllClear tc.pll.lockBit (List.replicate 9 0)
      ∧ bitOf tc.pll.lockBit.pos 1 = true
      ∧ (ready (opened .tdmb) (readBytes (List.replicate 9 zero3) ++ rb181280.bytes
            ++ List.replicate 9 0 ++ [1])).ctlAnswers
          = readBytes (List.replicate 9 zero3) ++ rb181280.bytes ++ List.replicate 9 0 ++ 1 :: [] := by
  decide +kernel

/-- Vector F10. -/
theorem witness_SetFreqReclocksThenTunes :
    Ready (startAt tuned) ∧ synthPrepare tc tuned .tdmb 0 216000 = .ok (.clk8000, 0x200000)
      ∧ tuned.adcClk ≠ some .clk8000
      ∧ adcTuple tc tuned.xtal .clk8000 = some #v[0x11, 0x12, 0x13, 0x14, 0x15, 0x16, 0x17]
      ∧ AllClear tc.adc.lockBit [] ∧ bitOf tc.adc.lockBit.pos 1 = true
      ∧ (∀ x ∈ ([] : List Read3), ¬Matches .tdmb (tuneWord tc .tdmb 0x200000) x.value)
      ∧ Matches .tdmb (tuneWord tc .tdmb 0x200000) (Read3.mk 0x20 0 0).value
      ∧ AllClear tc.pll.lockBit [] ∧ bitOf tc.pll.lockBit.pos 1 = true
      ∧ (ready tuned [1, 0x20, 0, 0, 1]).ctlAnswers
          = [] ++ 1 :: (readBytes [] ++ (Read3.mk 0x20 0 0).bytes ++ [] ++ 1 :: []) := by
  decide +kernel

/-- TC's test tuple for 8 MHz. -/
def tuple8000 : Vector Byte 7 := #v[0x11, 0x12, 0x13, 0x14, 0x15, 0x16, 0x17]

/-- The ADC step of vector F10: the clock type 8 MHz locks at the first poll. -/
theorem adcStep_8000 (c : Session) (hx : c.xtal = 16384) (hc : c.adcClk = some .clk8192) :
    ∃ es, AdcStep tc c .clk8000 [1] es :=
  ⟨_, .locks tuple8000 [] 1 (by rw [hc]; decide) (by rw [hx]; decide) (by decide) (by decide)
    (by decide)⟩

/-- Vectors F7 and F9, and the same after an ADC step that locks. -/
theorem witness_SetFreqPllTimeouts :
    Ready (startAt tuned) ∧ synthPrepare tc tuned .tdmb 0 181280 = .ok (.clk8192, 0x123456)
      ∧ AdcStep tc tuned .clk8192 [] []
      ∧ (∀ x ∈ List.replicate 9 zero3, ¬Matches .tdmb (tuneWord tc .tdmb 0x123456) x.value)
      ∧ (List.replicate 9 zero3).length = 9
      ∧ ¬Matches .tdmb (tuneWord tc .tdmb 0x123456) zero3.value
      ∧ (ready tuned (readBytes (List.replicate 10 zero3))).ctlAnswers
          = [] ++ (readBytes (List.replicate 9 zero3) ++ zero3.bytes) ++ []
      ∧ Matches .tdmb (tuneWord tc .tdmb 0x123456) rb181280.value
      ∧ AllClear tc.pll.lockBit (List.replicate 10 0)
      ∧ (ready tuned (rb181280.bytes ++ List.replicate 10 0)).ctlAnswers
          = [] ++ (readBytes [] ++ rb181280.bytes ++ List.replicate 10 0) ++ []
      ∧ synthPrepare tc tuned .tdmb 0 216000 = .ok (.clk8000, 0x200000)
      ∧ ∃ es, AdcStep tc tuned .clk8000 [1] es :=
  ⟨by decide, by decide +kernel, .current rfl, by decide +kernel, rfl, by decide +kernel, rfl,
    by decide +kernel, by decide, rfl, by decide +kernel, adcStep_8000 tuned rfl rfl⟩

theorem witness_SynthBudget :
    ∃ x, synthSetFrequency .tdmb 0 100000 (startAt tuned) = (.error .invalidMode, x) := ⟨_, rfl⟩

theorem witness_ClockAndTuneFrame :
    (∃ t, exec (.adcConfigure .tdmb .clk8192) (startAt tuned) = .next t)
      ∧ (∃ t, exec (.adcChangeClock .tdmb .clk8192) (startAt tuned) = .next t)
      ∧ (∃ t, exec (.setFreq .tdmb 0 100000) (startAt tuned) = .next t) :=
  ⟨⟨_, rfl⟩, ⟨_, rfl⟩, ⟨_, rfl⟩⟩

theorem witness_AllocatorFrame :
    (∃ t, exec (.closeSubch 5) (startAt twoBound) = .next t)
      ∧ (∃ t, exec .closeAllSubch (startAt twoBound) = .next t)
      ∧ (∃ t, exec (.openSubch 181280 3 .data 0) (startAt twoBound) = .next t)
      ∧ AtTunedFreq (startAt twoBound) 181280
      ∧ (∃ t, exec (.openSubch 100000 3 .data 0) (startAt twoBound) = .next t)
      ∧ OpenAdmitted (startAt twoBound) 3 0 ∧ ¬AtTunedFreq (startAt twoBound) 100000
      ∧ (∃ t, exec (.scanFreq 100000) (startAt twoBound) = .next t)
      ∧ isDabMode (startAt twoBound).ctx.mode = true :=
  ⟨⟨_, rfl⟩, ⟨_, rfl⟩, ⟨_, rfl⟩, by decide, ⟨_, rfl⟩, ⟨by decide, by decide, by decide⟩, by decide,
    ⟨_, rfl⟩, rfl⟩

/-- Without getter moves; and each frequency change with getter commands in it, answered by sentinels. -/
theorem witness_ControlCommandsLeaveGetterAlone :
    (agentOf (.closeSubch 5) = .control ∧ (startAt twoBound).sched = []
      ∧ (∃ t, exec (.closeSubch 5) (startAt twoBound) = .next t)
      ∧ ∀ mode, Instr.closeSubch 5 ≠ .init mode)
    ∧ ¬AtTunedFreq (startAt twoBound) 216000
    ∧ ∀ i ∈ [Instr.setFreq .tdmb 0 216000, .scanFreq 216000, .openSubch 216000 3 .data 0],
      (match exec i { ready twoBound ([1, 0x20, 0, 0, 1] ++ [2, 0, 0]) with
          inbox := [0x35, 0x36, 0x00, 0x00], sched := [0, 1, 0, 1] } with
        | .next t => some (repliesOf .getter t)
        | _ => none) = some [.value 2000, .value 0] :=
  ⟨⟨rfl, rfl, ⟨_, rfl⟩, by simp⟩, by decide, by decide +kernel⟩

theorem witness_GetterFrame :
    agentOf .getPer = .getter ∧ (∃ t, exec .getPer (ready tuned [0]) = .next t)
      ∧ (ready tuned [0]).getter = none ∧ ∀ cer, Instr.getPer ≠ .getAntennaLevel cer :=
  ⟨rfl, ⟨_, rfl⟩, rfl, by simp⟩

/-- The third check fails in ISDB-T; the group is full after vector AL2. -/
theorem witness_OpenRejections :
    Ready (startAt twoBound) ∧ tc.alloc.framing = .individual ∧ tc.alloc.maxThrIndividual < 4097
      ∧ (Ready (startAt (opened .isdb1seg)) ∧ (opened .isdb1seg).mode = .isdb1seg)
      ∧ OpenAdmitted (startAt twoBound) 63 4096 ∧ AtTunedFreq (startAt twoBound) 181280
      ∧ registered twoBound 63 = false ∧ tc.alloc.multiSubch = true
      ∧ ∀ k, 1 ≤ k → k ≤ tc.alloc.numDataSlots → slotBound twoBound k = true :=
  ⟨by decide, rfl, by decide, by decide, ⟨by decide, by decide, by decide⟩, by decide, by decide, rfl,
    fun k h1 h2 => by
      have : k ≤ 2 := h2
      interval_cases k <;> decide⟩

theorem witness_ReopenIsIdempotent :
    Ready (startAt { twoBound with streamSuspended := true })
      ∧ OpenAdmitted (startAt { twoBound with streamSuspended := true }) 3 0
      ∧ AtTunedFreq (startAt { twoBound with streamSuspended := true }) 181280
      ∧ registered { twoBound with streamSuspended := true } 3 = true :=
  ⟨by decide, ⟨by decide, by decide, by decide⟩, by decide, by decide⟩

/-- A second data binding, and a video binding at its threshold's cap and the highest ID. -/
theorem witness_OpenBindsNewId :
    Ready (startAt oneBound) ∧ AllocInv tc oneBound ∧ AtTunedFreq (startAt oneBound) 181280
      ∧ tc.alloc.multiSubch = true
      ∧ (OpenAdmitted (startAt oneBound) 5 0 ∧ registered oneBound 5 = false
        ∧ groupFull tc oneBound (groupOf .data) = false)
      ∧ (OpenAdmitted (startAt oneBound) 63 4096 ∧ registered oneBound 63 = false
        ∧ groupFull tc oneBound (groupOf .video) = false) :=
  ⟨by decide, allocInv_oneBound, by decide, rfl,
    ⟨⟨by decide, by decide, by decide⟩, by decide, by decide⟩,
    ⟨⟨by decide, by decide, by decide⟩, by decide, by decide⟩⟩

/-- Vector AL19. -/
theorem witness_OpenEvictsTheOneBinding :
    Ready (underSingle oneBound) ∧ AllocInv singleHdt oneBound
      ∧ OpenAdmitted (underSingle oneBound) 40 100 ∧ AtTunedFreq (underSingle oneBound) 181280
      ∧ registered oneBound 40 = false ∧ singleHdt.alloc.multiSubch = false :=
  ⟨by decide, allocInv_single, ⟨by decide, by decide, by decide⟩, by decide, by decide, rfl⟩

/-- A tune whose clock type is current: nine mismatches and a match, nine clear polls and a lock. -/
theorem tune_current :
    ∃ es, Tune tc twoBound twoBound.mode 0 181280
      ([] ++ (readBytes (List.replicate 9 zero3) ++ rb181280.bytes ++ (List.replicate 9 0 ++ [1]))) es
      (some .clk8192) (.ok ()) :=
  ⟨_, .pll .clk8192 0x123456 _ _ _ _ _ (by decide +kernel) (.current rfl)
    (.tuned _ _ _ _ (by decide) (by decide +kernel) (by decide +kernel) (by decide) (by decide)
      (by decide))⟩

/-- A tune that configures the ADC clock first (vector AL15). -/
theorem tune_reclocked :
    ∃ es, Tune tc twoBound twoBound.mode 0 216000
      ([1] ++ (readBytes [] ++ (Read3.mk 0x20 0 0).bytes ++ ([] ++ [1]))) es
      (some .clk8000) (.ok ()) := by
  obtain ⟨_, h⟩ := adcStep_8000 twoBound rfl rfl
  exact ⟨_, .pll .clk8000 0x200000 _ _ _ _ _ (by decide +kernel) h
    (.tuned _ _ _ _ (by decide) (by decide +kernel) (by decide +kernel) (by decide) (by decide)
      (by decide))⟩

/-- A tune that fails in each of its ways: the lookup, the clock type, the ADC lock, the read-back, the PLL
lock (vectors AL21, SC20, SC19, AL16, F9). -/
theorem tune_fails :
    (∃ es, Tune tc twoBound twoBound.mode 0 100000 [] es (some .clk8192) (.error .invalidMode))
      ∧ (∃ es, Tune tc twoBound twoBound.mode 0 215000 [] es (some .clk8192)
          (.error .unsupportedAdcClock))
      ∧ (∃ es, Tune tc twoBound twoBound.mode 0 216000 (List.replicate 10 0) es none
          (.error .adcClockUnlocked))
      ∧ (∃ es, Tune tc twoBound twoBound.mode 0 183008
          ([] ++ (readBytes (List.replicate 9 zero3) ++ zero3.bytes)) es (some .clk8192)
          (.error .pllUnlocked))
      ∧ (∃ es, Tune tc twoBound twoBound.mode 0 183008
          ([] ++ (readBytes [] ++ (Read3.mk 0x20 0 0).bytes ++ List.replicate 10 0)) es
          (some .clk8192) (.error .pllUnlocked)) :=
  ⟨⟨_, .lookup .invalidMode (by decide +kernel)⟩,
    ⟨_, .unsupported .clk9600 0x200000 (by decide +kernel) (by decide) (by decide)⟩,
    ⟨_, .adcUnlocked .clk8000 0x200000 tuple8000 _ (by decide +kernel) (by decide) (by decide)
      (by decide) (by decide)⟩,
    ⟨_, .pll .clk8192 0x200000 _ _ _ _ _ (by decide +kernel) (.current rfl)
      (.mismatch _ _ rfl (by decide +kernel))⟩,
    ⟨_, .pll .clk8192 0x200000 _ _ _ _ _ (by decide +kernel) (.current rfl)
      (.unlocked _ _ _ (by decide) (by decide +kernel) (by decide +kernel) (by decide) (by decide))⟩⟩

/-- Two bindings; the tuned channel left for one with the clock type current, and for one that needs another
(vectors F15 and AL15). -/
theorem witness_OpenRetunes :
    Ready (startAt twoBound) ∧ AllocInv tc twoBound ∧ OpenAdmitted (startAt twoBound) 3 1024
      ∧ ¬AtTunedFreq (startAt twoBound) 183008
      ∧ (∃ es, Tune tc twoBound twoBound.mode 0 183008
          ([] ++ (readBytes [] ++ (Read3.mk 0x20 0 0).bytes ++ ([] ++ [1]))) es (some .clk8192) (.ok ()))
      ∧ ¬AtTunedFreq (startAt twoBound) 216000
      ∧ (∃ es, Tune tc twoBound twoBound.mode 0 216000
          ([1] ++ (readBytes [] ++ (Read3.mk 0x20 0 0).bytes ++ ([] ++ [1]))) es
          (some .clk8000) (.ok ()))
      ∧ (ready twoBound [1, 0x20, 0, 0, 1]).ctlAnswers
          = [1] ++ (readBytes [] ++ (Read3.mk 0x20 0 0).bytes ++ ([] ++ [1])) ++ [] :=
  ⟨by decide, allocInv_twoBound, ⟨by decide, by decide, by decide⟩, by decide,
    ⟨_, .pll .clk8192 0x200000 _ _ _ _ _ (by decide +kernel) (.current rfl)
      (.tuned _ _ _ _ (by decide) (by decide +kernel) (by decide +kernel) (by decide) (by decide)
        (by decide))⟩,
    by decide, tune_reclocked, rfl⟩

/-- Each of a tune's failures. -/
theorem witness_OpenRetuneFailures :
    Ready (startAt twoBound) ∧ AllocInv tc twoBound ∧ OpenAdmitted (startAt twoBound) 3 1024
      ∧ (∀ f ∈ [100000, 215000, 216000, 183008], ¬AtTunedFreq (startAt twoBound) f)
      ∧ (∃ as es clk, Tune tc twoBound twoBound.mode 0 100000 as es clk (.error .invalidMode)
        ∧ (ready twoBound as).ctlAnswers = as ++ [])
      ∧ (∃ as es clk, Tune tc twoBound twoBound.mode 0 215000 as es clk (.error .unsupportedAdcClock)
        ∧ (ready twoBound as).ctlAnswers = as ++ [])
      ∧ (∃ as es clk, Tune tc twoBound twoBound.mode 0 216000 as es clk (.error .adcClockUnlocked)
        ∧ (ready twoBound as).ctlAnswers = as ++ [])
      ∧ (∃ as es clk, Tune tc twoBound twoBound.mode 0 183008 as es clk (.error .pllUnlocked)
        ∧ (ready twoBound as).ctlAnswers = as ++ []) := by
  obtain ⟨⟨_, h1⟩, ⟨_, h2⟩, ⟨_, h3⟩, ⟨_, h4⟩, _⟩ := tune_fails
  exact ⟨by decide, allocInv_twoBound, ⟨by decide, by decide, by decide⟩, by decide,
    ⟨_, _, _, h1, rfl⟩, ⟨_, _, _, h2, rfl⟩, ⟨_, _, _, h3, rfl⟩, ⟨_, _, _, h4, rfl⟩⟩

theorem witness_CloseReleasesOneId :
    Ready (startAt twoBound) ∧ 64 ≤ 64 ∧ 63 < 64 ∧ registered twoBound 63 = false
      ∧ registered twoBound 5 = true ∧ AllocInv tc twoBound :=
  ⟨by decide, by decide, by decide, by decide, by decide, allocInv_twoBound⟩

theorem witness_CloseAllReleasesEveryId : Ready (startAt twoBound) ∧ AllocInv tc twoBound :=
  ⟨by decide, allocInv_twoBound⟩

theorem witness_StreamOffSuspends :
    Ready (startAt { twoBound with streamSuspended := true }) := by decide

theorem witness_ScanRecordsFrequency :
    (Ready (startAt (opened .isdb1seg)) ∧ (opened .isdb1seg).mode = .isdb1seg)
      ∧ (Ready (startAt twoBound) ∧ twoBound.mode = .tdmb ∧ AllocInv tc twoBound)
      ∧ (∃ as es clk, Tune tc twoBound twoBound.mode 0 216000 as es clk (.ok ())
        ∧ (ready twoBound (as ++ [2, 0, 0])).ctlAnswers = as ++ [2, 0, 0]) := by
  obtain ⟨_, h⟩ := tune_reclocked
  exact ⟨by decide, ⟨by decide, rfl, allocInv_twoBound⟩, ⟨_, _, _, h, rfl⟩⟩

/-- Each of a tune's failures, with ten clear lock polls for the last. -/
theorem witness_ScanMapsTuneErrors :
    Ready (startAt twoBound) ∧ AllocInv tc twoBound ∧ twoBound.mode = .tdmb
      ∧ (∃ as es clk, Tune tc twoBound twoBound.mode 0 100000 as es clk (.error .invalidMode)
        ∧ (ready twoBound as).ctlAnswers = as ++ [])
      ∧ (∃ as es clk, Tune tc twoBound twoBound.mode 0 215000 as es clk (.error .unsupportedAdcClock)
        ∧ (ready twoBound as).ctlAnswers = as ++ [])
      ∧ (∃ as es clk, Tune tc twoBound twoBound.mode 0 216000 as es clk (.error .adcClockUnlocked)
        ∧ (ready twoBound as).ctlAnswers = as ++ [])
      ∧ (∃ as es clk, Tune tc twoBound twoBound.mode 0 183008 as es clk (.error .pllUnlocked)
        ∧ (ready twoBound as).ctlAnswers = as ++ []) := by
  obtain ⟨⟨_, h1⟩, ⟨_, h2⟩, ⟨_, h3⟩, _, _, h5⟩ := tune_fails
  exact ⟨by decide, allocInv_twoBound, rfl,
    ⟨_, _, _, h1, rfl⟩, ⟨_, _, _, h2, rfl⟩, ⟨_, _, _, h3, rfl⟩, ⟨_, _, _, h5, rfl⟩⟩

/-- The last of 10,000 iterations, with either status, and the timeout. -/
theorem witness_ScanPollDecides :
    (∀ x ∈ List.replicate 10000 zero3, x.h ∉ tc.scan.notSignal ∧ x.h ∉ tc.scan.signal)
      ∧ (List.replicate 9999 zero3).length < 10000 ∧ (Read3.mk 2 0 0).h ∈ tc.scan.notSignal
      ∧ (Read3.mk 1 3 0xE8).h ∉ tc.scan.notSignal ∧ (Read3.mk 1 3 0xE8).h ∈ tc.scan.signal
      ∧ (List.replicate 10000 zero3).length = 10000
      ∧ (ready tuned (readBytes (List.replicate 10000 zero3) ++ [])).ctlAnswers
          = readBytes (List.replicate 10000 zero3) ++ [] :=
  ⟨fun x hx => by rw [List.eq_of_mem_replicate hx]; decide,
    (List.length_replicate (n := 9999)).trans_lt (by decide), by decide, by decide, by decide,
    List.length_replicate, rfl⟩

/-- Vectors SC5 (both ends of the band), SC6 and SC7, and a gain of 0. -/
theorem witness_PreGateRejects :
    field2 tc.scan.txmode.lo 0 = 0
      ∧ (scanThr tc 0).cfLo ≤ (0 : Byte).toNat * 256 + (100 : Byte).toNat
      ∧ (0 : Byte).toNat * 256 + (200 : Byte).toNat ≤ (scanThr tc 0).cfHi
      ∧ 999 < (scanThr tc 0).power
      ∧ (19 : Byte).toNat < (scanThr tc 0).gain ∧ (0 : Byte).toNat = 0
      ∧ (ready tuned [50, 0, 0, 100]).ctlAnswers = GateReads.bytes ⟨50, 0, 0, 100⟩ ++ [] := by decide

/-- A DC check at both ends of its windows, 5 and 65530. -/
def dcAtEdges : List Byte := [0, 5, 0xFF, 0xFA]

/-- A channel that is accepted at the last moment: a gain that needs the DC check, eleven null lengths out
of range, four unlocks of a limit of five, 99 iterations before a coarse count above 1, a lock at the
fiftieth poll. -/
def goodReads : ChannelReads where
  gate := ⟨50, 0, 0, 250⟩
  nulls := List.replicate 11 ⟨0x0A, 0x27, 0⟩ ++ List.replicate 4 ⟨0x0A, 0x5A, 0⟩
  waiting := List.replicate 4 ⟨0, dcAtEdges, 0xFF, 1⟩ ++ List.replicate 95 ⟨0, dcAtEdges, 0, 1⟩
  last := ⟨0, dcAtEdges, 0, 2⟩
  polls := List.replicate 49 0
  lock := 1

theorem dcAtEdges_passes : DcPasses tc 0 50 dcAtEdges :=
  .inr ⟨by decide, 0, 5, 0xFF, 0xFA, rfl, by decide, by decide⟩

theorem goodReads_gate : goodReads.gate.Pass tc 0 1000 where
  mode := by decide
  coarse := by decide
  power := by decide
  gain := by decide
  nonzero := by decide

theorem goodReads_waiting :
    ∀ x ∈ goodReads.waiting, x.Pass tc 0 goodReads.gate.gain.toNat ∧ x.count.toNat ≤ 1 := by
  intro x hx
  rcases List.mem_append.1 hx with h | h <;> rw [List.eq_of_mem_replicate h] <;>
    exact ⟨⟨rfl, dcAtEdges_passes⟩, by decide⟩

theorem goodReads_good : goodReads.Good tc 0 1000 where
  gate := goodReads_gate
  stable := by decide
  nulls := by decide
  waiting := ⟨by decide, goodReads_waiting⟩
  last := ⟨⟨rfl, dcAtEdges_passes⟩, by decide⟩
  unlocks := by decide
  lock := by decide

theorem witness_ClassifyAcceptsGoodChannel :
    goodReads.Good tc 0 1000
      ∧ (ready tuned (goodReads.bytes ++ [])).ctlAnswers = goodReads.bytes ++ [] :=
  ⟨goodReads_good, rfl⟩

/-- Both forms of the tune, then one undecided iteration and the channel above. -/
theorem witness_ScanSucceeds :
    Ready (startAt twoBound) ∧ AllocInv tc twoBound ∧ twoBound.mode = .tdmb
      ∧ (∀ x ∈ [zero3], x.h ∉ tc.scan.notSignal ∧ x.h ∉ tc.scan.signal)
      ∧ (Read3.mk 1 3 0xE8).h ∈ tc.scan.signal
      ∧ goodReads.Good tc 0 ((3 : Byte).toNat * 256 + (0xE8 : Byte).toNat)
      ∧ (∃ as es clk, Tune tc twoBound twoBound.mode 0 181280 as es clk (.ok ())
        ∧ (ready twoBound (as ++ (readBytes [zero3] ++ (Read3.mk 1 3 0xE8).bytes ++ goodReads.bytes
            ++ []))).ctlAnswers
          = as ++ (readBytes [zero3] ++ (Read3.mk 1 3 0xE8).bytes ++ goodReads.bytes ++ []))
      ∧ (∃ as es clk, Tune tc twoBound twoBound.mode 0 216000 as es clk (.ok ())
        ∧ clk ≠ twoBound.adcClk) := by
  obtain ⟨_, h1⟩ := tune_current
  obtain ⟨_, h2⟩ := tune_reclocked
  exact ⟨by decide, allocInv_twoBound, rfl, by decide, by decide, goodReads_good,
    ⟨_, _, _, h1, rfl⟩, ⟨_, _, _, h2, by decide⟩⟩

/-- Phase f: a changed mode at the first and at the fifteenth iteration, too many null lengths at the
fourteenth and only at the fifteenth, and a low gain with ten of them. -/
theorem witness_PhaseFRejects :
    (GateReads.Pass tc 0 1000 ⟨39, 0, 0, 250⟩ ∧ goodReads.gate.Pass tc 0 1000)
      ∧ (∀ n ∈ [0, 14], Stable tc 0 (List.replicate n (Read3.mk 0x0A 0x5A 0)) ∧ n ≤ 14
        ∧ ¬TooMany tc 0 39 (List.replicate n (Read3.mk 0x0A 0x5A 0)))
      ∧ field2 tc.scan.txmode.lo (Read3.mk 0 0 1).l ≠ 0
      ∧ TooMany tc 0 39 (goodReads.nulls.take 14)
      ∧ Stable tc 0 ((Read3.mk 0x0A 0x5A 0) :: goodReads.nulls.reverse.take 14)
      ∧ TooMany tc 0 39 (List.replicate 4 (Read3.mk 0x0A 0x5A 0) ++ List.replicate 11 (Read3.mk 0x0A 0x8D 0))
      ∧ ¬TooMany tc 0 39
          ((List.replicate 4 (Read3.mk 0x0A 0x5A 0) ++ List.replicate 11 (Read3.mk 0x0A 0x8D 0)).take 14)
      ∧ outOfRange tc 0 (goodReads.nulls.drop 1) = 10 ∧ ¬TooMany tc 0 39 (goodReads.nulls.drop 1) :=
  ⟨⟨⟨by decide, by decide, by decide, by decide, by decide⟩, goodReads_gate⟩, by decide, by decide,
    by decide, by decide, by decide, by decide, by decide, by decide⟩

/-- Phase g, after 99 iterations that go on: vectors SC9 (a changed mode), SC12 and SC13 (a DC offset out of
its window), the fifth unlock with a low gain and the ninth with a high one (SC14), no coarse count, no lock,
and both limits. -/
theorem witness_PhasesFAndGReject :
    (∀ x ∈ goodReads.waiting, x.Pass tc 0 50 ∧ x.count.toNat ≤ 1)
      ∧ 0 + unlocks tc goodReads.waiting < 5
      ∧ field2 tc.scan.txmode.lo 1 ≠ 0 ∧ field2 tc.scan.txmode.lo 0 = 0
      ∧ 50 < (scanThr tc 0).dcGainHigh
      ∧ ¬InWindow ((0 : Byte).toNat * 256 + (6 : Byte).toNat)
      ∧ ¬InWindow ((0xFF : Byte).toNat * 256 + (0xF9 : Byte).toNat)
      ∧ DcPasses tc 0 50 dcAtEdges ∧ (0xFF : Byte) ∈ tc.scan.fsmUnlock
      ∧ 5 ≤ 0 + unlocks tc goodReads.waiting + 1
      ∧ DcPasses tc 0 60 [] ∧ 9 ≤ 8 + unlocks tc [] + 1
      ∧ (goodReads.waiting ++ goodReads.waiting.take 1).length = 100
      ∧ goodReads.last.Pass tc 0 50 ∧ 1 < goodReads.last.count.toNat
      ∧ 0 + unlocks tc (goodReads.waiting ++ [goodReads.last]) < 5
      ∧ AllClear (ofdmLockBit tc) (List.replicate 50 0)
      ∧ (scanThr tc 0).nlMarginal ≤ 5 ∧ 4 < (scanThr tc 0).nlMarginal :=
  ⟨goodReads_waiting, by decide, by decide, by decide, by decide, by decide, by decide,
    dcAtEdges_passes, by decide, by decide, .inl ⟨by decide, rfl⟩, by decide, by decide,
    ⟨rfl, dcAtEdges_passes⟩, by decide, by decide, by decide, by decide, by decide⟩

/-- The answers of vector SC15. -/
def goodScan : List Byte :=
  [0x12, 0x34, 0x56, 1] ++ [1, 4, 0] ++ [70, 0, 0, 250]
    ++ readBytes (List.replicate 15 ⟨0x0A, 0x5A, 0⟩) ++ [0, 0, 2, 0, 1]

/-- A scan that answers `SUCCESS`. -/
theorem witness_SuccessNeedsOfdmLock :
    ∃ t, exec (.scanFreq 181280) (ready tuned goodScan) = .next t
      ∧ repliesOf .control t = [] ++ [.verdict .success] := by
  have h : (match exec (.scanFreq 181280) (ready tuned goodScan) with
      | .next t => repliesOf .control t
      | _ => []) = [.verdict .success] := by decide +kernel
  split at h
  · exact ⟨_, ‹_›, h⟩
  · cases h

theorem witness_ScanBudget :
    ∃ t v, scanPoll scanPolls (ready tuned [2, 0, 0]) = (v, t) := ⟨_, _, rfl⟩

theorem witness_GettersUnderFlag :
    Ready (startAt { tuned with ccip := true }) ∧ (startAt { tuned with ccip := true }).getter = none
      ∧ (startAt { tuned with ccip := true }).ctx.ccip = true := by decide

theorem witness_LockPerRssiResults :
    Ready (ready tuned [1, 3]) ∧ (ready tuned [1, 3]).getter = none
      ∧ (ready tuned [1, 3]).ctx.ccip = false ∧ (ready tuned [1, 3]).getAnswers = 1 :: 3 :: []
      ∧ bitOf tc.quality.rsSyncBit.pos 0 = false ∧ (ready tuned [0]).getAnswers = 0 :: []
      ∧ bitOf tc.quality.rsSyncBit.pos 1 = true
      ∧ (ready tuned [1, 0xFF, 0xFF]).getAnswers = 1 :: 0xFF :: 0xFF :: [] := by decide

/-- The four cases at their ends: raw 0, 1 and 14, 15 and 160, 161. -/
theorem witness_CnrResult :
    Ready (ready tuned [0, 160]) ∧ (ready tuned [0, 160]).getter = none
      ∧ (ready tuned [0, 160]).ctx.ccip = false ∧ (ready tuned [0, 160]).getAnswers = 0 :: 160 :: []
      ∧ (0 : Byte).toNat % 32 * 256 + (0 : Byte).toNat = 0
      ∧ (0 : Byte).toNat % 32 * 256 + (14 : Byte).toNat = 14
      ∧ (0 : Byte).toNat % 32 * 256 + (15 : Byte).toNat = 15
      ∧ (0 : Byte).toNat % 32 * 256 + (160 : Byte).toNat = 160 ∧ 160 - 15 < 146
      ∧ 160 < (0 : Byte).toNat % 32 * 256 + (161 : Byte).toNat ∧ hdtOk tc = true := by decide +kernel

/-- Vectors Q5 and Q6: both sync bits in both values, a total of 0, a period of 4000. -/
theorem witness_BerCerResults :
    Ready (ready tuned [0]) ∧ (ready tuned [0]).getter = none ∧ (ready tuned [0]).ctx.ccip = false
      ∧ bitOf tc.quality.rsSyncBit.pos 0 = false ∧ (ready tuned [0]).getAnswers = 0 :: []
      ∧ bitOf tc.quality.rsSyncBit.pos 1 = true
      ∧ (ready tuned [1, 0, 0, 7, 0, 0, 0]).getAnswers
          = 1 :: ((Read3.mk 0 0 7).bytes ++ zero3.bytes ++ [])
      ∧ bitOf tc.quality.cerLockBit.pos 0 = false ∧ bitOf tc.quality.cerLockBit.pos 1 = true
      ∧ (ready tuned [1, 0, 0, 0x0F, 0xA0, 0, 0, 3, 0xE7]).getAnswers
          = 1 :: 0 :: 0 :: 0x0F :: 0xA0 :: 0 :: 0 :: 3 :: 0xE7 :: [] := by decide

/-- The table at both ends of each row, from level 3; and an operation that has read the level 3. -/
theorem witness_AntennaLevelMovesOneStep :
    Ready (startAt { tuned with antLevel := 3 }) ∧ (startAt { tuned with antLevel := 3 }).getter = none
      ∧ (startAt { tuned with antLevel := 3 }).ctx.ccip = false
      ∧ (∀ cer ∈ [0, 179, 180, 249, 250, 399, 400, 489, 490, 699, 700, 809, 810, 65535], cer ≠ 2000)
      ∧ (3 < 6 ∧ 4 = 3 + 1) ∧ (0 < 3 ∧ 2 = 3 - 1)
      ∧ ({ startAt tuned with getter := some ⟨.antennaLevel 900, [], some 3⟩ } : State).getter
          = some ⟨.antennaLevel 900, [], some 3⟩
      ∧ ({ startAt tuned with getter := some ⟨.antennaLevel 900, [], none⟩ } : State).getter
          = some ⟨.antennaLevel 900, [], none⟩ := by
  decide

/-- A getter command at the front of the bytes, with the flag up, and with no session open. -/
theorem witness_GetterMovesRefineOperation :
    (ready tuned [1, 3]).getter = none ∧ (ready tuned [1, 3]).ctx.initialized = true
      ∧ decode [0x30, 0x31] = .ok (.getLockStatus, [0x31])
      ∧ getterCmd .getLockStatus = some .lockStatus
      ∧ (startAt { tuned with ccip := true }).ctx.ccip = true
      ∧ State.reset.getter = none ∧ State.reset.ctx.initialized = false := by decide

theorem witness_ControlOutcomeIgnoresGetters :
    agentOf (.setFreq .tdmb 0 181280) = .control
      ∧ ctlView (ready tuned (List.replicate 40000 0))
          = ctlView { ready tuned (List.replicate 40000 0) with
              ctx := { tuned with antLevel := 3 }, inbox := [0x35], sched := [1, 9, 9] }
      ∧ 40000 ≤ (ready tuned (List.replicate 40000 0)).ctlAnswers.length :=
  ⟨rfl, rfl, (List.length_replicate (n := 40000) (a := (0 : Byte))).ge⟩

end Sys2Proof.Tests
end

namespace Sys2Proof.Machine

/-! ### The checks of an HDT (R8, R12) -/

theorem scanDisjoint_iff (h : Hdt) :
    scanDisjoint h = true ↔ ∀ b : Byte, ¬(b ∈ h.scan.notSignal ∧ b ∈ h.scan.signal) := by
  simp [scanDisjoint]

/-- Comparing neighbours is enough, since the order is transitive. -/
theorem nonIncreasing_iff_pairwise (l : List Nat) :
    nonIncreasing l = true ↔ l.Pairwise (· ≥ ·) := by
  rw [← List.isChain_iff_pairwise]
  fun_induction nonIncreasing l with
  | case1 a b rest ih => simp [ih]
  | case2 l hl =>
    match l, hl with
    | [], _ => simp
    | [a], _ => simp
    | a :: b :: rest, hl => exact absurd rfl (hl a b rest)

theorem nonIncreasing_toList_iff {n : Nat} (v : Vector Nat n) :
    nonIncreasing v.toList = true
      ↔ ∀ (i j : Nat) (hi : i < n) (hj : j < n), i ≤ j → v[j] ≤ v[i] := by
  rw [nonIncreasing_iff_pairwise, List.pairwise_iff_getElem]
  simp only [Vector.length_toList, Vector.getElem_toList]
  constructor
  · intro hlt i j hi hj hij
    rcases hij.eq_or_lt with rfl | hij
    · exact le_rfl
    · exact hlt i j hi hj hij
  · intro hle i j hi hj hij
    exact hle i j hi hj hij.le

theorem tightLimitsOk_iff (h : Hdt) :
    tightLimitsOk h = true ↔ ∀ tm : Fin 4, 1 ≤ h.scan.thresholds[tm].unlockLimitTight
      ∧ h.scan.thresholds[tm].unlockLimitTight ≤ 9 := by
  unfold tightLimitsOk
  rw [List.all_eq_true, List.forall_mem_iff_forall_getElem]
  simp only [Bool.and_eq_true, decide_eq_true_eq, unlockLimit, Fin.forall_iff,
    Vector.length_toList, Vector.getElem_toList, Fin.getElem_fin]

theorem fieldFits_iff (w : Nat) (lo : Fin 8) : fieldFits w lo = true ↔ lo.val + w ≤ 8 := by
  simp [fieldFits]

/-- Settles O9: `hdtOk` is the conjunction of its checks, each of which has its `iff` above. -/
theorem hdtChecksAreThoseOfTheSpec : Obligations.HdtChecksAreThoseOfTheSpec := by
  intro h
  simp only [hdtOk, Bool.and_eq_true, decide_eq_true_eq, scanDisjoint_iff,
    nonIncreasing_toList_iff, tightLimitsOk_iff, fieldFits_iff, and_assoc]

/-! ### The guards of a command (R402, R1007) -/

theorem underHdt_of_rejected {s : State} (hr : hdtOk s.hdt = false) (k : State → Out) :
    underHdt s k = .refused .hdtRejected := by
  simp [underHdt, hr]

theorem inSession_of_closed {s : State} (hi : s.ctx.initialized = false) (k : State → Out) :
    inSession s k = .refused .notInitialised := by
  simp [inSession, hi]

theorem inSession_of_open {s : State} (hi : s.ctx.initialized = true) (k : State → Out) :
    inSession s k = underHdt s k := by
  simp [inSession, hi]

theorem inSession_of_ready {s : State} (hr : Ready s) (k : State → Out) : inSession s k = k s := by
  obtain ⟨hi, hh⟩ := hr
  simp [inSession_of_open hi, underHdt, hh]

/-- `INIT` runs behind the check of the HDT. -/
theorem exec_init_guarded (mode : ReceiverMode) :
    ∃ k, ∀ s, exec (.init mode) s = underHdt s k := ⟨_, fun _ => rfl⟩

/-- Every other command runs behind both guards. -/
theorem exec_guarded {i : Instr} (hi : ∀ mode, i ≠ .init mode) :
    ∃ k, ∀ s, exec i s = inSession s k := by
  cases i with
  | init mode => exact absurd rfl (hi mode)
  | _ => exact ⟨_, fun _ => rfl⟩

/-- A getter command ends with its whole operation (R221). -/
theorem exec_getter {i : Instr} {c : GetterCmd} (hc : getterCmd i = some c) (s : State) :
    exec i s = inSession s fun s => .next (getterOp c s) := by
  cases i <;> cases hc <;> rfl

/-- Settles O10: the guard that stands in front of the command refuses it; the order of the two
refusals is the model's choice (log 11). -/
theorem rejectedHdtRefusesEveryCommand : Obligations.RejectedHdtRefusesEveryCommand := by
  intro i s hr
  by_cases hi : ∃ mode, i = .init mode
  · obtain ⟨mode, rfl⟩ := hi
    obtain ⟨k, hk⟩ := exec_init_guarded mode
    refine ⟨.hdtRejected, by rw [hk, underHdt_of_rejected hr], fun hne => ?_, fun _ => rfl⟩
    exact absurd rfl (hne mode)
  · obtain ⟨k, hk⟩ := exec_guarded (not_exists.1 hi)
    cases ho : s.ctx.initialized with
    | false => exact ⟨.notInitialised, by rw [hk, inSession_of_closed ho], by simp, by simp [hi]⟩
    | true =>
      exact ⟨.hdtRejected, by rw [hk, inSession_of_open ho, underHdt_of_rejected hr], by simp,
        by simp⟩

/-! ### What every command keeps, whatever the oracle answers

A relation of states that holds across the control agent's elementary actions holds across every
operation made of them; `ControlClosed` names those actions once. -/

/-- The context fields that only `INIT` and the getter agent write (R102, R103, R104, R113). -/
structure SameSession (c c' : Session) : Prop where
  initialized : c'.initialized = c.initialized
  mode : c'.mode = c.mode
  xtal : c'.xtal = c.xtal
  antLevel : c'.antLevel = c.antLevel

/-- A preorder on states that holds across each elementary action of a control command other than
`INIT`: an interleaving point, a port call, a reply, and a write of the context that leaves the
session as it is. -/
structure ControlClosed (R : State → State → Prop) : Prop where
  refl : ∀ s, R s s
  trans : ∀ {s t u}, R s t → R t u → R s u
  interleave : ∀ s, R s (interleave s)
  perform : ∀ op s, R s (perform .control op s).2
  reply : ∀ r s, R s (reply .control r s)
  ctx : ∀ s c, SameSession s.ctx c → R s { s with ctx := c }

/-- Every next state of an outcome meets `P`. -/
def NextMeets (P : State → Prop) (o : Out) : Prop := ∀ t, o = .next t → P t

/-- Every state an allocator step leaves meets `P`. -/
def OkMeets (P : State → Prop) (r : Except Fault State) : Prop := ∀ t, r = .ok t → P t

section NextMeets

variable {P : State → Prop}

theorem nextMeets_next {s : State} (h : P s) : NextMeets P (.next s) := by
  rintro t ⟨⟩; exact h

theorem nextMeets_fault (f : Fault) : NextMeets P (.fault f) := by
  rintro t ⟨⟩

theorem nextMeets_refused (r : Refusal) : NextMeets P (.refused r) := by
  rintro t ⟨⟩

theorem nextMeets_underHdt {s : State} {k : State → Out} (h : NextMeets P (k s)) :
    NextMeets P (underHdt s k) := by
  unfold underHdt
  split
  · exact h
  · exact nextMeets_refused _

theorem nextMeets_inSession {s : State} {k : State → Out} (h : NextMeets P (k s)) :
    NextMeets P (inSession s k) := by
  unfold inSession
  split
  · exact nextMeets_underHdt h
  · exact nextMeets_refused _

theorem nextMeets_unlessRefused {s : State} {o : Out} (h : NextMeets P o) :
    NextMeets P (unlessRefused s o) := by
  unfold unlessRefused
  split
  · exact nextMeets_refused _
  · exact h

theorem okMeets_ok {s : State} (h : P s) : OkMeets P (.ok s) := by
  rintro t ⟨⟩; exact h

theorem okMeets_error (f : Fault) : OkMeets P (.error f) := by
  rintro t ⟨⟩

end NextMeets

theorem SameButAllocator.sameSession {c c' : Session} (h : SameButAllocator c c') :
    SameSession c c' := by
  unfold SameButAllocator at h
  rw [h]
  exact ⟨rfl, rfl, rfl, rfl⟩

namespace ControlClosed

variable {R : State → State → Prop} (h : ControlClosed R)

include h

/-! #### Port calls and context writes -/

theorem call (op : PortOp) (s : State) : R s (call op s).2 :=
  h.trans (h.interleave s) (h.perform op _)

theorem rd (r : Reg) (s : State) : R s (rd r s).2 := h.call _ s

theorem wr (r : Reg) (v : Byte) (s : State) : R s (wr r v s) := h.call _ s

theorem busLock (on : Bool) (s : State) : R s (busLock on s) := h.call _ s

theorem delayMs (n : Nat) (s : State) : R s (delayMs n s) := h.call _ s

theorem rdBit (l : BitLoc) (s : State) : R s (rdBit l s).2 := h.rd _ s

theorem rdTxMode (s : State) : R s (rdTxMode s).2 := h.rd _ s

theorem rd16 (r : Reg2) (s : State) : R s (rd16 r s).2 := h.trans (h.rd r.h s) (h.rd r.l _)

theorem rd24 (r : Reg3) (s : State) : R s (rd24 r s).2 :=
  h.trans (h.rd r.h s) (h.trans (h.rd r.m _) (h.rd r.l _))

theorem wr24 (r : Reg3) (w : Nat) (s : State) : R s (wr24 r w s) :=
  h.trans (h.wr r.h _ s) (h.trans (h.wr r.m _ _) (h.wr r.l _ _))

theorem doAction (as : Action) (s : State) : R s (doAction as s) := by
  induction as generalizing s with
  | nil => exact h.refl s
  | cons w ws ih => exact h.trans (h.call _ s) (ih _)

theorem doActionIf (b : Bool) (as : Action) (s : State) :
    R s (if b then Machine.doAction as s else s) := by
  split
  · exact h.doAction as s
  · exact h.refl s

theorem setCcip (v : Bool) (s : State) : R s (setCcip v s) :=
  h.trans (h.interleave s) (h.ctx _ _ ⟨rfl, rfl, rfl, rfl⟩)

theorem setPrevFreq (v : Nat) (s : State) : R s (setPrevFreq v s) := h.ctx _ _ ⟨rfl, rfl, rfl, rfl⟩

theorem updatePrevFreq (r : Except ErrorCode Unit) (f : Nat) (s : State) :
    R s (updatePrevFreq r f s) := h.setPrevFreq _ s

theorem setStreamSuspended (v : Bool) (s : State) :
    R s { s with ctx := { s.ctx with streamSuspended := v } } := h.ctx _ _ ⟨rfl, rfl, rfl, rfl⟩

theorem setAdcClk (v : Option AdcClockType) (s : State) : R s (setAdcClk v s) :=
  h.ctx _ _ ⟨rfl, rfl, rfl, rfl⟩

/-! #### The tune -/

theorem pollBit (l : BitLoc) (ms n : Nat) (s : State) : R s (pollBit l ms n s).2 := by
  induction n generalizing s with
  | zero => exact h.refl s
  | succ n ih =>
    have hr := h.rdBit l s
    simp only [Machine.pollBit]
    split
    · exact hr
    · split
      · exact hr
      · exact h.trans hr (h.trans (h.delayMs ms _) (ih _))

theorem wrTuple (t : Vector Byte 7) (s : State) : R s (wrTuple t s) := by
  unfold Machine.wrTuple
  induction List.finRange 7 generalizing s with
  | nil => exact h.refl s
  | cons k ks ih => exact h.trans (h.wr _ _ s) (ih _)

theorem adcVerify (clk : AdcClockType) (s : State) : R s (adcVerify clk s).2 :=
  h.trans (h.pollBit s.hdt.adc.lockBit adcPollMs adcPolls s) (h.setAdcClk _ _)

theorem adcConfigure (clk : AdcClockType) (s : State) : R s (adcConfigure clk s).2 := by
  unfold Machine.adcConfigure
  split
  · exact h.refl s
  · split
    · exact h.refl s
    · rename_i t _
      have hv := h.trans (h.wrTuple t s) (h.adcVerify clk _)
      dsimp only
      split <;> exact hv

theorem adcChangeClock (clk : AdcClockType) (s : State) : R s (adcChangeClock clk s).2 := by
  unfold Machine.adcChangeClock
  split
  · exact h.refl s
  · split
    · exact h.refl s
    · rename_i t _
      have hv := h.trans (h.busLock false s) (h.trans (h.wrTuple t _) (h.adcVerify clk _))
      dsimp only
      split
      · exact h.trans hv (h.busLock true _)
      · exact hv

theorem pllVerify (mode : ReceiverMode) (w n : Nat) (s : State) : R s (pllVerify mode w n s).2 := by
  induction n generalizing s with
  | zero => exact h.refl s
  | succ n ih =>
    have hr := h.rd24 s.hdt.pll.rb s
    simp only [Machine.pllVerify]
    split
    · exact hr
    · split
      · exact hr
      · exact h.trans hr (h.trans (h.wr24 _ w _) (h.trans (h.delayMs _ _) (ih _)))

theorem softReset (mode : ReceiverMode) (s : State) : R s (softReset mode s) :=
  h.trans (h.wr _ _ s) (h.trans (h.delayMs _ _) (h.wr _ _ _))

theorem pllLockWait (s : State) : R s (pllLockWait s).2 := h.pollBit _ _ _ s

theorem pllTune (mode : ReceiverMode) (n : Nat) (s : State) : R s (pllTune mode n s).2 := by
  let w := pllWord n (forMode s.hdt.pll.sel mode)
  have hv := h.trans (h.wr24 s.hdt.pll.reg w s) (h.pllVerify mode w pllAttempts _)
  unfold Machine.pllTune
  dsimp only
  split
  · have hl := h.trans hv (h.pllLockWait _)
    split
    · exact h.trans hl (h.softReset mode _)
    · exact hl
  · exact hv

theorem synthSetFrequency (mode : ReceiverMode) (ch f : Nat) (s : State) :
    R s (synthSetFrequency mode ch f s).2 := by
  unfold Machine.synthSetFrequency
  split
  · exact h.refl s
  · rename_i clk n _
    have ha := h.adcConfigure clk s
    split <;> rename_i heq <;> rw [heq] at ha
    · exact ha
    · exact h.trans ha (h.pllTune mode n _)

/-! #### The allocator -/

theorem bind (id : Nat) (svc : ServiceType) (thr : Nat) (s : State) :
    OkMeets (R s) (bind id svc thr s) := by
  unfold Machine.bind
  split
  · exact okMeets_error _
  · exact okMeets_error _
  · refine okMeets_ok (h.trans ?_ (h.ctx _ _ (bindStep_same _ _ _).sameSession))
    exact h.trans (h.doAction _ s)
      (h.trans (h.doAction _ _) (h.trans (h.doActionIf _ _ _) (h.doAction _ _)))

theorem releaseGroup (g : Group) (s : State) : R s (releaseGroup g s) := by
  unfold Machine.releaseGroup
  split
  · exact h.trans (h.doAction _ s) (h.doAction _ _)
  · exact h.refl s

theorem unbind (id : Nat) (s : State) : OkMeets (R s) (unbind id s) := by
  unfold Machine.unbind
  split
  · exact okMeets_error _
  · split
    · exact okMeets_error _
    · exact okMeets_ok (h.trans (h.doAction _ s)
        (h.trans (h.ctx _ _ (unbindStep_same _ _ _).sameSession) (h.releaseGroup _ _)))

theorem closeIds (ids : List Nat) (s : State) : OkMeets (R s) (closeIds ids s) := by
  induction ids generalizing s with
  | nil => exact okMeets_ok (h.refl s)
  | cons id ids ih =>
    unfold Machine.closeIds
    split
    · have hu := h.unbind id s
      split
      · exact okMeets_error _
      · rename_i u heq
        exact fun t ht => h.trans (hu u heq) (ih u t ht)
    · exact ih s

theorem restoreStream (s : State) : R s (restoreStream s) := by
  unfold Machine.restoreStream
  split
  · exact h.trans (h.doAction _ s) (h.setStreamSuspended false _)
  · exact h.refl s

theorem evict (s : State) : OkMeets (R s) (evict s) := by
  unfold Machine.evict
  split
  · exact okMeets_ok (h.refl s)
  · split
    · exact okMeets_error _
    · exact h.unbind _ s

/-! #### The scanner -/

theorem lockWait (n : Nat) (s : State) : R s (lockWait n s).2 := by
  induction n generalizing s with
  | zero => exact h.refl s
  | succ n ih =>
    have hr := h.trans (h.delayMs phaseMs s) (h.rdBit (ofdmLockBit s.hdt) _)
    simp only [Machine.lockWait]
    split
    · exact hr
    · exact h.trans hr (ih _)

theorem dcCheck (tm : Fin 4) (g : Nat) (s : State) : R s (dcCheck tm g s).2 := by
  unfold Machine.dcCheck
  split
  · exact h.trans (h.rd16 s.hdt.scan.dcI s) (h.rd16 _ _)
  · exact h.refl s

theorem phaseG (tm : Fin 4) (g limit n unl : Nat) (s : State) :
    R s (phaseG tm g limit n unl s).2 := by
  induction n generalizing unl s with
  | zero => exact h.refl s
  | succ n ih =>
    refine h.trans (h.trans (h.delayMs phaseMs s) (h.rdTxMode _)) ?_
    simp only [Machine.phaseG]
    generalize Machine.rdTxMode (Machine.delayMs phaseMs s) = p
    split
    · exact h.refl _
    · refine h.trans (h.dcCheck tm g p.2) ?_
      generalize Machine.dcCheck tm g p.2 = q
      split
      · exact h.refl _
      · refine h.trans (h.rd q.2.hdt.scan.fsmStateReg q.2) ?_
        generalize Machine.rd q.2.hdt.scan.fsmStateReg q.2 = r
        generalize (if r.2.hdt.scan.fsmUnlock.contains r.1 then unl + 1 else unl) = unl'
        split
        · exact h.refl _
        · refine h.trans (h.rd r.2.hdt.scan.coarseCntReg r.2) ?_
          split
          · exact h.lockWait _ _
          · exact ih _ _

theorem phaseF (tm : Fin 4) (g n i bad : Nat) (s : State) : R s (phaseF tm g n i bad s).2 := by
  induction n generalizing i bad s with
  | zero => exact h.refl s
  | succ n ih =>
    refine h.trans (h.delayMs phaseMs s) (h.trans (h.rd16 s.hdt.scan.nullLen _) ?_)
    simp only [Machine.phaseF]
    generalize Machine.rd16 s.hdt.scan.nullLen (Machine.delayMs phaseMs s) = p
    refine h.trans (h.rdTxMode p.2) ?_
    generalize Machine.rdTxMode p.2 = q
    generalize (if p.1 < (scanThr q.2.hdt tm).nlMin ∨ (scanThr q.2.hdt tm).nlMax < p.1 then bad + 1
      else bad) = bad'
    split
    · exact h.refl _
    · split
      · exact h.refl _
      · split
        · exact h.refl _
        · exact ih _ _ _

theorem classify (pw : Nat) (s : State) : R s (classify pw s).2 := by
  refine h.trans (h.trans (h.rd s.hdt.scan.preagcReg s) (h.rdTxMode _)) ?_
  unfold Machine.classify
  dsimp only
  generalize Machine.rd s.hdt.scan.preagcReg s = p
  generalize Machine.rdTxMode p.2 = q
  refine h.trans (h.rd16 q.2.hdt.scan.coarseFreq q.2) ?_
  generalize Machine.rd16 q.2.hdt.scan.coarseFreq q.2 = r
  split
  · have hf := h.phaseF q.1 p.1.toNat fIters 1 0 r.2
    split <;> rename_i heq <;> rw [heq] at hf
    · exact hf
    · exact h.trans hf (h.phaseG _ _ _ _ _ _)
  · exact h.refl _

theorem scanPoll (n : Nat) (s : State) : R s (scanPoll n s).2 := by
  induction n generalizing s with
  | zero => exact h.refl s
  | succ n ih =>
    refine h.trans (h.rd s.hdt.scan.doneReg s) ?_
    simp only [Machine.scanPoll]
    generalize Machine.rd s.hdt.scan.doneReg s = p
    refine h.trans (h.rd16 p.2.hdt.scan.pwr p.2) ?_
    generalize Machine.rd16 p.2.hdt.scan.pwr p.2 = q
    split
    · exact h.refl _
    · split
      · exact h.classify _ _
      · exact h.trans (h.call _ _) (ih _)

theorem scanTuned (f : Nat) (s : State) : R s (scanTuned f s).2 := by
  have ht := h.synthSetFrequency s.ctx.mode 0 f s
  unfold Machine.scanTuned
  split <;> rename_i heq <;> rw [heq] at ht
  · exact ht
  · exact h.trans ht (h.trans (h.softReset _ _) (h.scanPoll _ _))

/-! #### The commands -/

theorem returnOk (s : State) : NextMeets (R s) (returnOk s) := nextMeets_next (h.reply _ s)

theorem raiseErr (e : ErrorCode) (s : State) : NextMeets (R s) (raiseErr e s) :=
  nextMeets_next (h.reply _ s)

theorem finish (r : Except ErrorCode Unit) (s : State) : NextMeets (R s) (finish r s) := by
  cases r with
  | ok _ => exact h.returnOk s
  | error e => exact h.raiseErr e s

theorem returnVerdict (v : ScanVerdict) (f : Nat) (s : State) :
    NextMeets (R s) (returnVerdict v f s) :=
  nextMeets_next (h.trans (h.setPrevFreq f s) (h.reply _ _))

/-- An outcome reached from a later state. -/
theorem nextMeets_trans {s u : State} {o : Out} (hu : R s u) (ho : NextMeets (R u) o) :
    NextMeets (R s) o := fun t ht => h.trans hu (ho t ht)

theorem bindAndReturn (id : Nat) (svc : ServiceType) (thr : Nat) {k : State → State}
    (hk : ∀ s, R s (k s)) (s : State) : NextMeets (R s) (bindAndReturn id svc thr k s) := by
  have hb := h.bind id svc thr s
  unfold Machine.bindAndReturn
  split
  · exact nextMeets_fault _
  · rename_i u heq
    exact h.nextMeets_trans (h.trans (hb u heq) (h.trans (h.restoreStream u) (hk _))) (h.returnOk _)

theorem openTuned (id : Nat) (svc : ServiceType) (thr : Nat) (s : State) :
    NextMeets (R s) (openTuned id svc thr s) := by
  unfold Machine.openTuned
  split
  · exact h.nextMeets_trans (h.restoreStream s) (h.returnOk _)
  · split
    · split
      · exact h.raiseErr _ s
      · exact h.bindAndReturn id svc thr h.refl s
    · have he := h.evict s
      split
      · exact nextMeets_fault _
      · rename_i u heq
        exact h.nextMeets_trans (he u heq) (h.bindAndReturn id svc thr h.refl u)

theorem openRetune (f id : Nat) (svc : ServiceType) (thr : Nat) (s : State) :
    NextMeets (R s) (openRetune f id svc thr s) := by
  have hc := h.closeIds (List.range numIds) (Machine.setCcip true s)
  unfold Machine.openRetune
  split
  · exact nextMeets_fault _
  · rename_i u heq
    refine h.nextMeets_trans (h.trans (h.setCcip true s) (hc u heq)) ?_
    refine h.nextMeets_trans (h.trans (h.synthSetFrequency u.ctx.mode 0 f u)
      (h.updatePrevFreq (Machine.synthSetFrequency u.ctx.mode 0 f u).1 f _)) ?_
    dsimp only
    split
    · exact h.nextMeets_trans (h.setCcip false _) (h.raiseErr _ _)
    · exact h.bindAndReturn id svc thr (h.setCcip false) _

theorem execSetFreq (mode : ReceiverMode) (ch f : Nat) (s : State) :
    NextMeets (R s) (execSetFreq mode ch f s) :=
  nextMeets_inSession <| h.nextMeets_trans
    (h.trans (h.setCcip true s) (h.trans (h.synthSetFrequency mode ch f _)
      (h.trans (h.updatePrevFreq _ f _) (h.setCcip false _))))
    (h.finish _ _)

theorem execScanFreq (f : Nat) (s : State) : NextMeets (R s) (execScanFreq f s) := by
  refine nextMeets_inSession ?_
  split
  · exact h.returnVerdict _ f s
  · have hc := h.closeIds (List.range numIds) (Machine.setCcip true s)
    split
    · exact nextMeets_fault _
    · rename_i u heq
      exact h.nextMeets_trans (h.trans (h.setCcip true s) (h.trans (hc u heq)
        (h.trans (h.scanTuned f u) (h.setCcip false _)))) (h.returnVerdict _ f _)

theorem execOpenSubch (f id : Nat) (svc : ServiceType) (thr : Nat) (s : State) :
    NextMeets (R s) (execOpenSubch f id svc thr s) := by
  refine nextMeets_inSession ?_
  split
  · exact h.raiseErr _ s
  · split
    · exact h.raiseErr _ s
    · split
      · exact h.raiseErr _ s
      · split
        · exact h.openTuned id svc thr s
        · exact h.openRetune f id svc thr s

theorem execCloseSubch (id : Nat) (s : State) : NextMeets (R s) (execCloseSubch id s) := by
  refine nextMeets_inSession ?_
  split
  · exact h.raiseErr _ s
  · split
    · have hu := h.unbind id s
      split
      · exact nextMeets_fault _
      · rename_i u heq
        exact h.nextMeets_trans (hu u heq) (h.returnOk u)
    · exact h.returnOk s

theorem execCloseAllSubch (s : State) : NextMeets (R s) (execCloseAllSubch s) := by
  have hc := h.closeIds (List.range numIds) s
  refine nextMeets_inSession ?_
  split
  · exact nextMeets_fault _
  · rename_i u heq
    exact h.nextMeets_trans (hc u heq) (h.returnOk u)

/-- A control command but `INIT` keeps what its elementary actions keep. -/
theorem exec {i : Instr} (hc : getterCmd i = none) (hi : ∀ mode, i ≠ .init mode) (s : State) :
    NextMeets (R s) (exec i s) := by
  cases i with
  | init mode => exact absurd rfl (hi mode)
  | adcConfigure mode clk =>
    exact nextMeets_inSession (h.nextMeets_trans (h.adcConfigure clk s) (h.finish _ _))
  | adcChangeClock mode clk =>
    exact nextMeets_inSession (h.nextMeets_trans (h.adcChangeClock clk s) (h.finish _ _))
  | setFreq mode ch f => exact h.execSetFreq mode ch f s
  | scanFreq f => exact h.execScanFreq f s
  | openSubch f id svc thr => exact h.execOpenSubch f id svc thr s
  | closeSubch id => exact h.execCloseSubch id s
  | closeAllSubch => exact h.execCloseAllSubch s
  | disableStreamOut =>
    exact nextMeets_inSession (h.nextMeets_trans
      (h.trans (h.doAction _ s) (h.setStreamSuspended true _)) (h.returnOk _))
  | getPrevFreq => exact nextMeets_inSession (nextMeets_next (h.reply _ s))
  | _ => cases hc

/-- `INIT` keeps what its elementary actions keep, its two writes of the context among them
(R400). -/
theorem execInit {mode : ReceiverMode}
    (hreset : ∀ s, R s { s with ctx := initContext s.hdt mode })
    (hopen : ∀ s, R s (setInitialized s)) (s : State) : NextMeets (R s) (execInit mode s) := by
  refine nextMeets_underHdt ?_
  split
  · refine h.nextMeets_trans (h.trans (h.interleave s) (h.trans (hreset _)
      (h.doAction (forMode (Machine.interleave s).hdt.initSeq mode) _))) ?_
    dsimp only
    generalize Machine.doAction (forMode (Machine.interleave s).hdt.initSeq mode) _ = v
    have ha := h.adcConfigure v.hdt.adc.clkInit v
    split <;> rename_i heq <;> rw [heq] at ha
    · exact h.nextMeets_trans ha (h.raiseErr _ _)
    · exact h.nextMeets_trans (h.trans ha (hopen _)) (h.returnOk _)
  · exact h.raiseErr _ s

end ControlClosed

/-! ### The HDT, the trace and the replies (R7, R203) -/

theorem grows_ctx (s : State) (c : Session) : Grows s { s with ctx := c } :=
  ⟨rfl, List.prefix_rfl, List.prefix_rfl, id⟩

theorem controlClosed_grows : ControlClosed Grows where
  refl := Grows.refl
  trans := Grows.trans
  interleave := grows_interleave
  perform := grows_perform .control
  reply := grows_reply .control
  ctx s c _ := grows_ctx s c

theorem grows_exec (i : Instr) (s : State) : NextMeets (Grows s) (exec i s) := by
  cases hc : getterCmd i with
  | some c =>
    rw [exec_getter hc]
    exact nextMeets_inSession (nextMeets_next (grows_getterOp c s))
  | none =>
    by_cases hi : ∃ mode, i = .init mode
    · obtain ⟨mode, rfl⟩ := hi
      exact controlClosed_grows.execInit (fun s => grows_ctx s _) (fun s => grows_ctx s _) s
    · exact controlClosed_grows.exec hc (not_exists.1 hi) s

theorem grows_step (s : State) : NextMeets (Grows s) (step s) := by
  unfold step
  split
  · exact nextMeets_unlessRefused (nextMeets_next (grows_getterMove s))
  · split
    · exact nextMeets_unlessRefused
        (controlClosed_grows.nextMeets_trans (grows_inbox _ s) (grows_exec _ _))
    · exact nextMeets_refused _

/-- Settles O17: every elementary action of a step keeps the HDT and only adds to the trace and the
replies. -/
theorem stepKeepsHdtAndHistory : Obligations.StepKeepsHdtAndHistory := by
  intro s t hst
  have hg := grows_step s t hst
  exact ⟨hg.hdt, hg.trace, hg.replies⟩

/-! ### A getter's program under scripted answers (R204) -/

/-- With no operation in progress and the flag down, a getter command runs its program. -/
theorem exec_getter_of_idle {i : Instr} {c : GetterCmd} {s : State} (hc : getterCmd i = some c)
    (hr : Ready s) (hg : s.getter = none) (hf : s.ctx.ccip = false) :
    exec i s = .next (runProg none (getterProg s.hdt c) s) := by
  simp [exec_getter hc, inSession_of_ready hr, getterOp, finishGetter, hg, hf]

/-- A state after a getter's port calls with these events, with these answers left. -/
def getterRan (s : State) (answers : List Byte) (es : List Event) : State :=
  { s with getAnswers := answers, trace := s.trace ++ es.map fun e => ⟨.getter, e⟩ }

theorem getterRan_nil {s : State} {answers : List Byte} (h : s.getAnswers = answers) :
    getterRan s answers [] = s := by
  subst h; simp [getterRan]

section RunProg

variable (prev : Option Nat) (s : State) (bs : List Byte) (es : List Event)

theorem runProg_ret_ran (v : Int) :
    runProg prev (.ret v) (getterRan s bs es) = getterAfter s bs es v := rfl

theorem runProg_rd_ran (r : Reg) (b : Byte) (k : Byte → GetterProg) :
    runProg prev (.call (.rd r) k) (getterRan s (b :: bs) es)
      = runProg prev (k b) (getterRan s bs (es ++ [.rd r b])) := by
  simp [runProg, perform, oracle, record, getterRan]

theorem runProg_progRd24_ran (r : Reg3) (b : Read3) (k : Nat → GetterProg) :
    runProg prev (progRd24 r k) (getterRan s (b.bytes ++ bs) es)
      = runProg prev (k b.value) (getterRan s bs (es ++ rd24Events r b)) := by
  simp [progRd24, Read3.bytes, Read3.value, rd24Events, runProg_rd_ran]

theorem runProg_progRd32_ran (r : Reg4) (b3 b2 b1 b0 : Byte) (k : Nat → GetterProg) :
    runProg prev (progRd32 r k) (getterRan s (b3 :: b2 :: b1 :: b0 :: bs) es)
      = runProg prev (k (join4 b3 b2 b1 b0))
          (getterRan s bs (es ++ [.rd r.r3 b3, .rd r.r2 b2, .rd r.r1 b1, .rd r.r0 b0])) := by
  simp [progRd32, runProg_rd_ran]

end RunProg

/-! ### The BER and the CER (R15, R940, R950) -/

theorem arith_eq (m : Arith) (v : Nat) : arith m v = if m = .exact then v else v % 2 ^ 32 := by
  cases m <;> rfl

theorem join4_eq (b3 b2 b1 b0 : Byte) :
    join4 b3 b2 b1 b0 = ((b3.toNat * 256 + b2.toNat) * 256 + b1.toNat) * 256 + b0.toNat := rfl

theorem berValue_eq (h : Hdt) (e t : Nat) :
    berValue h e t = if t = 0 then 2000
      else if h.quality.arith = .exact then e * h.quality.berScale / t
      else e * h.quality.berScale % 2 ^ 32 / t := by
  simp only [berValue, sentinelErr, arith_eq]
  split
  · rfl
  · split <;> rfl

theorem cerValue_eq (h : Hdt) (p e c : Nat)
    (hc : c = if h.quality.arith = .exact then e * 1000 / p * 10
      else e * 1000 % 2 ^ 32 / p * 10 % 2 ^ 32) :
    cerValue h p e = if p ≤ 4000 then 0 else if 1200 < c then 2000 else c := by
  have hc' : c = arith h.quality.arith (arith h.quality.arith (e * 1000) / p * 10) := by
    rw [hc]; simp only [arith_eq]; split <;> rfl
  rw [hc']; rfl

/-- `GET_BER` without synchronisation reads no counter. -/
theorem runProg_berProg_unsynced (s : State) (x : Byte) (rest : List Byte)
    (hx : bitOf s.hdt.quality.rsSyncBit.pos x = false) (hs : s.getAnswers = x :: rest) :
    runProg none (berProg s.hdt) s
      = getterAfter s rest [.rd s.hdt.quality.rsSyncBit.reg x] 2000 := by
  nth_rw 2 [← getterRan_nil hs]
  rw [berProg, runProg_rd_ran, hx]
  rfl

theorem runProg_berProg_synced (s : State) (x : Byte) (e t : Read3) (rest : List Byte)
    (hx : bitOf s.hdt.quality.rsSyncBit.pos x = true)
    (hs : s.getAnswers = x :: (e.bytes ++ t.bytes ++ rest)) :
    runProg none (berProg s.hdt) s = getterAfter s rest
      (.rd s.hdt.quality.rsSyncBit.reg x
        :: (rd24Events s.hdt.quality.berErr e ++ rd24Events s.hdt.quality.berTot t))
      (berValue s.hdt e.value t.value) := by
  nth_rw 2 [← getterRan_nil hs]
  rw [berProg, runProg_rd_ran, if_pos hx, List.append_assoc, runProg_progRd24_ran,
    runProg_progRd24_ran, runProg_ret_ran]
  simp

/-- `GET_CER` without lock reads no counter. -/
theorem runProg_cerProg_unlocked (s : State) (x : Byte) (rest : List Byte)
    (hx : bitOf s.hdt.quality.cerLockBit.pos x = false) (hs : s.getAnswers = x :: rest) :
    runProg none (cerProg s.hdt) s
      = getterAfter s rest [.rd s.hdt.quality.cerLockBit.reg x] 2000 := by
  nth_rw 2 [← getterRan_nil hs]
  rw [cerProg, runProg_rd_ran, hx]
  rfl

theorem runProg_cerProg_locked (s : State) (x p3 p2 p1 p0 e3 e2 e1 e0 : Byte) (rest : List Byte)
    (hx : bitOf s.hdt.quality.cerLockBit.pos x = true)
    (hs : s.getAnswers = x :: p3 :: p2 :: p1 :: p0 :: e3 :: e2 :: e1 :: e0 :: rest) :
    runProg none (cerProg s.hdt) s = getterAfter s rest
      [.rd s.hdt.quality.cerLockBit.reg x, .rd s.hdt.quality.cerPeriod.r3 p3,
        .rd s.hdt.quality.cerPeriod.r2 p2, .rd s.hdt.quality.cerPeriod.r1 p1,
        .rd s.hdt.quality.cerPeriod.r0 p0, .rd s.hdt.quality.cerErr.r3 e3,
        .rd s.hdt.quality.cerErr.r2 e2, .rd s.hdt.quality.cerErr.r1 e1,
        .rd s.hdt.quality.cerErr.r0 e0]
      (cerValue s.hdt (join4 p3 p2 p1 p0) (join4 e3 e2 e1 e0)) := by
  nth_rw 2 [← getterRan_nil hs]
  rw [cerProg, runProg_rd_ran, if_pos hx, runProg_progRd32_ran, runProg_progRd32_ran,
    runProg_ret_ran]
  rfl

/-- Settles O57: each command is its program, run on the bytes its reads answer. -/
theorem berCerResults : Obligations.BerCerResults := by
  intro s x rest hr hg hf
  have hber : exec .getBer s = .next (runProg none (berProg s.hdt) s) :=
    exec_getter_of_idle (c := .ber) rfl hr hg hf
  have hcer : exec .getCer s = .next (runProg none (cerProg s.hdt) s) :=
    exec_getter_of_idle (c := .cer) rfl hr hg hf
  refine ⟨fun hx hs => ?_, fun e t hx hs => ?_, fun hx hs => ?_,
    fun p3 p2 p1 p0 e3 e2 e1 e0 p e c hx hs hp he hc => ?_⟩
  · rw [hber, runProg_berProg_unsynced s x rest hx hs]
  · rw [hber, runProg_berProg_synced s x e t rest hx hs, berValue_eq]
  · rw [hcer, runProg_cerProg_unlocked s x rest hx hs]
  · rw [← join4_eq] at hp he
    rw [hcer, runProg_cerProg_locked s x p3 p2 p1 p0 e3 e2 e1 e0 rest hx hs, ← hp, ← he,
      cerValue_eq s.hdt p e c hc]

end Sys2Proof.Machine

namespace Sys2Proof.Machine

/-! ### Port calls and context writes in sequence

`ControlClosed` lets an action write any context field outside the session. Where the fields written
matter, `Quiet W` says which writes fall between the port calls. -/

/-- From `s` the control agent reaches a state by port calls and by writes of the context that `W`
allows; it replies nothing. -/
inductive Quiet (W : Session → Session → Prop) (s : State) : State → Prop where
  | refl : Quiet W s s
  | call {u : State} (op : PortOp) : Quiet W s u → Quiet W s (call op u).2
  | write {u : State} (c : Session) : W u.ctx c → Quiet W s u → Quiet W s { u with ctx := c }

/-- At most the clock type is written (R105). -/
def ClockOnly (c c' : Session) : Prop := c' = { c with adcClk := c'.adcClk }

/-- Neither the session nor the in-progress flag is written (R110). -/
structure FlagKept (c c' : Session) : Prop extends SameSession c c' where
  ccip : c'.ccip = c.ccip

theorem SameButAllocator.flagKept {c c' : Session} (h : SameButAllocator c c') : FlagKept c c' :=
  { h.sameSession with
    ccip := by
      unfold SameButAllocator at h
      rw [h] }

/-- Both branches of a conditional part of an operation. -/
theorem Quiet.ite {α : Type} {W : Session → Session → Prop} {s : State} {p : Prop} [Decidable p]
    {a b : α × State} (ha : Quiet W s a.2) (hb : Quiet W s b.2) :
    Quiet W s (if p then a else b).2 := by
  split
  · exact ha
  · exact hb

namespace Quiet

variable {W : Session → Session → Prop} {s u : State} (h : Quiet W s u)

include h

/-! #### Port calls -/

theorem rd (r : Reg) : Quiet W s (rd r u).2 := h.call _

theorem rdBit (l : BitLoc) : Quiet W s (rdBit l u).2 := h.rd l.reg

theorem rdTxMode : Quiet W s (rdTxMode u).2 := h.rd u.hdt.scan.txmode.reg

theorem rd16 (r : Reg2) : Quiet W s (rd16 r u).2 := (h.rd r.h).rd r.l

theorem rd24 (r : Reg3) : Quiet W s (rd24 r u).2 := ((h.rd r.h).rd r.m).rd r.l

theorem delayMs (n : Nat) : Quiet W s (delayMs n u) := h.call _

theorem wr24 (r : Reg3) (w : Nat) : Quiet W s (wr24 r w u) := ((h.call _).call _).call _

theorem doAction (as : Action) : Quiet W s (doAction as u) := by
  induction as generalizing u with
  | nil => exact h
  | cons w ws ih => exact ih (h.call _)

theorem pollBit (l : BitLoc) (ms n : Nat) : Quiet W s (pollBit l ms n u).2 := by
  induction n generalizing u with
  | zero => exact h
  | succ n ih =>
    have hr := h.rdBit l
    simp only [Machine.pollBit]
    exact ite hr (ite hr (ih (hr.delayMs ms)))

/-! #### The tune -/

theorem wrTuple (t : Vector Byte 7) : Quiet W s (wrTuple t u) := by
  unfold Machine.wrTuple
  induction List.finRange 7 generalizing u with
  | nil => exact h
  | cons k ks ih => exact ih (h.call _)

theorem pllVerify (mode : ReceiverMode) (w n : Nat) : Quiet W s (pllVerify mode w n u).2 := by
  induction n generalizing u with
  | zero => exact h
  | succ n ih =>
    have hr := h.rd24 u.hdt.pll.rb
    simp only [Machine.pllVerify]
    exact ite hr (ite hr (ih ((hr.wr24 _ w).delayMs pllRetryMs)))

theorem softReset (mode : ReceiverMode) : Quiet W s (softReset mode u) :=
  ((h.call _).call _).call _

theorem pllTune (mode : ReceiverMode) (n : Nat) : Quiet W s (pllTune mode n u).2 := by
  let w := pllWord n (forMode u.hdt.pll.sel mode)
  have hv := (h.wr24 u.hdt.pll.reg w).pllVerify mode w pllAttempts
  have hl := hv.pollBit (Machine.pllVerify mode w pllAttempts (pllProgram w u)).2.hdt.pll.lockBit
    lockRetryMs lockPolls
  simp only [Machine.pllTune]
  exact ite (ite (hl.softReset mode) hl) hv

/-! #### The scanner -/

theorem lockWait (n : Nat) : Quiet W s (lockWait n u).2 := by
  induction n generalizing u with
  | zero => exact h
  | succ n ih =>
    have hr := (h.delayMs phaseMs).rdBit (ofdmLockBit u.hdt)
    simp only [Machine.lockWait]
    exact ite hr (ih hr)

theorem dcCheck (tm : Fin 4) (g : Nat) : Quiet W s (dcCheck tm g u).2 :=
  ite ((h.rd16 u.hdt.scan.dcI).rd16 _) h

theorem phaseG (tm : Fin 4) (g limit n unl : Nat) : Quiet W s (phaseG tm g limit n unl u).2 := by
  induction n generalizing unl u with
  | zero => exact h
  | succ n ih =>
    have htm := (h.delayMs phaseMs).rdTxMode
    have hdc := htm.dcCheck tm g
    simp only [Machine.phaseG]
    exact ite htm (ite hdc (ite (hdc.rd _)
      (ite (((hdc.rd _).rd _).lockWait _) (ih ((hdc.rd _).rd _) _))))

theorem phaseF (tm : Fin 4) (g n i bad : Nat) : Quiet W s (phaseF tm g n i bad u).2 := by
  induction n generalizing i bad u with
  | zero => exact h
  | succ n ih =>
    have hr := ((h.delayMs phaseMs).rd16 u.hdt.scan.nullLen).rdTxMode
    simp only [Machine.phaseF]
    exact ite hr (ite hr (ite hr (ih hr _ _)))

theorem classify (pw : Nat) : Quiet W s (classify pw u).2 := by
  have hg := h.rd u.hdt.scan.preagcReg
  simp only [Machine.classify]
  generalize Machine.rd u.hdt.scan.preagcReg u = p at hg ⊢
  have htm := hg.rdTxMode
  generalize Machine.rdTxMode p.2 = q at htm ⊢
  have hcf := htm.rd16 q.2.hdt.scan.coarseFreq
  refine ite ?_ hcf
  have hf := hcf.phaseF q.1 p.1.toNat fIters 1 0
  split <;> rename_i heq <;> rw [heq] at hf
  · exact hf
  · exact hf.phaseG _ _ _ _ _

theorem scanPoll (n : Nat) : Quiet W s (scanPoll n u).2 := by
  induction n generalizing u with
  | zero => exact h
  | succ n ih =>
    have hr := (h.rd u.hdt.scan.doneReg).rd16 (Machine.rd u.hdt.scan.doneReg u).2.hdt.scan.pwr
    simp only [Machine.scanPoll]
    exact ite hr (ite (hr.classify _) (ih (hr.call (.dlyUs scanPollUs))))

/-! #### The ADC clock, and a whole tune -/

section Clock

variable (hW : ∀ c v, W c { c with adcClk := v })

include hW

theorem adcVerify (clk : AdcClockType) : Quiet W s (adcVerify clk u).2 :=
  (h.pollBit u.hdt.adc.lockBit adcPollMs adcPolls).write _ (hW _ _)

theorem adcConfigure (clk : AdcClockType) : Quiet W s (adcConfigure clk u).2 := by
  unfold Machine.adcConfigure
  refine ite h ?_
  split
  · exact h
  · exact ite ((h.wrTuple _).adcVerify hW clk) ((h.wrTuple _).adcVerify hW clk)

theorem adcChangeClock (clk : AdcClockType) : Quiet W s (adcChangeClock clk u).2 := by
  unfold Machine.adcChangeClock
  refine ite h ?_
  split
  · exact h
  · rename_i t _
    have hv := (((h.call _ : Quiet W s (busLock false u)).wrTuple t)).adcVerify hW clk
    exact ite (hv.call _) hv

theorem synthSetFrequency (mode : ReceiverMode) (ch f : Nat) :
    Quiet W s (synthSetFrequency mode ch f u).2 := by
  unfold Machine.synthSetFrequency
  split
  · exact h
  · rename_i clk n _
    have ha := h.adcConfigure hW clk
    split <;> rename_i heq <;> rw [heq] at ha
    · exact ha
    · exact ha.pllTune mode n

theorem scanTuned (f : Nat) : Quiet W s (scanTuned f u).2 := by
  have ht := h.synthSetFrequency hW u.ctx.mode 0 f
  unfold Machine.scanTuned
  split <;> rename_i heq <;> rw [heq] at ht
  · exact ht
  · exact (ht.softReset _).scanPoll scanPolls

end Clock

end Quiet

/-! #### The allocator -/

namespace Quiet

variable {s u : State} (h : Quiet FlagKept s u)

include h

theorem bind (id : Nat) (svc : ServiceType) (thr : Nat) :
    OkMeets (Quiet FlagKept s) (bind id svc thr u) := by
  unfold Machine.bind
  split
  · exact okMeets_error _
  · exact okMeets_error _
  · refine okMeets_ok (.write _ (bindStep_same _ _ _).flagKept (doAction ?_ _))
    split
    · exact ((h.doAction _).doAction _).doAction _
    · exact (h.doAction _).doAction _

theorem releaseGroup (g : Group) : Quiet FlagKept s (releaseGroup g u) := by
  unfold Machine.releaseGroup
  split
  · exact (h.doAction _).doAction _
  · exact h

theorem unbind (id : Nat) : OkMeets (Quiet FlagKept s) (unbind id u) := by
  unfold Machine.unbind
  split
  · exact okMeets_error _
  · split
    · exact okMeets_error _
    · exact okMeets_ok (((h.doAction _).write _ (unbindStep_same _ _ _).flagKept).releaseGroup _)

theorem closeIds (ids : List Nat) : OkMeets (Quiet FlagKept s) (closeIds ids u) := by
  induction ids generalizing u with
  | nil => exact okMeets_ok h
  | cons id ids ih =>
    unfold Machine.closeIds
    split
    · have hu := h.unbind id
      split
      · exact okMeets_error _
      · rename_i v heq
        exact ih (hu v heq)
    · exact ih h

theorem restoreStream : Quiet FlagKept s (restoreStream u) := by
  unfold Machine.restoreStream
  split
  · exact (h.doAction _).write _ ⟨⟨rfl, rfl, rfl, rfl⟩, rfl⟩
  · exact h

end Quiet

/-- Where at most the clock type is written, the control agent's view keeps all but it, the events and
the answers left. -/
theorem Quiet.ctlView_eq {s u : State} (h : Quiet ClockOnly s u) :
    ∃ es as clk,
      ctlView u = { (ctlView s).ran es as with core := { core s.ctx with adcClk := clk } } := by
  induction h with
  | refl => exact ⟨[], s.ctlAnswers, s.ctx.adcClk, by simp [CtlView.ran, ctlView, core]⟩
  | @call u op _ ih =>
    obtain ⟨es, as, clk, ih⟩ := ih
    exact ⟨es ++ [eventOf op (Machine.call op u).1], answersLeft op u.ctlAnswers, clk, by
      rw [call_ran, ih]; simp [CtlView.ran]⟩
  | @write u c hc _ ih =>
    obtain ⟨es, as, clk, ih⟩ := ih
    refine ⟨es, as, c.adcClk, ?_⟩
    have hv : ctlView { u with ctx := c } = { ctlView u with core := core c } := rfl
    have hu : core u.ctx = { core s.ctx with adcClk := clk } := congrArg CtlView.core ih
    rw [hv, hc, ih]
    show ({ (ctlView s).ran es as with
      core := { core u.ctx with adcClk := c.adcClk } } : CtlView) = _
    rw [hu]

/-! ### A step and its command (R101, R304) -/

theorem step_of_no_byte {s : State} (hb : s.inbox = []) :
    step s = unlessRefused s (.next (getterMove s)) := by
  simp [step, hb]

theorem step_of_decoded {s : State} {i : Instr} {rest : List Byte}
    (hd : decode s.inbox = .ok (i, rest)) :
    step s = unlessRefused s (exec i { s with inbox := rest }) := by
  unfold step
  split
  · rename_i hb
    rw [hb] at hd
    cases hd
  · rw [hd]

theorem step_of_badFrame {s : State} {e : DecodeError} (hb : s.inbox ≠ [])
    (hd : decode s.inbox = .error e) : step s = .refused (.badFrame e) := by
  unfold step
  split
  · exact absurd ‹_› hb
  · rw [hd]

/-- What a step can do: a refusal, a getter move, or a command. -/
theorem step_cases (s : State) :
    (∃ r, step s = .refused r) ∨ step s = .next (getterMove s)
      ∨ ∃ i rest, decode s.inbox = .ok (i, rest) ∧ step s = exec i { s with inbox := rest } := by
  by_cases hb : s.inbox = []
  · rw [step_of_no_byte hb, unlessRefused]
    split
    · exact .inl ⟨_, rfl⟩
    · exact .inr (.inl rfl)
  · cases hd : decode s.inbox with
    | error e => exact .inl ⟨_, step_of_badFrame hb hd⟩
    | ok p =>
      rw [step_of_decoded hd, unlessRefused]
      split
      · exact .inl ⟨_, rfl⟩
      · exact .inr (.inr ⟨p.1, p.2, rfl, rfl⟩)

/-- Settles O7: the three shapes of the host's bytes, with and without a pending refusal. -/
theorem stepRunsDecodedCommand : Obligations.StepRunsDecodedCommand := by
  refine fun s => ⟨fun hr => ⟨fun i rest hd => ?_, fun hb => ?_, fun hb hg => ?_⟩, fun hr hin => ?_⟩
  · simp [step_of_decoded hd, unlessRefused, hr]
  · simp [step_of_no_byte hb, unlessRefused, hr]
  · have hidle : getterMove s = s := by simp [getterMove, hg, nextGetter, hb, decode]
    simp [step_of_no_byte hb, unlessRefused, hr, hidle]
  · rcases hin with hb | ⟨i, rest, hd⟩
    · simp [step_of_no_byte hb, unlessRefused, hr]
    · simp [step_of_decoded hd, unlessRefused, hr]

/-! ### Reset (R130) -/

theorem entry_fresh (e : Nat) : entry Session.fresh e = none := by
  unfold entry Session.fresh
  rcases e with _ | _ | _ | _ | _ | e <;> rfl

theorem noBindings_fresh : NoBindings Session.fresh := ⟨entry_fresh, rfl, rfl, rfl, rfl⟩

/-- Settles O12: the context of `State.reset` is `Session.fresh`. -/
theorem resetContext : Obligations.ResetContext :=
  ⟨rfl, rfl, rfl, entry_fresh, rfl, rfl, rfl, rfl, rfl, rfl, rfl⟩

/-- Settles O13: a context without bindings, outside a session, with no getter operation. -/
theorem resetMeetsInvariant : Obligations.ResetMeetsInvariant := fun h =>
  { alloc := allocInv_of_noBindings h noBindings_fresh
    idle := rfl
    level := Nat.zero_le 6
    read := by rintro g prev ⟨⟩
    freq := Nat.two_pow_pos 32
    thr := fun e b he => nomatch (entry_fresh e).symm.trans he
    mode := nofun
    xtal := nofun }

/-! ### The session's own fields (R102 to R104) -/

theorem perform_ctx (a : Agent) (op : PortOp) (s : State) : (perform a op s).2.ctx = s.ctx := by
  cases op with
  | rd r => cases a <;> simp only [perform, oracle] <;> split <;> rfl
  | _ => rfl

/-- The fields of the session that only `INIT` writes are those of `s`. -/
structure SessionKept (s t : State) : Prop where
  initialized : t.ctx.initialized = s.ctx.initialized
  mode : t.ctx.mode = s.ctx.mode
  xtal : t.ctx.xtal = s.ctx.xtal

theorem SessionKept.of_core {s t : State} (h : core t.ctx = core s.ctx) : SessionKept s t :=
  ⟨(congrArg Session.initialized h :), (congrArg Session.mode h :), (congrArg Session.xtal h :)⟩

theorem controlClosed_sessionKept : ControlClosed SessionKept where
  refl _ := ⟨rfl, rfl, rfl⟩
  trans h h' := ⟨h'.1.trans h.1, h'.2.trans h.2, h'.3.trans h.3⟩
  interleave s := .of_core (interleave_core s)
  perform op s := .of_core (by rw [perform_ctx])
  reply _ _ := ⟨rfl, rfl, rfl⟩
  ctx _ _ h := ⟨h.initialized, h.mode, h.xtal⟩

/-- A getter command changes nothing of the control agent's view. -/
theorem ctlView_exec_getter {i : Instr} {c : GetterCmd} (hc : getterCmd i = some c) (s : State) :
    NextMeets (fun t => ctlView t = ctlView s) (exec i s) := by
  rw [exec_getter hc]
  exact nextMeets_inSession (nextMeets_next (ctlView_getterOp c s))

theorem sessionKept_exec {i : Instr} (hi : ∀ mode, i ≠ .init mode) (s : State) :
    NextMeets (SessionKept s) (exec i s) := by
  cases hc : getterCmd i with
  | none => exact controlClosed_sessionKept.exec hc hi s
  | some c => exact fun t ht => .of_core (core_of_ctlView (ctlView_exec_getter hc s t ht))

/-- Settles O18: no elementary action of a command but `INIT` writes them. -/
theorem onlyInitWritesModeAndCrystal : Obligations.OnlyInitWritesModeAndCrystal := by
  intro i s t hi ht
  obtain ⟨hin, hm, hx⟩ := sessionKept_exec hi s t ht
  exact ⟨hin, hm, hx⟩

/-! ### The antenna level (R113, R960) -/

theorem antRaw_le (cer : Nat) : antRaw cer ≤ 6 := by
  have h : antRaw cer < antT.length := List.findIdx_lt_length_of_exists ⟨0, by simp [antT]⟩
  exact Nat.le_of_lt_succ h

theorem antStep_le {raw prev : Nat} (hr : raw ≤ 6) (hp : prev ≤ 6) : antStep raw prev ≤ 6 := by
  unfold antStep
  split
  · omega
  · split <;> omega

/-- Every raw level a program can end with is in 0..6. -/
def RawLevelsOk : GetterProg → Prop
  | .ret _ => True
  | .level raw => raw ≤ 6
  | .call _ k => ∀ b, RawLevelsOk (k b)

theorem rawLevelsOk_progDo (as : Action) {p : GetterProg} (hp : RawLevelsOk p) :
    RawLevelsOk (progDo as p) := by
  induction as with
  | nil => exact hp
  | cons w ws ih => exact fun _ => ih

theorem rawLevelsOk_resumeProg (p : GetterProg) (bs : List Byte) (hp : RawLevelsOk p) :
    RawLevelsOk (resumeProg p bs) := by
  induction bs generalizing p with
  | nil => cases p <;> exact hp
  | cons b bs ih =>
    cases p with
    | call op k => exact ih (k b) (hp b)
    | _ => exact hp

theorem rawLevelsOk_getterProg (h : Hdt) (c : GetterCmd) : RawLevelsOk (getterProg h c) := by
  cases c with
  | lockStatus => exact fun _ _ => trivial
  | rssi => exact fun _ _ => trivial
  | cnr => exact rawLevelsOk_progDo _ fun _ _ => trivial
  | per => intro b; dsimp only; split; exacts [fun _ _ => trivial, trivial]
  | ber => intro b; dsimp only; split; exacts [fun _ _ _ _ _ _ => trivial, trivial]
  | cer => intro b; dsimp only; split; exacts [fun _ _ _ _ _ _ _ _ => trivial, trivial]
  | antennaLevel cer =>
    show RawLevelsOk (antennaProg cer)
    unfold antennaProg
    split
    · exact trivial
    · exact antRaw_le cer

/-- The level is in 0..6, and so is the one a getter operation in progress has read. -/
structure LevelOk (s : State) : Prop where
  level : s.ctx.antLevel ≤ 6
  read : ∀ g prev, s.getter = some g → g.prev = some prev → prev ≤ 6

/-- An operation that has ended has read no level. -/
theorem LevelOk.noGetter {s : State} (h : LevelOk s) : LevelOk { s with getter := none } :=
  ⟨h.level, nofun⟩

theorem perform_getter (a : Agent) (op : PortOp) (s : State) :
    (perform a op s).2.getter = s.getter := by
  cases op with
  | rd r => cases a <;> simp only [perform, oracle] <;> split <;> rfl
  | _ => rfl

theorem LevelOk.perform {s : State} (h : LevelOk s) (a : Agent) (op : PortOp) :
    LevelOk (perform a op s).2 :=
  ⟨by rw [perform_ctx]; exact h.level, by rw [perform_getter]; exact h.read⟩

theorem LevelOk.storeLevel {s : State} {raw prev : Nat} (h : LevelOk s) (hr : raw ≤ 6)
    (hp : prev ≤ 6) : LevelOk (storeLevel raw prev s) := ⟨antStep_le hr hp, h.read⟩

theorem LevelOk.runProg {s : State} (h : LevelOk s) (prev : Option Nat)
    (hp : ∀ v, prev = some v → v ≤ 6) {p : GetterProg} (hr : RawLevelsOk p) :
    LevelOk (runProg prev p s) := by
  induction p generalizing s with
  | ret v => exact ⟨h.level, h.read⟩
  | level raw =>
    refine h.storeLevel hr ?_
    cases prev with
    | none => exact h.level
    | some v => exact hp v rfl
  | call op k ih => exact ih _ (h.perform .getter op) (hr _)

theorem LevelOk.finishGetter {s : State} (h : LevelOk s) : LevelOk (finishGetter s) := by
  unfold Machine.finishGetter
  split
  · exact h
  · rename_i g hg
    exact h.noGetter.runProg _ (fun v hv => h.read g v hg hv)
      (rawLevelsOk_resumeProg _ _ (rawLevelsOk_getterProg _ _))

theorem LevelOk.getterOp {s : State} (h : LevelOk s) (c : GetterCmd) : LevelOk (getterOp c s) := by
  unfold Machine.getterOp
  split
  · exact ⟨h.finishGetter.level, h.finishGetter.read⟩
  · exact h.finishGetter.runProg none (by simp) (rawLevelsOk_getterProg _ _)

theorem LevelOk.advanceGetter {s : State} {g : GetterRun} (h : LevelOk s) (hg : s.getter = some g) :
    LevelOk (advanceGetter g s) := by
  have hraw := rawLevelsOk_resumeProg _ g.answers (rawLevelsOk_getterProg s.hdt g.cmd)
  unfold Machine.advanceGetter
  split
  · refine ⟨(h.perform .getter _).level, ?_⟩
    rintro _ prev ⟨⟩ hp
    exact h.read g prev hg hp
  · refine ⟨h.level, ?_⟩
    rintro _ prev ⟨⟩ ⟨⟩
    exact h.level
  · rename_i raw prev heq hp
    rw [heq] at hraw
    exact h.noGetter.storeLevel hraw (h.read g prev hg hp)
  · exact ⟨h.noGetter.level, h.noGetter.read⟩

theorem LevelOk.getterMove {s : State} (h : LevelOk s) : LevelOk (getterMove s) := by
  unfold Machine.getterMove
  split
  · exact h.advanceGetter ‹_›
  · split
    · split
      · unfold startGetter
        split
        · exact ⟨h.level, h.read⟩
        · refine ⟨h.level, ?_⟩
          rintro _ prev ⟨⟩ ⟨⟩
      · exact ⟨h.level, h.read⟩
    · exact h

theorem LevelOk.getterMoves {s : State} (h : LevelOk s) (n : Nat) : LevelOk (getterMoves n s) := by
  induction n generalizing s with
  | zero => exact h
  | succ n ih => exact ih h.getterMove

theorem LevelOk.interleave {s : State} (h : LevelOk s) : LevelOk (interleave s) := by
  unfold Machine.interleave
  split
  · exact h
  · rename_i n ns _
    have h' : LevelOk { s with sched := ns } := ⟨h.level, h.read⟩
    exact h'.getterMoves n

theorem controlClosed_levelOk : ControlClosed fun s t => LevelOk s → LevelOk t where
  refl _ h := h
  trans h h' hs := h' (h hs)
  interleave _ h := h.interleave
  perform op _ h := h.perform .control op
  reply _ _ h := ⟨h.level, h.read⟩
  ctx _ _ hc h := ⟨hc.antLevel ▸ h.level, h.read⟩

theorem levelOk_exec (i : Instr) {s : State} (h : LevelOk s) : NextMeets LevelOk (exec i s) := by
  cases hc : getterCmd i with
  | some c =>
    rw [exec_getter hc]
    exact nextMeets_inSession (nextMeets_next (h.getterOp c))
  | none =>
    by_cases hi : ∃ mode, i = .init mode
    · obtain ⟨mode, rfl⟩ := hi
      exact fun t ht => controlClosed_levelOk.execInit (fun _ h => ⟨Nat.zero_le 6, h.read⟩)
        (fun _ h => ⟨h.level, h.read⟩) s t ht h
    · exact fun t ht => controlClosed_levelOk.exec hc (not_exists.1 hi) s t ht h

/-! ### Decoded operands (R303) -/

/-- Every command that a decoding result carries meets `P`. -/
def Yields (P : Instr → Prop) (r : DecodeResult) : Prop := ∀ i rest, r = .ok (i, rest) → P i

section Yields

variable {P : Instr → Prop}

theorem yields_ok {i : Instr} {rest : List Byte} (h : P i) : Yields P (.ok (i, rest)) := by
  rintro _ _ ⟨⟩; exact h

theorem yields_error (e : DecodeError) : Yields P (.error e) := by
  rintro _ _ ⟨⟩

theorem yields_decodeFM {mk : ReceiverMode → Instr} (h : ∀ m, P (mk m)) (bs : List Byte) :
    Yields P (decodeFM mk bs) := by
  unfold decodeFM
  split
  · split
    · exact yields_ok (h _)
    · exact yields_error _
  · exact yields_error _

theorem yields_decodeFMC {mk : ReceiverMode → AdcClockType → Instr} (h : ∀ m c, P (mk m c))
    (bs : List Byte) : Yields P (decodeFMC mk bs) := by
  unfold decodeFMC
  split
  · split
    · exact yields_ok (h _ _)
    · exact yields_error _
    · exact yields_error _
  · exact yields_error _

theorem beNat2_lt (b1 b0 : Byte) : beNat [b1, b0] < 2 ^ 16 := by
  have h1 := b1.isLt
  have h0 := b0.isLt
  simp only [beNat, List.foldl_cons, List.foldl_nil]
  omega

theorem beNat4_lt (b3 b2 b1 b0 : Byte) : beNat [b3, b2, b1, b0] < 2 ^ 32 := by
  have h3 := b3.isLt
  have h2 := b2.isLt
  have h1 := b1.isLt
  have h0 := b0.isLt
  simp only [beNat, List.foldl_cons, List.foldl_nil]
  omega

theorem yields_decodeFSF {mk : ReceiverMode → Nat → Nat → Instr}
    (h : ∀ m ch f, ch < 2 ^ 8 → f < 2 ^ 32 → P (mk m ch f)) (bs : List Byte) :
    Yields P (decodeFSF mk bs) := by
  unfold decodeFSF
  split
  · split
    · exact yields_ok (h _ _ _ (BitVec.isLt _) (beNat4_lt _ _ _ _))
    · exact yields_error _
  · exact yields_error _

theorem yields_decodeFF {mk : Nat → Instr} (h : ∀ f < 2 ^ 32, P (mk f)) (bs : List Byte) :
    Yields P (decodeFF mk bs) := by
  unfold decodeFF
  split
  · exact yields_ok (h _ (beNat4_lt _ _ _ _))
  · exact yields_error _

theorem yields_decodeFOPEN {mk : Nat → Nat → ServiceType → Nat → Instr}
    (h : ∀ f id svc thr, f < 2 ^ 32 → id < 2 ^ 8 → thr < 2 ^ 32 → P (mk f id svc thr))
    (bs : List Byte) : Yields P (decodeFOPEN mk bs) := by
  unfold decodeFOPEN
  split
  · split
    · exact yields_ok (h _ _ _ _ (beNat4_lt _ _ _ _) (BitVec.isLt _) (beNat4_lt _ _ _ _))
    · exact yields_error _
  · exact yields_error _

theorem yields_decodeFID {mk : Nat → Instr} (h : ∀ id < 2 ^ 8, P (mk id)) (bs : List Byte) :
    Yields P (decodeFID mk bs) := by
  unfold decodeFID
  split
  · exact yields_ok (h _ (BitVec.isLt _))
  · exact yields_error _

theorem yields_decodeFCER {mk : Nat → Instr} (h : ∀ cer < 2 ^ 16, P (mk cer)) (bs : List Byte) :
    Yields P (decodeFCER mk bs) := by
  unfold decodeFCER
  split
  · exact yields_ok (h _ (beNat2_lt _ _))
  · exact yields_error _

end Yields

/-- A decoded command is well formed: its operands are read from as many bytes as they may fill. -/
theorem decode_wellFormed (bs : List Byte) : Yields (fun i => i.wellFormed = true) (decode bs) := by
  unfold decode
  split
  · exact yields_error _
  · split
    · exact yields_decodeFM (mk := .init) (fun _ => rfl) _
    · exact yields_decodeFMC (mk := .adcConfigure) (fun _ _ => rfl) _
    · exact yields_decodeFMC (mk := .adcChangeClock) (fun _ _ => rfl) _
    · exact yields_decodeFSF (fun _ _ _ hc hf =>
        Bool.and_eq_true_iff.2 ⟨decide_eq_true hc, decide_eq_true hf⟩) _
    · exact yields_decodeFF (fun _ hf => decide_eq_true hf) _
    · exact yields_decodeFOPEN (fun _ _ _ _ hf hi ht => Bool.and_eq_true_iff.2
        ⟨Bool.and_eq_true_iff.2 ⟨decide_eq_true hf, decide_eq_true hi⟩, decide_eq_true ht⟩) _
    · exact yields_decodeFID (fun _ hi => decide_eq_true hi) _
    · exact yields_ok rfl
    · exact yields_ok rfl
    · exact yields_ok rfl
    · exact yields_ok rfl
    · exact yields_ok rfl
    · exact yields_ok rfl
    · exact yields_ok rfl
    · exact yields_ok rfl
    · exact yields_decodeFCER (fun _ hc => decide_eq_true hc) _
    · exact yields_ok rfl
    · exact yields_error _

/-- The frequencies and thresholds of a command meet `P`. -/
def WordsMeet (P : Nat → Prop) : Instr → Prop
  | .setFreq _ _ freq => P freq
  | .scanFreq freq => P freq
  | .openSubch freq _ _ thr => P freq ∧ P thr
  | _ => True

theorem wordsMeet_of_forall {P : Nat → Prop} (h : ∀ n, P n) (i : Instr) : WordsMeet P i := by
  cases i with
  | setFreq => exact h _
  | scanFreq => exact h _
  | openSubch => exact ⟨h _, h _⟩
  | _ => exact trivial

theorem wordsMeet_of_wellFormed {i : Instr} (h : i.wellFormed = true) :
    WordsMeet (· < 2 ^ 32) i := by
  cases i with
  | setFreq mode ch f =>
    simp only [Instr.wellFormed, Bool.and_eq_true, decide_eq_true_eq] at h
    exact h.2
  | scanFreq f => exact of_decide_eq_true (p := f < 2 ^ 32) h
  | openSubch f id svc thr =>
    simp only [Instr.wellFormed, Bool.and_eq_true, decide_eq_true_eq] at h
    obtain ⟨⟨hf, -⟩, ht⟩ := h
    exact ⟨hf, ht⟩
  | _ => exact trivial

/-! ### What the control agent keeps within a command -/

/-- Of the control agent's view within a command: the HDT is accepted, the allocator invariants
hold, the flag is up only if `K`, the previous frequency and every threshold meet `P`, and the replies
so far are `rs`. -/
structure Sound (P : Nat → Prop) (K : Prop) (rs : List Reply) (v : CtlView) : Prop where
  hdt : hdtOk v.hdt = true
  alloc : AllocInv v.hdt v.core
  flag : v.core.ccip = true → K
  freq : P v.core.prevFreq
  thr : ∀ e b, entry v.core e = some b → P b.thr
  replies : v.replies = rs

/-- A command answers a next state, with one reply after `rs`. -/
def Answers (P : Nat → Prop) (K : Prop) (rs : List Reply) (o : Out) : Prop :=
  ∃ u r, o = .next (reply .control r u) ∧ Sound P K rs (ctlView u)

/-- There is a free entry and a free slot for a binding of this service (R702). -/
def Room (h : Hdt) (c : Session) (svc : ServiceType) : Prop :=
  ∃ e slot, FirstFreeEntry h c e ∧ TargetSlot h c svc slot ∧ slotBound c slot = false
    ∧ ∀ id thr, slotFits h ⟨id, slot, svc, thr⟩

theorem numDataSlots_of_hdtOk {h : Hdt} (hh : hdtOk h = true) :
    1 ≤ h.alloc.numDataSlots ∧ h.alloc.numDataSlots ≤ 4 := by
  obtain ⟨-, -, hn, -⟩ := (hdtChecksAreThoseOfTheSpec h).1 hh
  exact hn

theorem slot_le_of_fits {h : Hdt} {b : Binding} (hf : slotFits h b) :
    b.slot ≤ h.alloc.numDataSlots := by
  unfold slotFits at hf
  split at hf <;> omega

/-- A multi-sub-channel build has room in a group that is not full. -/
theorem room_of_not_full {h : Hdt} {c : Session} {svc : ServiceType} (hi : AllocInv h c)
    (hm : h.alloc.multiSubch = true) (hf : groupFull h c (groupOf svc) = false) : Room h c svc := by
  obtain ⟨slot, ht, hfree, hfits⟩ := exists_targetSlot hf
  obtain ⟨e, he⟩ := exists_firstFreeEntry hi hm (slot_le_of_fits (hfits 0 0)) hfree
  exact ⟨e, slot, he, ht, hfree, hfits⟩

/-- Every build has room when nothing is bound. -/
theorem room_of_noBindings {h : Hdt} {c : Session} (hh : hdtOk h = true) (hn : NoBindings c)
    (svc : ServiceType) : Room h c svc := by
  obtain ⟨hentry, -, -, hslots, -⟩ := hn
  have hfree : ∀ k, slotBound c k = false := fun k => by simp [slotBound, hslots]
  have hf : groupFull h c (groupOf svc) = false := by
    have hd := (numDataSlots_of_hdtOk hh).1
    cases svc with
    | data => simpa [groupFull, slotsOf, groupOf, hfree] using ⟨0, hd⟩
    | _ => simp [groupFull, slotsOf, groupOf, hfree]
  obtain ⟨slot, ht, hsf, hfits⟩ := exists_targetSlot hf
  have hmax : 0 < maxBindings h := by unfold maxBindings; split <;> omega
  exact ⟨0, slot, ⟨hmax, hentry 0, fun k hk => absurd hk (Nat.not_lt_zero k)⟩, ht, hsf, hfits⟩

theorem registered_of_noBindings {c : Session} (hn : NoBindings c) (id : Nat) :
    registered c id = false := by
  obtain ⟨-, h0, h1, -, -⟩ := hn
  unfold registered idWord
  split
  · simp [h0]
  · split <;> simp [h1]

theorem Quiet.noBindings {s u : State} (hq : Quiet ClockOnly s u) (hn : NoBindings s.ctx) :
    NoBindings u.ctx := by
  obtain ⟨es, as, clk, hu⟩ := hq.ctlView_eq
  have hcore : core u.ctx = { core s.ctx with adcClk := clk } := congrArg CtlView.core hu
  have hn' : NoBindings { core s.ctx with adcClk := clk } := hn
  rw [← hcore] at hn'
  exact hn'

theorem maxBindings_le {h : Hdt} (hh : hdtOk h = true) : maxBindings h ≤ 5 := by
  obtain ⟨-, h4⟩ := numDataSlots_of_hdtOk hh
  unfold maxBindings
  split <;> omega

namespace Sound

variable {P : Nat → Prop} {K : Prop} {rs : List Reply}

theorem ran {v : CtlView} (h : Sound P K rs v) (es : List Event) (as : List Byte) :
    Sound P K rs (v.ran es as) :=
  ⟨h.hdt, h.alloc, h.flag, h.freq, h.thr, h.replies⟩

/-- Writes of the fields outside the allocator. -/
theorem write {v : CtlView} (h : Sound P K rs v) {K' : Prop} {i : Bool} {k : Option AdcClockType}
    {f : Nat} {b d : Bool} (hf : P f) (hb : b = true → K') :
    Sound P K' rs
      { v with core := { v.core with
          initialized := i, adcClk := k, prevFreq := f, ccip := b, streamSuspended := d } } := by
  obtain ⟨hentries, hbounded, hid, hfits, hslot, hsameId, hsameSlot, hids, hslots⟩ := h.alloc
  exact ⟨h.hdt, ⟨hentries, hbounded, hid, hfits, hslot, hsameId, hsameSlot, hids, hslots⟩, hb, hf,
    h.thr, h.replies⟩

variable {s : State} (h : Sound P K rs (ctlView s))

include h

theorem allocInv : AllocInv s.hdt s.ctx := allocInv_core.1 h.alloc

/-- Port calls and writes of the clock type. -/
theorem quiet {u : State} (hq : Quiet ClockOnly s u) : Sound P K rs (ctlView u) := by
  obtain ⟨es, as, clk, hu⟩ := hq.ctlView_eq
  rw [hu]
  exact (h.ran es as).write h.freq h.flag

theorem doAction (as : Action) : Sound P K rs (ctlView (doAction as s)) :=
  h.quiet (Quiet.refl.doAction as)

theorem synthSetFrequency (mode : ReceiverMode) (ch f : Nat) :
    Sound P K rs (ctlView (synthSetFrequency mode ch f s).2) :=
  h.quiet (Quiet.refl.synthSetFrequency (fun _ _ => rfl) mode ch f)

theorem setCcip {K' : Prop} (v : Bool) (hv : v = true → K') :
    Sound P K' rs (ctlView (setCcip v s)) := by
  rw [ctlView_setCcip]
  exact h.write h.freq hv

theorem setPrevFreq {f : Nat} (hf : P f) : Sound P K rs (ctlView (setPrevFreq f s)) :=
  h.write hf h.flag

theorem setStreamSuspended (d : Bool) :
    Sound P K rs (ctlView { s with ctx := { s.ctx with streamSuspended := d } }) :=
  h.write h.freq h.flag

theorem updatePrevFreq (r : Except ErrorCode Unit) {f : Nat} (h0 : P 0) (hf : P f) :
    Sound P K rs (ctlView (updatePrevFreq r f s)) := by
  refine h.setPrevFreq ?_
  unfold prevFreqAfter
  split
  · exact hf
  · exact h0
  · exact h0
  · exact h.freq

theorem restoreStream : Sound P K rs (ctlView (restoreStream s)) := by
  unfold Machine.restoreStream
  split
  · exact (h.doAction _).setStreamSuspended false
  · exact h

/-! #### The allocator -/

/-- An unbind of a live binding's ID finds it. -/
theorem unbind {e : Nat} {b : Binding} (he : entry s.ctx e = some b) :
    ∃ t, unbind b.id s = .ok t ∧ Sound P K rs (ctlView t)
      ∧ ∀ k, entry t.ctx k = if k = e then none else entry s.ctx k := by
  have hid := h.allocInv.idRange e b he
  obtain ⟨t, ht, hv⟩ := unbind_spec s rfl h.allocInv he
  have hrel := unbindStep_released (core s.ctx) (entry_lt he) hid
  have hcore : core t.ctx = unbindStep e b (core s.ctx) := congrArg CtlView.core hv
  have hentry : ∀ k, entry t.ctx k = if k = e then none else entry s.ctx k := fun k => by
    have hk := hrel.1 k
    rw [← hcore] at hk
    exact hk
  have hsame := unbindStep_same (core s.ctx) e b
  refine ⟨t, ht, ?_, hentry⟩
  refine ⟨by rw [hv]; exact h.hdt, ?_, ?_, ?_, fun k x hx => ?_, by rw [hv]; exact h.replies⟩
  · rw [hv]
    exact h.alloc.released he hrel
  · rw [hv]
    show (unbindStep e b (core s.ctx)).ccip = true → K
    rw [hsame]
    exact h.flag
  · rw [hv]
    show P (unbindStep e b (core s.ctx)).prevFreq
    rw [hsame]
    exact h.freq
  · have hx' : entry t.ctx k = some x := hx
    rw [hentry] at hx'
    split at hx'
    · cases hx'
    · exact h.thr k x hx'

/-- *CloseAllBindings* leaves nothing bound. -/
theorem closeAllBindings :
    ∃ t, closeAllBindings s = .ok t ∧ Sound P K rs (ctlView t) ∧ NoBindings t.ctx := by
  obtain ⟨t, c, ht, hsame, hn, hinv, hv⟩ := closeAllBindings_spec s h.allocInv
  have hcore : core t.ctx = c := congrArg CtlView.core hv
  refine ⟨t, ht, ?_, by rw [← hcore] at hn; exact hn⟩
  rw [hv]
  refine ⟨h.hdt, hinv, ?_, ?_, fun e b he => ?_, h.replies⟩
  · show c.ccip = true → K
    rw [hsame]
    exact h.flag
  · show P c.prevFreq
    rw [hsame]
    exact h.freq
  · exact nomatch (hn.1 e).symm.trans he

/-- The eviction of a single-sub-channel build leaves nothing bound. -/
theorem evict (hm : s.hdt.alloc.multiSubch = false) :
    ∃ t, evict s = .ok t ∧ Sound P K rs (ctlView t) ∧ NoBindings t.ctx := by
  have hmax : maxBindings s.hdt = 1 := by simp [maxBindings, hm]
  have hzero : ∀ {e b}, entry s.ctx e = some b → e = 0 := fun he => by
    have := h.allocInv.bounded _ _ he
    omega
  unfold Machine.evict
  split
  · rename_i hmask
    refine ⟨s, rfl, h, noBindings_of_no_entry h.allocInv fun e => ?_⟩
    cases he : entry s.ctx e with
    | none => rfl
    | some b =>
      have hbit := h.allocInv.entries e (entry_lt he)
      simp [hmask, he] at hbit
  · rename_i hmask
    cases h0 : entry s.ctx 0 with
    | none =>
      refine absurd (noBindings_of_no_entry h.allocInv fun e => ?_).2.2.2.2 hmask
      cases he : entry s.ctx e with
      | none => rfl
      | some b =>
        rw [hzero he, h0] at he
        cases he
    | some b =>
      obtain ⟨t, ht, hs, hentry⟩ := h.unbind h0
      refine ⟨t, ht, hs, noBindings_of_no_entry hs.allocInv fun e => ?_⟩
      rw [hentry]
      split
      · rfl
      · cases he : entry s.ctx e with
        | none => rfl
        | some b => exact absurd (hzero he) ‹_›

/-- A bind of an ID that is not registered, where there is room. -/
theorem bind {id thr : Nat} {svc : ServiceType} (hid : id < numIds)
    (hreg : registered s.ctx id = false) (hroom : Room s.hdt s.ctx svc) (hthr : P thr) :
    ∃ t, bind id svc thr s = .ok t ∧ Sound P K rs (ctlView t) := by
  obtain ⟨e, slot, he, ht, hfree, hfits⟩ := hroom
  obtain ⟨t, hb, hv⟩ := bind_spec id thr s rfl he ht
  obtain ⟨hmax, hnone, -⟩ := he
  have he5 : e < 5 := Nat.lt_of_lt_of_le hmax (maxBindings_le h.hdt)
  have hslot : slot < 5 := Nat.lt_succ_of_le
    ((slot_le_of_fits (hfits id thr)).trans (numDataSlots_of_hdtOk h.hdt).2)
  have hbound := bindStep_boundAlso (core s.ctx) (b := ⟨id, slot, svc, thr⟩) he5 hid hslot
  have hsame := bindStep_same (core s.ctx) e ⟨id, slot, svc, thr⟩
  refine ⟨t, hb, ?_⟩
  rw [hv]
  refine ⟨h.hdt, ?_, ?_, ?_, fun k x hx => ?_, h.replies⟩
  · exact h.alloc.bound (b := ⟨id, slot, svc, thr⟩) hmax hnone hid hreg (hfits id thr) hslot hfree
      hbound
  · show (bindStep e ⟨id, slot, svc, thr⟩ (core s.ctx)).ccip = true → K
    rw [hsame]
    exact h.flag
  · show P (bindStep e ⟨id, slot, svc, thr⟩ (core s.ctx)).prevFreq
    rw [hsame]
    exact h.freq
  · have hx' := (hbound.1 k).symm.trans hx
    split at hx'
    · cases hx'
      exact hthr
    · exact h.thr k x hx'

/-! #### The commands -/

theorem raiseErr (e : ErrorCode) : Answers P K rs (raiseErr e s) := ⟨s, _, rfl, h⟩

theorem returnOk : Answers P K rs (returnOk s) := ⟨s, _, rfl, h⟩

theorem finish (r : Except ErrorCode Unit) : Answers P K rs (finish r s) := by
  cases r with
  | ok _ => exact h.returnOk
  | error e => exact h.raiseErr e

theorem returnVerdict (v : ScanVerdict) {f : Nat} (hf : P f) :
    Answers P K rs (returnVerdict v f s) := ⟨_, _, rfl, h.setPrevFreq hf⟩

theorem bindAndReturn {id thr : Nat} {svc : ServiceType} (hid : id < numIds)
    (hreg : registered s.ctx id = false) (hroom : Room s.hdt s.ctx svc) (hthr : P thr) {K' : Prop}
    {k : State → State}
    (hk : ∀ u, Sound P K rs (ctlView u) → Sound P K' rs (ctlView (k u))) :
    Answers P K' rs (bindAndReturn id svc thr k s) := by
  obtain ⟨t, hb, ht⟩ := h.bind hid hreg hroom hthr
  unfold Machine.bindAndReturn
  rw [hb]
  exact (hk _ ht.restoreStream).returnOk

theorem openTuned {id thr : Nat} (hid : id < numIds) (svc : ServiceType) (hthr : P thr) :
    Answers P K rs (openTuned id svc thr s) := by
  unfold Machine.openTuned
  split
  · exact h.restoreStream.returnOk
  · rename_i hreg
    rw [Bool.not_eq_true] at hreg
    split
    · rename_i hm
      split
      · exact h.raiseErr _
      · rename_i hf
        rw [Bool.not_eq_true] at hf
        exact h.bindAndReturn hid hreg (room_of_not_full h.allocInv hm hf) hthr fun _ hu => hu
    · rename_i hm
      rw [Bool.not_eq_true] at hm
      obtain ⟨t, he, ht, hn⟩ := h.evict hm
      rw [he]
      exact ht.bindAndReturn hid (registered_of_noBindings hn id)
        (room_of_noBindings ht.hdt hn svc) hthr fun _ hu => hu

theorem openRetune {f id thr : Nat} (hid : id < numIds) (svc : ServiceType) (h0 : P 0) (hf : P f)
    (hthr : P thr) : Answers P K rs (openRetune f id svc thr s) := by
  obtain ⟨t, hc, ht, hn⟩ := (h.setCcip (K' := True) true fun _ => trivial).closeAllBindings
  have hq : Quiet ClockOnly t (Machine.synthSetFrequency t.ctx.mode 0 f t).2 :=
    Quiet.refl.synthSetFrequency (fun _ _ => rfl) _ 0 f
  have hu := ht.quiet hq
  have hnu := hq.noBindings hn
  unfold Machine.openRetune
  rw [hc]
  dsimp only
  generalize Machine.synthSetFrequency t.ctx.mode 0 f t = p at hu hnu
  obtain ⟨r, u⟩ := p
  have hu' := hu.updatePrevFreq r h0 hf
  cases r with
  | error e => exact (hu'.setCcip false nofun).raiseErr e
  | ok _ =>
    exact hu'.bindAndReturn hid (registered_of_noBindings hnu id)
      (room_of_noBindings hu'.hdt hnu svc) hthr fun v hv => hv.setCcip false nofun

end Sound

/-- Every control command but `INIT` answers. -/
theorem exec_answers_of_ne_init {P : Nat → Prop} {K : Prop} {rs : List Reply} {i : Instr}
    (hc : getterCmd i = none) (hi : ∀ mode, i ≠ .init mode) (hw : WordsMeet P i) (h0 : P 0)
    {s : State} (h : Sound P K rs (ctlView s)) (ho : s.ctx.initialized = true) :
    Answers P K rs (exec i s) := by
  have key : ∀ {k : State → Out}, Answers P K rs (k s) → Answers P K rs (inSession s k) := by
    intro k hk
    rw [inSession_of_ready ⟨ho, h.hdt⟩]
    exact hk
  have hup : Sound P True rs (ctlView (setCcip true s)) := h.setCcip true fun _ => trivial
  cases i with
  | init mode => exact absurd rfl (hi mode)
  | adcConfigure mode clk =>
    refine key ?_
    exact (h.quiet (Quiet.refl.adcConfigure (fun _ _ => rfl) clk)).finish _
  | adcChangeClock mode clk =>
    refine key ?_
    exact (h.quiet (Quiet.refl.adcChangeClock (fun _ _ => rfl) clk)).finish _
  | setFreq mode ch f =>
    refine key ?_
    exact (((hup.synthSetFrequency mode ch f).updatePrevFreq _ h0 hw).setCcip false nofun).finish _
  | scanFreq f =>
    refine key ?_
    split
    · exact h.returnVerdict _ hw
    · obtain ⟨t, hct, ht, -⟩ := hup.closeAllBindings
      rw [hct]
      have hu := ht.quiet (Quiet.refl.scanTuned (fun _ _ => rfl) f)
      exact (hu.setCcip false nofun).returnVerdict _ hw
  | openSubch f id svc thr =>
    obtain ⟨hf, hthr⟩ := hw
    refine key ?_
    split
    · exact h.raiseErr _
    · have hid : id < numIds := Nat.lt_of_not_le ‹_›
      split
      · exact h.raiseErr _
      · split
        · exact h.raiseErr _
        · split
          · exact h.openTuned hid svc hthr
          · exact h.openRetune hid svc h0 hf hthr
  | closeSubch id =>
    refine key ?_
    split
    · exact h.raiseErr _
    · have hid : id < numIds := Nat.lt_of_not_le ‹_›
      split
      · rename_i hreg
        obtain ⟨e, b, he, rfl⟩ := (h.allocInv.ids id hid).1 hreg
        obtain ⟨t, hu, ht, -⟩ := h.unbind he
        rw [hu]
        exact ht.returnOk
      · exact h.returnOk
  | closeAllSubch =>
    refine key ?_
    obtain ⟨t, hct, ht, -⟩ := h.closeAllBindings
    rw [hct]
    exact ht.returnOk
  | disableStreamOut =>
    refine key ?_
    exact ((h.doAction _).setStreamSuspended true).returnOk
  | getPrevFreq =>
    refine key ?_
    exact ⟨s, _, rfl, h⟩
  | _ => cases hc

/-- The state in which `INIT` starts its port calls: the context is reset (R400). -/
def initStart (mode : ReceiverMode) (s : State) : State :=
  { interleave s with ctx := initContext (interleave s).hdt mode }

theorem ctlView_initStart (mode : ReceiverMode) (s : State) :
    ctlView (initStart mode s) = { ctlView s with core := initContext s.hdt mode } := by
  have h : ctlView (initStart mode s)
      = { ctlView (interleave s) with core := initContext (interleave s).hdt mode } := rfl
  rw [h, ctlView_interleave, interleave_hdt]

/-- What `INIT` can do: it rejects the mode, or it resets the context and configures the clock, and
opens the session if that succeeds. -/
theorem execInit_cases (mode : ReceiverMode) {s : State} (hh : hdtOk s.hdt = true) :
    execInit mode s = raiseErr .invalidCountryBand s
    ∨ mode ∈ s.hdt.supportedModes ∧ ∃ u, Quiet ClockOnly (initStart mode s) u
        ∧ ((∃ e, execInit mode s = raiseErr e u)
          ∨ execInit mode s = returnOk (setInitialized u)) := by
  by_cases hm : mode ∈ s.hdt.supportedModes
  · let v := doAction (forMode (initStart mode s).hdt.initSeq mode) (initStart mode s)
    have hq : Quiet ClockOnly (initStart mode s) (adcConfigure v.hdt.adc.clkInit v).2 :=
      (Quiet.refl.doAction _).adcConfigure (fun _ _ => rfl) _
    have he : execInit mode s = match adcConfigure v.hdt.adc.clkInit v with
        | (.error e, s) => raiseErr e s
        | (.ok _, s) => returnOk (setInitialized s) := by
      simp only [execInit, underHdt, hh, hm, if_true]
      rfl
    refine .inr ⟨hm, _, hq, ?_⟩
    rw [he]
    split <;> rename_i heq <;> rw [heq]
    · exact .inl ⟨_, rfl⟩
    · exact .inr rfl
  · exact .inl (by simp only [execInit, underHdt, hh, hm, if_true, if_false])

theorem noBindings_initContext (h : Hdt) (mode : ReceiverMode) : NoBindings (initContext h mode) :=
  noBindings_fresh

theorem Sound.initStart {P : Nat → Prop} {K : Prop} {rs : List Reply} {s : State}
    (h : Sound P K rs (ctlView s)) (h0 : P 0) (mode : ReceiverMode) :
    Sound P K rs (ctlView (initStart mode s)) := by
  rw [ctlView_initStart]
  exact ⟨h.hdt, allocInv_of_noBindings _ (noBindings_initContext s.hdt mode), nofun, h0,
    fun e b he => (nomatch (entry_fresh e).symm.trans he), h.replies⟩

/-- `INIT` answers. -/
theorem execInit_answers {P : Nat → Prop} {K : Prop} {rs : List Reply} (mode : ReceiverMode)
    (h0 : P 0) {s : State} (h : Sound P K rs (ctlView s)) :
    Answers P K rs (exec (.init mode) s) := by
  show Answers P K rs (execInit mode s)
  rcases execInit_cases mode h.hdt with he | ⟨-, u, hq, ⟨e, he⟩ | he⟩ <;> rw [he]
  · exact h.raiseErr _
  · exact ((h.initStart h0 mode).quiet hq).raiseErr e
  · have hu := (h.initStart h0 mode).quiet hq
    have ho : Sound P K rs (ctlView (setInitialized u)) := hu.write hu.freq hu.flag
    exact ho.returnOk

/-- Every control command answers once it is past its guards. -/
theorem control_answers {P : Nat → Prop} {K : Prop} {rs : List Reply} {i : Instr}
    (hc : getterCmd i = none) (hw : WordsMeet P i) (h0 : P 0) {s : State}
    (h : Sound P K rs (ctlView s)) (ho : s.ctx.initialized = true ∨ ∃ mode, i = .init mode) :
    Answers P K rs (exec i s) := by
  by_cases hi : ∃ mode, i = .init mode
  · obtain ⟨mode, rfl⟩ := hi
    exact execInit_answers mode h0 h
  · exact exec_answers_of_ne_init hc (not_exists.1 hi) hw h0 h (ho.resolve_right hi)

/-- A command is refused by its guards, or past them. -/
theorem exec_refused_or_accepted (i : Instr) (s : State) :
    (∃ r, exec i s = .refused r)
    ∨ hdtOk s.hdt = true ∧ (s.ctx.initialized = true ∨ ∃ mode, i = .init mode) := by
  by_cases hh : hdtOk s.hdt = true
  · by_cases hi : ∃ mode, i = .init mode
    · exact .inr ⟨hh, .inr hi⟩
    · cases ho : s.ctx.initialized with
      | true => exact .inr ⟨hh, .inl rfl⟩
      | false =>
        obtain ⟨k, hk⟩ := exec_guarded (not_exists.1 hi)
        exact .inl ⟨_, by rw [hk, inSession_of_closed ho]⟩
  · obtain ⟨r, hr, -⟩ := rejectedHdtRefusesEveryCommand i s (Bool.eq_false_of_not_eq_true hh)
    exact .inl ⟨r, hr⟩

/-- An accepted HDT and the allocator invariants are enough where the words are not bounded. -/
theorem sound_of_allocInv {s : State} (hh : hdtOk s.hdt = true) (hi : AllocInv s.hdt s.ctx) :
    Sound (fun _ => True) True (repliesOf .control s) (ctlView s) :=
  ⟨hh, allocInv_core.2 hi, fun _ => trivial, trivial, fun _ _ _ => trivial, rfl⟩

/-! ### Every accepted command returns (R1000) -/

@[simp] theorem repliesOf_perform (a b : Agent) (op : PortOp) (s : State) :
    repliesOf a (perform b op s).2 = repliesOf a s := by
  cases op with
  | rd r => cases b <;> simp only [perform, oracle] <;> split <;> rfl
  | _ => rfl

theorem runProg_replies (prev : Option Nat) (p : GetterProg) (s : State) :
    ∃ r, repliesOf .getter (runProg prev p s) = repliesOf .getter s ++ [r] := by
  induction p generalizing s with
  | ret v => exact ⟨_, repliesOf_reply_same _ _ _⟩
  | level raw => exact ⟨_, repliesOf_reply_same _ _ _⟩
  | call op k ih =>
    obtain ⟨r, hr⟩ := ih _ (perform .getter op s).2
    exact ⟨r, by rw [runProg, hr, repliesOf_perform]⟩

/-- The getter operation in progress, if any, ends with its reply. -/
theorem finishGetter_replies (s : State) :
    ∃ before, repliesOf .getter (finishGetter s) = repliesOf .getter s ++ before
      ∧ (s.getter = none → before = []) ∧ before.length ≤ 1 := by
  unfold finishGetter
  split
  · exact ⟨[], by simp⟩
  · rename_i g hg
    obtain ⟨r, hr⟩ := runProg_replies g.prev (resumeProg (getterProg s.hdt g.cmd) g.answers)
      { s with getter := none }
    exact ⟨[r], hr, by simp [hg], Nat.le_refl 1⟩

theorem getterOp_replies (c : GetterCmd) (s : State) :
    ∃ r, repliesOf .getter (getterOp c s) = repliesOf .getter (finishGetter s) ++ [r] := by
  unfold getterOp
  split
  · exact ⟨_, repliesOf_reply_same _ _ _⟩
  · exact runProg_replies _ _ _

/-- Settles O19: a control command answers by `control_answers`, a getter command after the operation
it waits for. -/
theorem acceptedCommandsReturn : Obligations.AcceptedCommandsReturn := by
  intro i s hh ho hi
  cases hc : getterCmd i with
  | none =>
    have ha : agentOf i = .control := by simp [agentOf, hc]
    obtain ⟨u, r, he, hu⟩ := control_answers hc (wordsMeet_of_forall (fun _ => trivial) i) trivial
      (sound_of_allocInv hh hi) ho
    refine ⟨_, [], r, he, ?_, fun _ => rfl, Nat.zero_le 1⟩
    rw [ha, repliesOf_reply_same, List.append_nil, ← hu.replies]
    rfl
  | some c =>
    have ha : agentOf i = .getter := by simp [agentOf, hc]
    have hno : ¬∃ mode, i = .init mode := by
      rintro ⟨mode, rfl⟩
      cases hc
    obtain ⟨before, hb, hnone, hlen⟩ := finishGetter_replies s
    obtain ⟨r, hr⟩ := getterOp_replies c s
    refine ⟨getterOp c s, before, r, ?_, ?_, fun h => ?_, hlen⟩
    · rw [exec_getter hc, inSession_of_ready ⟨ho.resolve_right hno, hh⟩]
    · rw [ha, hr, hb]
    · rw [ha] at h
      exact hnone (h.resolve_left nofun)

/-! ### No step faults (R114, R702) -/

/-- Settles O15: a command past its guards answers. -/
theorem invariantRulesOutFaults : Obligations.InvariantRulesOutFaults := by
  intro s hs
  rcases step_cases s with ⟨r, hr⟩ | hm | ⟨i, rest, -, he⟩
  · rw [hr]; rfl
  · rw [hm]; rfl
  · rw [he]
    rcases exec_refused_or_accepted i { s with inbox := rest } with ⟨r, hr⟩ | ⟨hh, ho⟩
    · rw [hr]; rfl
    · obtain ⟨t, _, _, ht, -⟩ := acceptedCommandsReturn i { s with inbox := rest } hh ho hs.alloc
      rw [ht]; rfl

/-! ### The invariant is kept (R114) -/

/-- The mode and the crystal of an open session are those of the HDT (R103, R104). -/
structure SessionOk (s : State) : Prop where
  mode : s.ctx.initialized = true → s.ctx.mode ∈ s.hdt.supportedModes
  xtal : s.ctx.initialized = true → s.ctx.xtal = s.hdt.xtalKhz

theorem SessionOk.kept {s t : State} (h : SessionOk s) (hk : SessionKept s t) (hh : t.hdt = s.hdt) :
    SessionOk t := by
  obtain ⟨hi, hm, hx⟩ := hk
  exact ⟨by rw [hi, hm, hh]; exact h.mode, by rw [hi, hx, hh]; exact h.xtal⟩

/-- `INIT` opens a session in a supported mode, with the HDT's crystal. -/
theorem sessionOk_execInit (mode : ReceiverMode) {s : State} (hh : hdtOk s.hdt = true)
    (h : SessionOk s) : NextMeets SessionOk (exec (.init mode) s) := by
  show NextMeets SessionOk (execInit mode s)
  rcases execInit_cases mode hh with he | ⟨hm, u, hq, he⟩
  · rw [he]
    exact nextMeets_next ⟨h.mode, h.xtal⟩
  · obtain ⟨es, as, clk, hv⟩ := hq.ctlView_eq
    have hhdt : u.hdt = (interleave s).hdt := congrArg CtlView.hdt hv
    have hcore : core u.ctx = { core (initStart mode s).ctx with adcClk := clk } :=
      congrArg CtlView.core hv
    have hmode : u.ctx.mode = mode := (congrArg Session.mode hcore :)
    have hxtal : u.ctx.xtal = (interleave s).hdt.xtalKhz := (congrArg Session.xtal hcore :)
    rw [← hmode, ← interleave_hdt s, ← hhdt] at hm
    rw [← hhdt] at hxtal
    rcases he with ⟨e, he⟩ | he <;> rw [he] <;>
      exact nextMeets_next ⟨fun _ => hm, fun _ => hxtal⟩

theorem sessionOk_exec (i : Instr) {s : State} (hh : hdtOk s.hdt = true) (h : SessionOk s) :
    NextMeets SessionOk (exec i s) := by
  by_cases hi : ∃ mode, i = .init mode
  · obtain ⟨mode, rfl⟩ := hi
    exact sessionOk_execInit mode hh h
  · exact fun t ht => h.kept (sessionKept_exec (not_exists.1 hi) s t ht) (grows_exec i s t ht).hdt

theorem Inv.levelOk {s : State} (h : Inv s) : LevelOk s := ⟨h.level, h.read⟩

theorem Inv.sessionOk {s : State} (h : Inv s) : SessionOk s := ⟨h.mode, h.xtal⟩

theorem Inv.sound {s : State} (h : Inv s) (hh : hdtOk s.hdt = true) :
    Sound (· < 2 ^ 32) False (repliesOf .control s) (ctlView s) :=
  ⟨hh, allocInv_core.2 h.alloc, by simp [ctlView, core, h.idle], h.freq, h.thr, rfl⟩

theorem inv_of_sound {s : State} {rs : List Reply} (h : Sound (· < 2 ^ 32) False rs (ctlView s))
    (hl : LevelOk s) (hs : SessionOk s) : Inv s :=
  ⟨h.allocInv, Bool.eq_false_of_not_eq_true h.flag, hl.level, hl.read, h.freq, h.thr, hs.mode,
    hs.xtal⟩

/-- What the getter agent writes leaves the invariant to the level. -/
theorem Inv.of_ctlView {s t : State} (h : Inv s) (hv : ctlView t = ctlView s) (hl : LevelOk t) :
    Inv t := by
  have hc := core_of_ctlView hv
  have hh := hdt_of_ctlView hv
  have hs := h.sessionOk.kept (.of_core hc) hh
  refine ⟨?_, ?_, hl.level, hl.read, ?_, ?_, hs.mode, hs.xtal⟩
  · rw [hh, ← allocInv_core, hc, allocInv_core]
    exact h.alloc
  · exact (congrArg Session.ccip hc :).trans h.idle
  · have hf : t.ctx.prevFreq = s.ctx.prevFreq := (congrArg Session.prevFreq hc :)
    rw [hf]
    exact h.freq
  · have hr : ∀ e, entry t.ctx e = entry s.ctx e := fun e => (congrArg (entry · e) hc :)
    intro e b he
    exact h.thr e b ((hr e).symm.trans he)

theorem inv_exec {i : Instr} (hw : i.wellFormed = true) {s : State} (h : Inv s) :
    NextMeets Inv (exec i s) := by
  intro t ht
  have hl : LevelOk t := levelOk_exec i h.levelOk t ht
  rcases exec_refused_or_accepted i s with ⟨r, hr⟩ | ⟨hh, ho⟩
  · rw [hr] at ht
    cases ht
  · cases hc : getterCmd i with
    | some c => exact h.of_ctlView (ctlView_exec_getter hc s t ht) hl
    | none =>
      have hs := sessionOk_exec i hh h.sessionOk t ht
      obtain ⟨u, r, he, hu⟩ := control_answers hc (wordsMeet_of_wellFormed hw) (Nat.two_pow_pos 32)
        (h.sound hh) ho
      rw [he] at ht
      cases ht
      exact inv_of_sound (s := reply .control r u)
        ⟨hu.hdt, hu.alloc, hu.flag, hu.freq, hu.thr, rfl⟩ hl hs

/-- Settles O14: a getter move keeps the control agent's view and the level in its range, and a
command keeps each part of the invariant. -/
theorem stepKeepsInvariant : Obligations.StepKeepsInvariant := by
  intro s t hs ht
  rcases step_cases s with ⟨r, hr⟩ | hm | ⟨i, rest, hd, he⟩
  · rw [hr] at ht
    cases ht
  · rw [hm] at ht
    cases ht
    exact hs.of_ctlView (ctlView_getterMove s) hs.levelOk.getterMove
  · rw [he] at ht
    have hs' : Inv { s with inbox := rest } :=
      ⟨hs.alloc, hs.idle, hs.level, hs.read, hs.freq, hs.thr, hs.mode, hs.xtal⟩
    exact inv_exec (decode_wellFormed s.inbox i rest hd) hs' t ht

/-! ### The five items of R114, counted -/

theorem countP_range_eq_one {p : Nat → Bool} (n : Nat)
    (hu : ∀ e e', p e = true → p e' = true → e = e') :
    (List.range n).countP p = 1 ↔ ∃ e < n, p e = true := by
  constructor
  · intro h
    obtain ⟨e, he, hp⟩ := List.countP_pos_iff.1 (h ▸ Nat.one_pos)
    exact ⟨e, List.mem_range.1 he, hp⟩
  · rintro ⟨e, he, hp⟩
    have hpe : ∀ k ∈ List.range n, p k = true ↔ (k == e) = true := fun k _ => by
      rw [beq_iff_eq]
      exact ⟨fun hk => hu k e hk hp, fun hk => hk ▸ hp⟩
    rw [List.countP_congr hpe, ← List.count_eq_countP]
    exact List.count_eq_one_of_mem List.nodup_range (List.mem_range.2 he)

theorem holdsId_iff {c : Session} {i e : Nat} :
    holdsId c i e = true ↔ ∃ b, entry c e = some b ∧ b.id = i := by
  unfold holdsId
  split <;> simp [*]

theorem holdsSlot_iff {c : Session} {k e : Nat} :
    holdsSlot c k e = true ↔ ∃ b, entry c e = some b ∧ b.slot = k := by
  unfold holdsSlot
  split <;> simp [*]

/-- A number that a live binding holds is counted once, where no two bindings share it. -/
theorem countP_entries_eq_one {c : Session} {p : Nat → Bool} {k : Nat} (f : Binding → Nat)
    (hp : ∀ {e}, p e = true ↔ ∃ b, entry c e = some b ∧ f b = k)
    (hf : ∀ e e' b b', entry c e = some b → entry c e' = some b' → f b = f b' → e = e') :
    (List.range 5).countP p = 1 ↔ ∃ e b, entry c e = some b ∧ f b = k := by
  rw [countP_range_eq_one]
  · simp only [hp]
    exact ⟨fun ⟨e, _, b, he, hb⟩ => ⟨e, b, he, hb⟩,
      fun ⟨e, b, he, hb⟩ => ⟨e, entry_lt he, b, he, hb⟩⟩
  · intro e e' he he'
    obtain ⟨b, hb, rfl⟩ := hp.1 he
    obtain ⟨b', hb', hs⟩ := hp.1 he'
    exact hf e e' b b' hb hb' hs.symm

/-- The slots of the live bindings, in the order of their entries. -/
def liveSlots (c : Session) : List Nat := (List.range 5).filterMap fun e => (entry c e).map (·.slot)

theorem length_liveSlots (c : Session) : (liveSlots c).length = liveBindings c := by
  simp [liveSlots, liveBindings, List.length_filterMap_eq_countP]

theorem mem_liveSlots {c : Session} {k : Nat} :
    k ∈ liveSlots c ↔ ∃ e b, entry c e = some b ∧ b.slot = k := by
  simp only [liveSlots, List.mem_filterMap, List.mem_range, Option.map_eq_some_iff]
  constructor
  · rintro ⟨e, -, b, he, hb⟩
    exact ⟨e, b, he, hb⟩
  · rintro ⟨e, b, he, hb⟩
    exact ⟨e, entry_lt he, b, he, hb⟩

namespace AllocInv

variable {h : Hdt} {c : Session} (hi : AllocInv h c)

include hi

theorem nodup_liveSlots : (liveSlots c).Nodup := by
  refine List.Nodup.filterMap ?_ List.nodup_range
  intro e e' k he he'
  obtain ⟨b, hb, rfl⟩ := Option.map_eq_some_iff.1 he
  obtain ⟨b', hb', hs⟩ := Option.map_eq_some_iff.1 he'
  exact hi.sameSlot e e' b b' hb hb' hs.symm

/-- The bits of the slot mask are the slots of the live bindings, each once. -/
theorem popcount_slotMask : popcount c.slotMask = liveBindings c := by
  rw [← length_liveSlots, popcount, List.countP_eq_length_filter]
  refine List.Perm.length_eq ((List.perm_ext_iff_of_nodup
    (List.nodup_range.filter _) hi.nodup_liveSlots).2 fun k => ?_)
  rw [mem_liveSlots, ← hi.slots k, List.mem_filter, List.mem_range]
  refine ⟨fun hk => hk.2, fun hk => ⟨?_, hk⟩⟩
  obtain ⟨e, b, he, rfl⟩ := (hi.slots k).1 hk
  exact hi.slotRange e b he

theorem popcount_regMask : popcount c.regMask = liveBindings c := by
  refine List.countP_congr fun e he => ?_
  rw [hi.entries e (List.mem_range.1 he)]

theorem liveBindings_le : liveBindings c ≤ maxBindings h := by
  rw [liveBindings, List.countP_eq_length_filter, ← List.length_range (n := maxBindings h)]
  refine (List.subperm_of_subset (List.nodup_range.filter _) fun e he => ?_).length_le
  obtain ⟨b, hb⟩ := Option.isSome_iff_exists.1 (List.mem_filter.1 he).2
  exact List.mem_range.2 (hi.bounded e b hb)

/-- The invariant, in the form every operation keeps, gives R114 as the spec words it. -/
theorem r114Items : R114Items h c where
  ids i hlt := (hi.ids i hlt).trans (countP_entries_eq_one Binding.id holdsId_iff hi.sameId).symm
  slots k _ :=
    (hi.slots k).trans (countP_entries_eq_one Binding.slot holdsSlot_iff hi.sameSlot).symm
  entries e he := by rw [hi.entries e he, Option.isSome_iff_ne_none]
  slotCount := hi.popcount_slotMask
  entryCount := hi.popcount_regMask
  capacity := hi.liveBindings_le
  fits := hi.fits

end AllocInv

/-- The invariant holds in every state that any number of steps reach. -/
theorem inv_run (n : Nat) {s : State} (hs : Inv s) : NextMeets Inv (Sys2Proof.core.run n s) := by
  induction n generalizing s with
  | zero => exact nextMeets_next hs
  | succ n ih =>
    intro t ht
    simp only [Host.Core.run] at ht
    split at ht
    · rename_i u hu
      exact ih (stepKeepsInvariant s u hs hu) t ht
    · cases ht
    · cases ht

/-- Settles O16: the invariant of a run's last state, counted. -/
theorem allocatorRulesHoldOnEveryRun : Obligations.AllocatorRulesHoldOnEveryRun :=
  fun _ t n hs ht => (inv_run n hs t ht).alloc.r114Items

/-! ### The getter agent within a control command (R222, R901) -/

theorem SameSurroundings.refl (s : State) : SameSurroundings s s :=
  ⟨rfl, rfl, rfl, rfl, rfl, rfl, rfl⟩

theorem SameSurroundings.trans {s t u : State} (h : SameSurroundings s t)
    (h' : SameSurroundings t u) : SameSurroundings s u := by
  obtain ⟨h1, h2, h3, h4, h5, h6, h7⟩ := h
  obtain ⟨k1, k2, k3, k4, k5, k6, k7⟩ := h'
  exact ⟨k1.trans h1, k2.trans h2, k3.trans h3, k4.trans h4, k5.trans h5, k6.trans h6, k7.trans h7⟩

theorem sameSurroundings_record (e : Event) (s : State) :
    SameSurroundings s (record .control e s) :=
  ⟨rfl, rfl, rfl, rfl, rfl, eventsOf_record_other (by decide) e s, rfl⟩

/-- A port call of the control agent, its getter moves apart. -/
theorem sameSurroundings_perform (op : PortOp) (s : State) :
    SameSurroundings s (perform .control op s).2 := by
  cases op with
  | rd r =>
    refine .trans ?_ (sameSurroundings_record _ _)
    unfold oracle
    dsimp only
    split <;> exact .refl _
  | _ => exact sameSurroundings_record _ s

theorem sameSurroundings_reply (r : Reply) (s : State) : SameSurroundings s (reply .control r s) :=
  ⟨rfl, rfl, rfl, rfl, rfl, rfl, repliesOf_reply_other (by decide) r s⟩

theorem interleave_of_no_sched {s : State} (hs : s.sched = []) : interleave s = s := by
  simp [interleave, hs]

/-- With no getter move scheduled, the surroundings stay. -/
def LeavesAlone (s t : State) : Prop := s.sched = [] → SameSurroundings s t

theorem SameSurroundings.sched {s t : State} (h : SameSurroundings s t) : t.sched = s.sched := by
  obtain ⟨-, -, -, hs, -⟩ := h
  exact hs

theorem controlClosed_leavesAlone : ControlClosed LeavesAlone where
  refl s _ := .refl s
  trans h h' hs := (h hs).trans (h' ((h hs).sched.trans hs))
  interleave s hs := by
    rw [interleave_of_no_sched hs]
    exact .refl s
  perform op s _ := sameSurroundings_perform op s
  reply r s _ := sameSurroundings_reply r s
  ctx s _ _ _ := .refl s

theorem leavesAlone_exec {i : Instr} (hc : getterCmd i = none) (s : State) :
    NextMeets (LeavesAlone s) (exec i s) := by
  by_cases hi : ∃ mode, i = .init mode
  · obtain ⟨mode, rfl⟩ := hi
    exact controlClosed_leavesAlone.execInit (fun s _ => .refl s) (fun s _ => .refl s) s
  · exact controlClosed_leavesAlone.exec hc (not_exists.1 hi) s

/-- With no getter move scheduled, the schedule stays empty and the level as it is. -/
def KeepsLevel (s t : State) : Prop := s.sched = [] → t.sched = [] ∧ t.ctx.antLevel = s.ctx.antLevel

theorem controlClosed_keepsLevel : ControlClosed KeepsLevel where
  refl _ hs := ⟨hs, rfl⟩
  trans h h' hs := ⟨(h' (h hs).1).1, (h' (h hs).1).2.trans (h hs).2⟩
  interleave s hs := by
    rw [interleave_of_no_sched hs]
    exact ⟨hs, rfl⟩
  perform op s hs := ⟨(sameSurroundings_perform op s).sched.trans hs, by rw [perform_ctx]⟩
  reply _ _ hs := ⟨hs, rfl⟩
  ctx _ _ h hs := ⟨hs, h.antLevel⟩

/-- A getter command that starts now answers its sentinel at once: a session is open, the flag is up
and no getter operation is in progress. -/
structure Flagged (s : State) : Prop where
  initialized : s.ctx.initialized = true
  ccip : s.ctx.ccip = true
  getter : s.getter = none

/-- Between `s` and `t` the getter agent did no more than answer sentinels. -/
structure Hushed (s t : State) : Prop where
  events : eventsOf .getter t = eventsOf .getter s
  answers : t.getAnswers = s.getAnswers
  getter : t.getter = s.getter
  level : t.ctx.antLevel = s.ctx.antLevel
  replies : ∃ cs : List GetterCmd,
    repliesOf .getter t = repliesOf .getter s ++ cs.map fun c => .value (sentinel c)

theorem SameSurroundings.hushed {s t : State} (h : SameSurroundings s t)
    (hl : t.ctx.antLevel = s.ctx.antLevel) : Hushed s t := by
  obtain ⟨hg, -, -, -, ha, he, hr⟩ := h
  exact ⟨he, ha, hg, hl, [], by simp [hr]⟩

theorem Hushed.refl (s : State) : Hushed s s := (SameSurroundings.refl s).hushed rfl

theorem Hushed.trans {s t u : State} (h : Hushed s t) (h' : Hushed t u) : Hushed s u := by
  obtain ⟨cs, hr⟩ := h.replies
  obtain ⟨ds, hr'⟩ := h'.replies
  exact ⟨h'.events.trans h.events, h'.answers.trans h.answers, h'.getter.trans h.getter,
    h'.level.trans h.level, cs ++ ds, by rw [hr', hr]; simp⟩

theorem hushed_reply (r : Reply) (s : State) : Hushed s (reply .control r s) :=
  (sameSurroundings_reply r s).hushed rfl

theorem hushed_perform (op : PortOp) (s : State) : Hushed s (perform .control op s).2 :=
  (sameSurroundings_perform op s).hushed (by rw [perform_ctx])

theorem hushed_ctx (s : State) {c : Session} (h : SameSession s.ctx c) :
    Hushed s { s with ctx := c } :=
  SameSurroundings.hushed (t := { s with ctx := c }) (SameSurroundings.refl s) h.antLevel

/-- An interleaving point under the flag. -/
theorem Flagged.interleave {s : State} (h : Flagged s) :
    Flagged (interleave s) ∧ Hushed s (interleave s) := by
  obtain ⟨ns, bs, cs, he⟩ := interleave_underFlag s h.initialized h.ccip h.getter
  rw [he]
  refine ⟨⟨h.initialized, h.ccip, h.getter⟩, rfl, rfl, rfl, rfl, cs, ?_⟩
  simp [repliesOf, List.filter_map, Function.comp_def]

theorem Flagged.call {s : State} (h : Flagged s) (op : PortOp) :
    Flagged (call op s).2 ∧ Hushed s (call op s).2 := by
  obtain ⟨hf, hh⟩ := h.interleave
  have hp := hushed_perform op (Machine.interleave s)
  exact ⟨⟨by rw [Machine.call, perform_ctx]; exact hf.initialized,
    by rw [Machine.call, perform_ctx]; exact hf.ccip, hp.getter.trans hf.getter⟩, hh.trans hp⟩

/-- Port calls and context writes that leave the flag up. -/
theorem Flagged.quiet {s t : State} (h : Flagged s) (hq : Quiet FlagKept s t) :
    Flagged t ∧ Hushed s t := by
  induction hq with
  | refl => exact ⟨h, .refl s⟩
  | call op _ ih =>
    obtain ⟨hf, hh⟩ := ih
    obtain ⟨hf', hh'⟩ := hf.call op
    exact ⟨hf', hh.trans hh'⟩
  | write c hc _ ih =>
    obtain ⟨hf, hh⟩ := ih
    exact ⟨⟨hc.initialized.trans hf.initialized, hc.ccip.trans hf.ccip, hf.getter⟩,
      hh.trans (hushed_ctx _ hc.toSameSession)⟩

/-- Lowering the flag: the interleaving point before the write is still under it. -/
theorem Flagged.setCcip {s : State} (h : Flagged s) (v : Bool) : Hushed s (setCcip v s) :=
  h.interleave.2.trans (hushed_ctx _ ⟨rfl, rfl, rfl, rfl⟩)

/-- Raising the flag, with no getter move before it. -/
theorem flagged_setCcip {s : State} {ns : List Nat} (ho : s.ctx.initialized = true)
    (hg : s.getter = none) (hs : s.sched = 0 :: ns) :
    Flagged (setCcip true s) ∧ Hushed s (setCcip true s) := by
  have he : interleave s = { s with sched := ns } := by simp [interleave, hs, getterMoves]
  rw [setCcip, he]
  exact ⟨⟨ho, rfl, hg⟩, rfl, rfl, rfl, rfl, [], by simp [repliesOf]⟩

theorem flagKept_clock (c : Session) (v : Option AdcClockType) :
    FlagKept c { c with adcClk := v } := ⟨⟨rfl, rfl, rfl, rfl⟩, rfl⟩

theorem flagKept_prevFreq (c : Session) (v : Nat) : FlagKept c { c with prevFreq := v } :=
  ⟨⟨rfl, rfl, rfl, rfl⟩, rfl⟩

/-- The getter agent is hushed until the flag is lowered again. -/
theorem Flagged.lowered {s u : State} (h : Flagged s) (hq : Quiet FlagKept s u) :
    Hushed s (Machine.setCcip false u) := by
  obtain ⟨hf, hh⟩ := h.quiet hq
  exact hh.trans (hf.setCcip false)

theorem nextMeets_inSession_open {P : State → Prop} {s : State} {k : State → Out}
    (h : s.ctx.initialized = true → NextMeets P (k s)) : NextMeets P (inSession s k) := by
  cases ho : s.ctx.initialized with
  | true => exact nextMeets_inSession (h ho)
  | false =>
    rw [inSession_of_closed ho]
    exact nextMeets_refused _

theorem Hushed.finish {s u : State} (h : Hushed s u) (r : Except ErrorCode Unit) :
    NextMeets (Hushed s) (finish r u) := by
  cases r <;> exact nextMeets_next (h.trans (hushed_reply _ u))

section Retune

variable {s : State} {ns : List Nat} (hg : s.getter = none) (hs : s.sched = 0 :: ns)

include hg hs

theorem hushed_setFreq (mode : ReceiverMode) (ch f : Nat) :
    NextMeets (Hushed s) (exec (.setFreq mode ch f) s) :=
  nextMeets_inSession_open fun ho => by
    obtain ⟨hf, hh⟩ := flagged_setCcip ho hg hs
    have hq := Quiet.refl.synthSetFrequency flagKept_clock mode ch f (u := setCcip true s)
    exact (hh.trans (hf.lowered (hq.write _ (flagKept_prevFreq _ _)))).finish _

theorem hushed_scanFreq (f : Nat) : NextMeets (Hushed s) (exec (.scanFreq f) s) :=
  nextMeets_inSession_open fun ho => by
    have hp : ∀ {u : State} (v : ScanVerdict), Hushed s u →
        NextMeets (Hushed s) (returnVerdict v f u) := fun v hu =>
      nextMeets_next ((hu.trans (hushed_ctx _ (flagKept_prevFreq _ f).toSameSession)).trans
        (hushed_reply _ _))
    obtain ⟨hf, hh⟩ := flagged_setCcip ho hg hs
    have hc := Quiet.refl.closeIds (List.range numIds) (u := setCcip true s)
    split
    · exact hp _ (.refl s)
    · split
      · exact nextMeets_fault _
      · rename_i t ht
        exact hp _ (hh.trans (hf.lowered ((hc t ht).scanTuned flagKept_clock f)))

theorem hushed_openRetune (f id : Nat) (svc : ServiceType) (thr : Nat)
    (ho : s.ctx.initialized = true) : NextMeets (Hushed s) (openRetune f id svc thr s) := by
  obtain ⟨hf, hh⟩ := flagged_setCcip ho hg hs
  have hc := Quiet.refl.closeIds (List.range numIds) (u := setCcip true s)
  unfold openRetune
  split
  · exact nextMeets_fault _
  · rename_i t ht
    have hq := (hc t ht).synthSetFrequency flagKept_clock t.ctx.mode 0 f
    generalize synthSetFrequency t.ctx.mode 0 f t = p at hq ⊢
    obtain ⟨r, u⟩ := p
    have hu : Quiet FlagKept (setCcip true s) (updatePrevFreq r f u) :=
      hq.write _ (flagKept_prevFreq _ _)
    cases r with
    | error e => exact (hh.trans (hf.lowered hu)).finish (.error e)
    | ok _ =>
      have hb := hu.bind id svc thr
      dsimp only
      unfold bindAndReturn
      split
      · exact nextMeets_fault _
      · rename_i v hv
        exact (hh.trans (hf.lowered (hb v hv).restoreStream)).finish (.ok ())

theorem hushed_openSubch (f id : Nat) (svc : ServiceType) (thr : Nat) (hne : ¬AtTunedFreq s f) :
    NextMeets (Hushed s) (exec (.openSubch f id svc thr) s) :=
  nextMeets_inSession_open fun ho => by
    have he : ∀ e, NextMeets (Hushed s) (raiseErr e s) := fun e => (Hushed.refl s).finish (.error e)
    split
    · exact he _
    · split
      · exact he _
      · split
        · exact he _
        · exact hushed_openRetune hg hs f id svc thr ho

end Retune

/-- Settles O34: with no getter move the elementary actions leave the surroundings alone; under the
flag the getter agent is hushed. -/
theorem controlCommandsLeaveGetterAlone : Obligations.ControlCommandsLeaveGetterAlone := by
  refine ⟨fun i s t ha hs ht => ?_, fun i s t ns hi hg hs ht => ?_⟩
  · have hc : getterCmd i = none := by
      cases hc : getterCmd i with
      | none => rfl
      | some c => simp [agentOf, hc] at ha
    exact ⟨leavesAlone_exec hc s t ht hs,
      fun hne => (controlClosed_keepsLevel.exec hc hne s t ht hs).2⟩
  · have hh : Hushed s t := by
      rcases hi with ⟨mode, ch, f, rfl⟩ | ⟨f, rfl⟩ | ⟨f, id, svc, thr, rfl, hne⟩
      · exact hushed_setFreq hg hs mode ch f t ht
      · exact hushed_scanFreq hg hs f t ht
      · exact hushed_openSubch hg hs f id svc thr hne t ht
    exact ⟨hh.events, hh.answers, hh.getter.trans hg, hh.level, hh.replies⟩

end Sys2Proof.Machine

namespace Sys2Proof.Machine

/-! ### The hysteresis step of the antenna level (R226, R960) -/

theorem antRaw_eq (cer : Nat) : antRaw cer =
    if 810 ≤ cer then 0 else if 700 ≤ cer then 1 else if 490 ≤ cer then 2
      else if 400 ≤ cer then 3 else if 250 ≤ cer then 4 else if 180 ≤ cer then 5 else 6 := by
  simp only [antRaw, antT, List.findIdx_cons, List.findIdx_nil, Bool.cond_decide]
  split_ifs <;> omega

/-- One step toward the raw level, or none where it is reached. -/
theorem antStep_eq {raw prev lvl : Nat}
    (h : prev < raw ∧ lvl = prev + 1 ∨ raw < prev ∧ lvl = prev - 1 ∨ raw = prev ∧ lvl = prev) :
    antStep raw prev = lvl := by
  unfold antStep
  split_ifs <;> omega

theorem antennaProg_sentinel : antennaProg 2000 = .ret 0 := rfl

theorem antennaProg_of_ne {cer : Nat} (h : cer ≠ 2000) : antennaProg cer = .level (antRaw cer) :=
  if_neg h

@[simp] theorem resumeProg_nil (p : GetterProg) : resumeProg p [] = p := by
  cases p <;> rfl

theorem getterMove_of_running {s : State} {g : GetterRun} (hg : s.getter = some g) :
    getterMove s = advanceGetter g s := by
  simp [getterMove, hg]

/-- The move of an operation that comes to its read of the level. -/
theorem advanceGetter_readLevel {s : State} {g : GetterRun} {raw : Nat}
    (hp : resumeProg (getterProg s.hdt g.cmd) g.answers = .level raw) (hn : g.prev = none) :
    advanceGetter g s = { s with getter := some { g with prev := some s.ctx.antLevel } } := by
  simp [advanceGetter, hp, hn]

/-- The move of an operation that has read the level. -/
theorem advanceGetter_storeLevel {s : State} {g : GetterRun} {raw prev : Nat}
    (hp : resumeProg (getterProg s.hdt g.cmd) g.answers = .level raw) (hn : g.prev = some prev) :
    advanceGetter g s = storeLevel raw prev { s with getter := none } := by
  simp [advanceGetter, hp, hn]

/-- Settles O58: every cer but the sentinel leads to the program `.level (antRaw cer)`, whose end stores
`antStep` of the raw level and the level read. -/
theorem antennaLevelMovesOneStep : Obligations.AntennaLevelMovesOneStep := by
  intro s cer raw prev lvl hraw hlvl
  rw [← antRaw_eq] at hraw
  subst hraw
  have hstore : ∀ t : State, storeLevel (antRaw cer) prev t
      = reply .getter (.value lvl) { t with ctx := { t.ctx with antLevel := lvl } } := fun t => by
    rw [storeLevel, antStep_eq hlvl]
  have hprog : cer ≠ 2000 →
      resumeProg (getterProg s.hdt (.antennaLevel cer)) [] = .level (antRaw cer) := fun hne => by
    rw [resumeProg_nil]
    exact antennaProg_of_ne hne
  refine ⟨fun hr hg hf => ?_, fun hne hg => ?_, fun hne hg => ?_⟩
  · have hrun : exec (.getAntennaLevel cer) s = .next (runProg none (antennaProg cer) s) :=
      exec_getter_of_idle (c := .antennaLevel cer) rfl hr hg hf
    refine ⟨?_, ?_⟩
    · rintro rfl
      rw [hrun, antennaProg_sentinel, runProg]
    · rintro hne rfl
      rw [hrun, antennaProg_of_ne hne, runProg, Option.getD_none, hstore]
  · rw [getterMove_of_running hg, advanceGetter_readLevel (hprog hne) rfl]
  · rw [getterMove_of_running hg, advanceGetter_storeLevel (hprog hne) rfl, hstore]

/-! ### A getter operation one move at a time (R222) -/

/-- The port call an operation stands at, answered. -/
theorem resumeProg_concat {p : GetterProg} {bs : List Byte} {op : PortOp} {k : Byte → GetterProg}
    (h : resumeProg p bs = .call op k) (b : Byte) : resumeProg p (bs ++ [b]) = k b := by
  induction bs generalizing p with
  | nil =>
    rw [resumeProg_nil] at h
    simp [h, resumeProg]
  | cons x bs ih =>
    cases p with
    | call op' k' => exact ih h
    | _ => cases h

/-- Which getter operation is in progress does not matter to a port call. -/
theorem perform_clearGetter (a : Agent) (op : PortOp) (s : State) :
    perform a op { s with getter := none }
      = ((perform a op s).1, { (perform a op s).2 with getter := none }) := by
  cases op with
  | rd r => cases a <;> simp only [perform, oracle] <;> split <;> rfl
  | _ => rfl

/-- An operation in progress, moved on to its end, leaves the state of its rest run at once. -/
theorem getterMoves_finish (p : GetterProg) (g : GetterRun) (s : State) (hg : s.getter = some g)
    (hp : resumeProg (getterProg s.hdt g.cmd) g.answers = p) :
    ∃ n, getterMoves n s = runProg g.prev p { s with getter := none } := by
  induction p generalizing g s with
  | ret v =>
    refine ⟨1, ?_⟩
    simp [getterMoves, getterMove_of_running hg, advanceGetter, hp, runProg]
  | level raw =>
    cases hn : g.prev with
    | some prev =>
      refine ⟨1, ?_⟩
      simp [getterMoves, getterMove_of_running hg, advanceGetter_storeLevel hp hn, runProg]
    | none =>
      refine ⟨2, ?_⟩
      rw [getterMoves, getterMove_of_running hg, advanceGetter_readLevel hp hn, getterMoves,
        getterMove_of_running rfl]
      exact advanceGetter_storeLevel (g := { g with prev := some s.ctx.antLevel }) hp rfl
  | call op k ih =>
    obtain ⟨b, t, h⟩ : ∃ b t, perform .getter op s = (b, t) := ⟨_, _, rfl⟩
    have hmove : getterMove s = { t with getter := some { g with answers := g.answers ++ [b] } } := by
      simp [getterMove_of_running hg, advanceGetter, hp, h]
    have hhdt : t.hdt = s.hdt := by
      simpa [h] using (grows_perform .getter op s).hdt
    obtain ⟨n, hn⟩ := ih b { g with answers := g.answers ++ [b] }
      { t with getter := some { g with answers := g.answers ++ [b] } } rfl
      (by rw [hhdt]; exact resumeProg_concat hp b)
    refine ⟨n + 1, ?_⟩
    rw [getterMoves, hmove, hn, runProg, perform_clearGetter, h]

/-- With no operation in progress, a getter command's first move and some more are its operation. -/
theorem getterMoves_startGetter (c : GetterCmd) {s : State} (hg : s.getter = none) :
    ∃ n, getterMoves n (startGetter c s) = getterOp c s := by
  have hf : finishGetter s = s := by simp [finishGetter, hg]
  cases hc : s.ctx.ccip with
  | true => exact ⟨0, by simp [getterMoves, startGetter, getterOp, hf, hc]⟩
  | false =>
    obtain ⟨n, hn⟩ := getterMoves_finish (getterProg s.hdt c) ⟨c, [], none⟩
      { s with getter := some ⟨c, [], none⟩ } rfl (resumeProg_nil _)
    refine ⟨n, ?_⟩
    have hs : { s with getter := none } = s := by rw [← hg]
    simp [startGetter, getterOp, hf, hc, hn, hs]

/-- The idle getter agent meets a getter command at the front of the host's bytes. -/
theorem getterMove_of_command {s : State} {i : Instr} {c : GetterCmd} {rest : List Byte}
    (hg : s.getter = none) (hd : decode s.inbox = .ok (i, rest)) (hc : getterCmd i = some c) :
    getterMove s
      = if s.ctx.initialized then startGetter c { s with inbox := rest } else refuseGetter s := by
  simp [getterMove, hg, nextGetter, hd, hc]

/-- Settles O59, by the port calls of the getter's program. -/
theorem getterMovesRefineOperation : Obligations.GetterMovesRefineOperation := by
  refine ⟨fun c s hg => getterMoves_startGetter c hg, fun i c s rest hg hd hc => ⟨fun ho => ?_,
    fun ho => ?_⟩⟩
  · have hmove : getterMove s = startGetter c { s with inbox := rest } := by
      rw [getterMove_of_command hg hd hc, if_pos ho]
    refine ⟨?_, fun hf => ?_⟩
    · obtain ⟨n, hn⟩ := getterMoves_startGetter c (s := { s with inbox := rest }) hg
      exact ⟨n, by rw [getterMoves, hmove, hn]⟩
    · rw [hmove, startGetter, if_pos hf]
  · rw [getterMove_of_command hg hd hc, ho]
    rfl

end Sys2Proof.Machine

namespace Sys2Proof.Machine

/-! ### The control agent without the getter agent (R204, R222)

`solo s` is a state with the control agent's view of `s` and nothing else. While its reads are
scripted, a control operation does in `solo s` what it does in `s`: one equation per operation, from
the port calls up. -/

/-- The state with this view, in which the getter agent is idle and no move of it is scheduled. -/
def CtlView.solo (v : CtlView) : State where
  hdt := v.hdt
  ctx := v.core
  getter := none
  inbox := []
  sched := []
  ctlAnswers := v.answers
  getAnswers := []
  trace := v.events.map (⟨.control, ·⟩)
  getterRefused := false
  replies := v.replies.map (⟨.control, ·⟩)

/-- What the control agent sees of `s`, by itself. -/
def solo (s : State) : State := (ctlView s).solo

theorem ctlView_solo (s : State) : ctlView (solo s) = ctlView s := by
  simp [ctlView, solo, CtlView.solo, core, eventsOf, repliesOf, List.filter_map, Function.comp_def]

theorem solo_eq_iff {s t : State} : solo s = solo t ↔ ctlView s = ctlView t :=
  ⟨fun h => by rw [← ctlView_solo s, h, ctlView_solo], fun h => congrArg CtlView.solo h⟩

@[simp] theorem solo_hdt (s : State) : (solo s).hdt = s.hdt := rfl

@[simp] theorem solo_ctx (s : State) : (solo s).ctx = core s.ctx := rfl

@[simp] theorem solo_ctlAnswers (s : State) : (solo s).ctlAnswers = s.ctlAnswers := rfl

@[simp] theorem solo_reply (r : Reply) (s : State) :
    reply .control r (solo s) = solo (reply .control r s) := by
  simp [reply, solo, CtlView.solo, ctlView, repliesOf, eventsOf]

@[simp] theorem solo_record (e : Event) (s : State) :
    record .control e (solo s) = solo (record .control e s) := by
  simp [record, solo, CtlView.solo, ctlView, repliesOf, eventsOf]

@[simp] theorem core_initialized (c : Session) : (core c).initialized = c.initialized := rfl

@[simp] theorem core_mode (c : Session) : (core c).mode = c.mode := rfl

@[simp] theorem core_xtal (c : Session) : (core c).xtal = c.xtal := rfl

@[simp] theorem synthPrepare_core (h : Hdt) (c : Session) (mode : ReceiverMode) (ch f : Nat) :
    synthPrepare h (core c) mode ch f = synthPrepare h c mode ch f := rfl

/-- A context write that does not look at the level. -/
theorem solo_write {f : Session → Session} (hf : ∀ c, core (f c) = f (core c)) (s : State) :
    { solo s with ctx := f (core s.ctx) } = solo { s with ctx := f s.ctx } := by
  rw [← hf]
  rfl

@[simp] theorem solo_interleave (s : State) : interleave (solo s) = solo (interleave s) := by
  rw [solo_eq_iff.2 (ctlView_interleave s)]
  rfl

/-! #### Writes and delays -/

@[simp] theorem solo_wr (r : Reg) (v : Byte) (s : State) : wr r v (solo s) = solo (wr r v s) := by
  simp [wr, call, perform]

@[simp] theorem solo_wrM (r : Reg) (m v : Byte) (s : State) :
    wrM r m v (solo s) = solo (wrM r m v s) := by
  simp [wrM, call, perform]

@[simp] theorem solo_delayMs (n : Nat) (s : State) : delayMs n (solo s) = solo (delayMs n s) := by
  simp [delayMs, call, perform]

@[simp] theorem solo_delayUs (n : Nat) (s : State) : delayUs n (solo s) = solo (delayUs n s) := by
  simp [delayUs, call, perform]

@[simp] theorem solo_doAction (as : Action) (s : State) :
    doAction as (solo s) = solo (doAction as s) := by
  induction as generalizing s with
  | nil => rfl
  | cons w ws ih =>
    have hw : (call (writeOp w) (solo s)).2 = solo (call (writeOp w) s).2 := by
      cases w <;> simp [call, writeOp, perform]
    rw [doAction, hw, ih, doAction]

@[simp] theorem solo_wr24 (r : Reg3) (w : Nat) (s : State) : wr24 r w (solo s) = solo (wr24 r w s) := by
  simp [wr24]

@[simp] theorem solo_wrTuple (t : Vector Byte 7) (s : State) :
    wrTuple t (solo s) = solo (wrTuple t s) := by
  unfold wrTuple
  induction List.finRange 7 generalizing s with
  | nil => rfl
  | cons k ks ih => rw [List.foldl_cons, List.foldl_cons, solo_hdt, solo_wr, ih]

@[simp] theorem solo_softReset (mode : ReceiverMode) (s : State) :
    softReset mode (solo s) = solo (softReset mode s) := by
  simp [softReset]

@[simp] theorem solo_busLock (on : Bool) (s : State) : busLock on (solo s) = solo (busLock on s) := by
  simp [busLock]

@[simp] theorem delayMs_ctlAnswers (n : Nat) (s : State) :
    (delayMs n s).ctlAnswers = s.ctlAnswers := answers_of_ran (delayMs_ran n s)

@[simp] theorem delayUs_ctlAnswers (n : Nat) (s : State) :
    (delayUs n s).ctlAnswers = s.ctlAnswers := answers_of_ran (delayUs_ran n s)

@[simp] theorem doAction_ctlAnswers (as : Action) (s : State) :
    (doAction as s).ctlAnswers = s.ctlAnswers := answers_of_ran (doAction_ran as s)

@[simp] theorem wr24_ctlAnswers (r : Reg3) (w : Nat) (s : State) :
    (wr24 r w s).ctlAnswers = s.ctlAnswers := answers_of_ran (wr24_ran r w s)

@[simp] theorem wrTuple_ctlAnswers (t : Vector Byte 7) (s : State) :
    (wrTuple t s).ctlAnswers = s.ctlAnswers := answers_of_ran (wrTuple_ran t s)

@[simp] theorem softReset_ctlAnswers (mode : ReceiverMode) (s : State) :
    (softReset mode s).ctlAnswers = s.ctlAnswers := answers_of_ran (softReset_ran mode s)

@[simp] theorem busLock_ctlAnswers (on : Bool) (s : State) :
    (busLock on s).ctlAnswers = s.ctlAnswers := answers_of_ran (wrM_ran _ _ _ s)

/-! #### Writes of the context -/

@[simp] theorem solo_setAdcClk (v : Option AdcClockType) (s : State) :
    setAdcClk v (solo s) = solo (setAdcClk v s) := rfl

@[simp] theorem solo_updatePrevFreq (r : Except ErrorCode Unit) (f : Nat) (s : State) :
    updatePrevFreq r f (solo s) = solo (updatePrevFreq r f s) := rfl

@[simp] theorem solo_setPrevFreq (v : Nat) (s : State) :
    setPrevFreq v (solo s) = solo (setPrevFreq v s) := rfl

@[simp] theorem solo_setInitialized (s : State) :
    setInitialized (solo s) = solo (setInitialized s) := rfl

@[simp] theorem solo_setCcip (v : Bool) (s : State) : setCcip v (solo s) = solo (setCcip v s) := by
  rw [setCcip, solo_interleave]
  rfl

@[simp] theorem setCcip_ctlAnswers (v : Bool) (s : State) :
    (setCcip v s).ctlAnswers = s.ctlAnswers := interleave_ctlAnswers s

/-! #### Reads

A read needs a scripted answer. `Follows n p q` says that `q` is `p` seen by the control agent alone,
and that `n` answers are left. -/

/-- The run that ended with `q` follows the run that ended with `p`. -/
structure Follows {α : Type} (n : Nat) (p q : α × State) : Prop where
  eq : q = (p.1, solo p.2)
  left : n ≤ p.2.ctlAnswers.length

theorem Follows.here {α : Type} {n : Nat} {s : State} (a : α) (h : n ≤ s.ctlAnswers.length) :
    Follows n (a, s) (a, solo s) := ⟨rfl, h⟩

/-- Both branches of a conditional part of an operation. -/
theorem Follows.ite {α : Type} {n : Nat} {c : Prop} [Decidable c] {p p' q q' : α × State}
    (h : Follows n p q) (h' : Follows n p' q') :
    Follows n (if c then p else p') (if c then q else q') := by
  split
  · exact h
  · exact h'

section Reads

variable {n : Nat} {s : State}

theorem follows_rd (r : Reg) (h : n + 1 ≤ s.ctlAnswers.length) :
    Follows n (rd r s) (rd r (solo s)) := by
  rw [← interleave_ctlAnswers] at h
  simp only [rd, call, solo_interleave]
  generalize interleave s = u at h ⊢
  obtain ⟨b, bs, hu⟩ := List.exists_cons_of_length_pos (Nat.lt_of_lt_of_le n.succ_pos h)
  rw [hu] at h
  have hs : { solo u with ctlAnswers := bs } = solo { u with ctlAnswers := bs } := rfl
  refine ⟨?_, ?_⟩
  · simp only [perform, oracle, hu, solo_ctlAnswers, hs, solo_record]
  · simpa [perform, oracle, hu] using h

theorem follows_rdBit (l : BitLoc) (h : n + 1 ≤ s.ctlAnswers.length) :
    Follows n (rdBit l s) (rdBit l (solo s)) := by
  obtain ⟨e, hn⟩ := follows_rd l.reg h
  exact ⟨by simp only [rdBit, e], hn⟩

theorem follows_rdTxMode (h : n + 1 ≤ s.ctlAnswers.length) :
    Follows n (rdTxMode s) (rdTxMode (solo s)) := by
  obtain ⟨e, hn⟩ := follows_rd s.hdt.scan.txmode.reg h
  exact ⟨by simp only [rdTxMode, solo_hdt, e], hn⟩

theorem follows_rd16 (r : Reg2) (h : n + 2 ≤ s.ctlAnswers.length) :
    Follows n (rd16 r s) (rd16 r (solo s)) := by
  obtain ⟨e1, h1⟩ := follows_rd r.h h
  obtain ⟨e2, h2⟩ := follows_rd r.l h1
  exact ⟨by simp only [rd16, e1, e2], h2⟩

theorem follows_rd24 (r : Reg3) (h : n + 3 ≤ s.ctlAnswers.length) :
    Follows n (rd24 r s) (rd24 r (solo s)) := by
  obtain ⟨e1, h1⟩ := follows_rd r.h h
  obtain ⟨e2, h2⟩ := follows_rd r.m h1
  obtain ⟨e3, h3⟩ := follows_rd r.l h2
  exact ⟨by simp only [rd24, e1, e2, e3], h3⟩

theorem follows_pollBit (l : BitLoc) (ms k : Nat) (h : n + k ≤ s.ctlAnswers.length) :
    Follows n (pollBit l ms k s) (pollBit l ms k (solo s)) := by
  induction k generalizing s with
  | zero => exact .here _ h
  | succ k ih =>
    obtain ⟨e, h⟩ := follows_rdBit l (n := n + k) h
    have hn : n ≤ (rdBit l s).2.ctlAnswers.length := by omega
    simp only [pollBit, e, solo_delayMs]
    exact .ite (.here _ hn) (.ite (.here _ hn) (ih (by simpa using h)))

/-! #### The tune -/

theorem follows_adcVerify (clk : AdcClockType) (h : n + 10 ≤ s.ctlAnswers.length) :
    Follows n (adcVerify clk s) (adcVerify clk (solo s)) := by
  obtain ⟨e, h⟩ := follows_pollBit s.hdt.adc.lockBit adcPollMs adcPolls h
  exact ⟨by simp only [adcVerify, solo_hdt, e, solo_setAdcClk], h⟩

theorem follows_adcConfigure (clk : AdcClockType) (h : n + 10 ≤ s.ctlAnswers.length) :
    Follows n (adcConfigure clk s) (adcConfigure clk (solo s)) := by
  have hn : n ≤ s.ctlAnswers.length := by omega
  unfold adcConfigure
  refine .ite (.here _ hn) ?_
  simp only [solo_hdt, solo_ctx, core_xtal]
  split
  · exact .here _ hn
  · rename_i t _
    obtain ⟨e, h⟩ := follows_adcVerify clk (s := wrTuple t s) (by simpa using h)
    simp only [solo_wrTuple, e]
    exact .ite (.here _ h) (.here _ h)

theorem follows_adcChangeClock (clk : AdcClockType) (h : n + 10 ≤ s.ctlAnswers.length) :
    Follows n (adcChangeClock clk s) (adcChangeClock clk (solo s)) := by
  have hn : n ≤ s.ctlAnswers.length := by omega
  unfold adcChangeClock
  refine .ite (.here _ hn) ?_
  simp only [solo_hdt, solo_ctx, core_xtal]
  split
  · exact .here _ hn
  · rename_i t _
    obtain ⟨e, h⟩ := follows_adcVerify clk (s := wrTuple t (busLock false s)) (by simpa using h)
    simp only [solo_busLock, solo_wrTuple, e]
    exact .ite (.here _ (by simpa using h)) (.here _ h)

theorem follows_pllVerify (mode : ReceiverMode) (w k : Nat) (h : n + 3 * k ≤ s.ctlAnswers.length) :
    Follows n (pllVerify mode w k s) (pllVerify mode w k (solo s)) := by
  induction k generalizing s with
  | zero => exact .here _ h
  | succ k ih =>
    obtain ⟨e, h⟩ := follows_rd24 s.hdt.pll.rb (n := n + 3 * k) h
    have hn : n ≤ (rd24 s.hdt.pll.rb s).2.ctlAnswers.length := by omega
    simp only [pllVerify, pllProgram, solo_hdt, e, solo_wr24, solo_delayMs]
    exact .ite (.here _ hn) (.ite (.here _ hn) (ih (by simpa using h)))

theorem follows_pllTune (mode : ReceiverMode) (m : Nat) (h : n + 40 ≤ s.ctlAnswers.length) :
    Follows n (pllTune mode m s) (pllTune mode m (solo s)) := by
  obtain ⟨w, hw⟩ : ∃ w, w = pllWord m (forMode s.hdt.pll.sel mode) := ⟨_, rfl⟩
  obtain ⟨e1, h1⟩ := follows_pllVerify mode w pllAttempts (n := n + 10)
    (s := wr24 s.hdt.pll.reg w s) (by rwa [wr24_ctlAnswers])
  simp only [pllTune, pllProgram, pllLockWait, solo_hdt, ← hw, solo_wr24, e1]
  generalize pllVerify mode w pllAttempts (wr24 s.hdt.pll.reg w s) = p at h1 ⊢
  obtain ⟨e2, h2⟩ := follows_pollBit p.2.hdt.pll.lockBit lockRetryMs lockPolls h1
  simp only [e2, solo_softReset]
  exact .ite (.ite (.here _ (by simpa using h2)) (.here _ h2)) (.here _ (by omega))

theorem follows_synthSetFrequency (mode : ReceiverMode) (ch f : Nat)
    (h : n + 50 ≤ s.ctlAnswers.length) :
    Follows n (synthSetFrequency mode ch f s) (synthSetFrequency mode ch f (solo s)) := by
  simp only [synthSetFrequency, solo_hdt, solo_ctx, synthPrepare_core]
  split
  · exact .here _ (by omega)
  · rename_i clk m _
    obtain ⟨e, h⟩ := follows_adcConfigure clk (n := n + 40) h
    rw [e]
    generalize adcConfigure clk s = p at h ⊢
    obtain ⟨r, u⟩ := p
    cases r with
    | error e => exact .here _ (by dsimp only at h; omega)
    | ok _ => exact follows_pllTune mode m h

/-! #### The scanner -/

theorem follows_lockWait (k : Nat) (h : n + k ≤ s.ctlAnswers.length) :
    Follows n (lockWait k s) (lockWait k (solo s)) := by
  induction k generalizing s with
  | zero => exact .here _ h
  | succ k ih =>
    obtain ⟨e, h⟩ := follows_rdBit (ofdmLockBit s.hdt) (n := n + k) (s := delayMs phaseMs s)
      (by rwa [delayMs_ctlAnswers])
    simp only [lockWait, solo_hdt, solo_delayMs, e]
    exact .ite (.here _ (by omega)) (ih h)

theorem follows_dcCheck (tm : Fin 4) (g : Nat) (h : n + 4 ≤ s.ctlAnswers.length) :
    Follows n (dcCheck tm g s) (dcCheck tm g (solo s)) := by
  obtain ⟨e1, h1⟩ := follows_rd16 s.hdt.scan.dcI (n := n + 2) h
  obtain ⟨e2, h2⟩ := follows_rd16 (rd16 s.hdt.scan.dcI s).2.hdt.scan.dcQ h1
  simp only [dcCheck, solo_hdt, e1, e2]
  exact .ite (.here _ h2) (.here _ (by omega))

theorem follows_phaseG (tm : Fin 4) (g limit k unl : Nat)
    (h : n + 7 * k + 50 ≤ s.ctlAnswers.length) :
    Follows n (phaseG tm g limit k unl s) (phaseG tm g limit k unl (solo s)) := by
  induction k generalizing unl s with
  | zero => exact .here _ (by omega)
  | succ k ih =>
    obtain ⟨e1, h1⟩ := follows_rdTxMode (n := n + 7 * k + 50 + 6) (s := delayMs phaseMs s)
      (by simpa using by omega)
    simp only [phaseG, solo_delayMs, e1]
    generalize rdTxMode (delayMs phaseMs s) = p at h1 ⊢
    obtain ⟨e2, h2⟩ := follows_dcCheck tm g (n := n + 7 * k + 50 + 2) h1
    simp only [e2]
    generalize dcCheck tm g p.2 = q at h2 ⊢
    obtain ⟨e3, h3⟩ := follows_rd q.2.hdt.scan.fsmStateReg (n := n + 7 * k + 50 + 1) h2
    simp only [solo_hdt, e3]
    generalize rd q.2.hdt.scan.fsmStateReg q.2 = u at h3 ⊢
    obtain ⟨e4, h4⟩ := follows_rd u.2.hdt.scan.coarseCntReg (n := n + 7 * k + 50) h3
    simp only [e4]
    exact .ite (.here _ (by omega)) (.ite (.here _ (by omega)) (.ite (.here _ (by omega))
      (.ite (follows_lockWait _ (by simp only [lockwaitIters]; omega)) (ih _ h4))))

theorem follows_phaseF (tm : Fin 4) (g k i bad : Nat) (h : n + 3 * k ≤ s.ctlAnswers.length) :
    Follows n (phaseF tm g k i bad s) (phaseF tm g k i bad (solo s)) := by
  induction k generalizing i bad s with
  | zero => exact .here _ h
  | succ k ih =>
    obtain ⟨e1, h1⟩ := follows_rd16 s.hdt.scan.nullLen (n := n + 3 * k + 1)
      (s := delayMs phaseMs s) (by rwa [delayMs_ctlAnswers])
    simp only [phaseF, solo_delayMs, solo_hdt, e1]
    generalize rd16 s.hdt.scan.nullLen (delayMs phaseMs s) = p at h1 ⊢
    obtain ⟨e2, h2⟩ := follows_rdTxMode h1
    have hn : n ≤ (rdTxMode p.2).2.ctlAnswers.length := by omega
    simp only [e2, solo_hdt]
    exact .ite (.here _ hn) (.ite (.here _ hn) (.ite (.here _ hn) (ih _ _ h2)))

/-- Four reads, at most 16 iterations of phase f and 100 of phase g, and the lock wait. -/
theorem follows_classify (pw : Nat) (h : n + 802 ≤ s.ctlAnswers.length) :
    Follows n (classify pw s) (classify pw (solo s)) := by
  obtain ⟨e1, h1⟩ := follows_rd s.hdt.scan.preagcReg h
  simp only [classify, solo_hdt, e1]
  generalize rd s.hdt.scan.preagcReg s = p at h1 ⊢
  obtain ⟨e2, h2⟩ := follows_rdTxMode h1
  simp only [e2]
  generalize rdTxMode p.2 = q at h2 ⊢
  obtain ⟨e3, h3⟩ := follows_rd16 q.2.hdt.scan.coarseFreq (n := n + 798) h2
  simp only [solo_hdt, e3]
  refine .ite ?_ (.here _ (by omega))
  obtain ⟨e4, h4⟩ := follows_phaseF q.1 p.1.toNat fIters 1 0 (n := n + 750) h3
  rw [e4]
  generalize phaseF q.1 p.1.toNat fIters 1 0 _ = u at h4 ⊢
  obtain ⟨r, u⟩ := u
  cases r with
  | none => exact .here _ (by dsimp only at h4; omega)
  | some bad => exact follows_phaseG q.1 p.1.toNat _ gIters 0 h4

theorem follows_scanPoll (k : Nat) (h : n + 3 * k + 802 ≤ s.ctlAnswers.length) :
    Follows n (scanPoll k s) (scanPoll k (solo s)) := by
  induction k generalizing s with
  | zero => exact .here _ (by omega)
  | succ k ih =>
    obtain ⟨e1, h1⟩ := follows_rd s.hdt.scan.doneReg (n := n + 3 * k + 802 + 2) (by omega)
    simp only [scanPoll, solo_hdt, e1]
    generalize rd s.hdt.scan.doneReg s = p at h1 ⊢
    obtain ⟨e2, h2⟩ := follows_rd16 p.2.hdt.scan.pwr h1
    simp only [solo_hdt, e2, solo_delayUs]
    exact .ite (.here _ (by omega)) (.ite (follows_classify _ (by omega)) (ih (by simpa using h2)))

/-- A tune, and the whole outer poll. -/
theorem follows_scanTuned (f : Nat) (h : n + 30852 ≤ s.ctlAnswers.length) :
    Follows n (scanTuned f s) (scanTuned f (solo s)) := by
  obtain ⟨e, h⟩ := follows_synthSetFrequency s.ctx.mode 0 f (n := n + 30802) h
  simp only [scanTuned, solo_ctx, core_mode, e]
  generalize synthSetFrequency s.ctx.mode 0 f s = p at h ⊢
  obtain ⟨r, u⟩ := p
  cases r with
  | error e => exact .here _ (by dsimp only at h; omega)
  | ok _ =>
    simp only [solo_softReset]
    exact follows_scanPoll scanPolls (by simpa [scanPolls] using h)

end Reads

/-! #### The allocator reads no register -/

/-- A fault stays, and a next state is seen by the control agent alone. -/
def soloOk : Except Fault State → Except Fault State
  | .ok t => .ok (solo t)
  | .error x => .error x

@[simp] theorem core_regMask (c : Session) : (core c).regMask = c.regMask := rfl

@[simp] theorem core_prevFreq (c : Session) : (core c).prevFreq = c.prevFreq := rfl

@[simp] theorem core_streamSuspended (c : Session) :
    (core c).streamSuspended = c.streamSuspended := rfl

@[simp] theorem entry_core (c : Session) (e : Nat) : entry (core c) e = entry c e := rfl

@[simp] theorem entryOf_core (h : Hdt) (c : Session) (id : Nat) :
    entryOf h (core c) id = entryOf h c id := rfl

@[simp] theorem registered_core (c : Session) (id : Nat) :
    registered (core c) id = registered c id := rfl

@[simp] theorem groupEmpty_core (h : Hdt) (c : Session) (g : Group) :
    groupEmpty h (core c) g = groupEmpty h c g := rfl

@[simp] theorem groupFull_core (h : Hdt) (c : Session) (g : Group) :
    groupFull h (core c) g = groupFull h c g := rfl

@[simp] theorem freeSlot_core (h : Hdt) (c : Session) (g : Group) :
    freeSlot h (core c) g = freeSlot h c g := rfl

@[simp] theorem freeEntry_core (h : Hdt) (c : Session) : freeEntry h (core c) = freeEntry h c := rfl

theorem solo_bind (id : Nat) (svc : ServiceType) (thr : Nat) (s : State) :
    bind id svc thr (solo s) = soloOk (bind id svc thr s) := by
  simp only [bind, solo_hdt, solo_ctx, freeSlot_core, freeEntry_core]
  split
  · rfl
  · rfl
  · rename_i slot e _ _
    simp only [groupEmpty_core, solo_doAction, solo_hdt]
    split <;> simp only [solo_doAction, solo_hdt] <;>
      exact congrArg Except.ok (solo_write (core_bindStep e ⟨id, slot, svc, thr⟩) _)

theorem solo_releaseGroup (g : Group) (s : State) :
    releaseGroup g (solo s) = solo (releaseGroup g s) := by
  simp only [releaseGroup, solo_hdt, solo_ctx, groupEmpty_core, solo_doAction]
  split <;> rfl

theorem solo_unbind (id : Nat) (s : State) : unbind id (solo s) = soloOk (unbind id s) := by
  simp only [unbind, solo_hdt, solo_ctx, entryOf_core]
  split
  · rfl
  · simp only [entry_core]
    split
    · rfl
    · rename_i e _ _ b _
      rw [solo_doAction]
      have hw := solo_write (core_unbindStep e b) (doAction (actSlotDisable s.hdt b.slot) s)
      exact congrArg Except.ok ((congrArg (releaseGroup _) hw).trans (solo_releaseGroup _ _))

theorem solo_closeIds (ids : List Nat) (s : State) :
    closeIds ids (solo s) = soloOk (closeIds ids s) := by
  induction ids generalizing s with
  | nil => rfl
  | cons id ids ih =>
    simp only [closeIds, solo_ctx, registered_core, solo_unbind, ih]
    split
    · cases unbind id s with
      | error x => rfl
      | ok t => exact ih t
    · rfl

theorem solo_evict (s : State) : evict (solo s) = soloOk (evict s) := by
  simp only [evict, solo_ctx, core_regMask, entry_core, solo_unbind]
  split
  · rfl
  · split <;> rfl

theorem solo_restoreStream (s : State) : restoreStream (solo s) = solo (restoreStream s) := by
  simp only [restoreStream, solo_hdt, solo_ctx, core_streamSuspended, solo_doAction]
  split <;> rfl

theorem releaseGroup_ctlAnswers (g : Group) (s : State) :
    (releaseGroup g s).ctlAnswers = s.ctlAnswers := by
  unfold releaseGroup
  split <;> simp

theorem unbind_ctlAnswers (id : Nat) (s : State) :
    OkMeets (fun t => t.ctlAnswers = s.ctlAnswers) (unbind id s) := by
  unfold unbind
  split
  · exact okMeets_error _
  · split
    · exact okMeets_error _
    · exact okMeets_ok (by simp [releaseGroup_ctlAnswers])

theorem closeIds_ctlAnswers (ids : List Nat) (s : State) :
    OkMeets (fun t => t.ctlAnswers = s.ctlAnswers) (closeIds ids s) := by
  induction ids generalizing s with
  | nil => exact okMeets_ok rfl
  | cons id ids ih =>
    have hu := unbind_ctlAnswers id s
    unfold closeIds
    split
    · split
      · exact okMeets_error _
      · rename_i u hok
        exact fun t ht => (ih u t ht).trans (hu u hok)
    · exact ih s

/-! #### Commands -/

/-- A stop stays, and a next state is seen by the control agent alone. -/
def soloNext : Out → Out
  | .next t => .next (solo t)
  | .fault x => .fault x
  | .refused r => .refused r

@[simp] theorem solo_returnOk (s : State) : returnOk (solo s) = soloNext (returnOk s) := by
  simp [returnOk, soloNext]

@[simp] theorem solo_raiseErr (e : ErrorCode) (s : State) :
    raiseErr e (solo s) = soloNext (raiseErr e s) := by
  simp [raiseErr, soloNext]

@[simp] theorem solo_finish (r : Except ErrorCode Unit) (s : State) :
    finish r (solo s) = soloNext (finish r s) := by
  cases r <;> simp [finish]

theorem solo_returnVerdict (v : ScanVerdict) (f : Nat) (s : State) :
    returnVerdict v f (solo s) = soloNext (returnVerdict v f s) := by
  simp [returnVerdict, soloNext]

theorem solo_underHdt {s : State} {k : State → Out} (h : k (solo s) = soloNext (k s)) :
    underHdt (solo s) k = soloNext (underHdt s k) := by
  simp only [underHdt, solo_hdt, h]
  split <;> rfl

theorem solo_inSession {s : State} {k : State → Out} (h : k (solo s) = soloNext (k s)) :
    inSession (solo s) k = soloNext (inSession s k) := by
  simp only [inSession, solo_ctx, core_initialized, solo_underHdt h]
  split <;> rfl

theorem solo_bindAndReturn (id : Nat) (svc : ServiceType) (thr : Nat) {k : State → State}
    (hk : ∀ t, k (solo t) = solo (k t)) (s : State) :
    bindAndReturn id svc thr k (solo s) = soloNext (bindAndReturn id svc thr k s) := by
  simp only [bindAndReturn, solo_bind]
  cases bind id svc thr s with
  | error x => rfl
  | ok t => simp only [soloOk, solo_restoreStream, hk, solo_returnOk]

theorem solo_openTuned (id : Nat) (svc : ServiceType) (thr : Nat) (s : State) :
    openTuned id svc thr (solo s) = soloNext (openTuned id svc thr s) := by
  have hb := fun t => solo_bindAndReturn id svc thr (k := fun s => s) (fun _ => rfl) t
  simp only [openTuned, solo_hdt, solo_ctx, registered_core, groupFull_core, solo_restoreStream,
    solo_returnOk, solo_raiseErr, solo_evict, hb]
  split
  · rfl
  · split
    · split <;> rfl
    · cases evict s with
      | error x => rfl
      | ok t => exact hb t

theorem solo_openRetune (f id : Nat) (svc : ServiceType) (thr : Nat) {s : State}
    (h : 50 ≤ s.ctlAnswers.length) :
    openRetune f id svc thr (solo s) = soloNext (openRetune f id svc thr s) := by
  have ha := closeIds_ctlAnswers (List.range numIds) (setCcip true s)
  simp only [openRetune, closeAllBindings, solo_setCcip, solo_closeIds]
  generalize closeIds (List.range numIds) (setCcip true s) = r at ha ⊢
  cases r with
  | error x => rfl
  | ok t =>
    rw [setCcip_ctlAnswers] at ha
    obtain ⟨e, -⟩ := follows_synthSetFrequency t.ctx.mode 0 f (n := 0) (s := t)
      (by rw [ha t rfl]; omega)
    simp only [soloOk, solo_ctx, core_mode, e, solo_updatePrevFreq]
    generalize synthSetFrequency t.ctx.mode 0 f t = p
    obtain ⟨r, u⟩ := p
    cases r with
    | error x => simp
    | ok _ => exact solo_bindAndReturn id svc thr (solo_setCcip false) _

/-- `INIT` from the reset of the context on (R400). -/
def initFromReset (mode : ReceiverMode) (s : State) : Out :=
  let s := doAction (forMode s.hdt.initSeq mode) s
  match adcConfigure s.hdt.adc.clkInit s with
  | (.error e, s) => raiseErr e s
  | (.ok _, s) => returnOk (setInitialized s)

theorem execInit_eq (mode : ReceiverMode) (s : State) :
    execInit mode s = underHdt s fun s =>
      if mode ∈ s.hdt.supportedModes then initFromReset mode (initStart mode s)
      else raiseErr .invalidCountryBand s := rfl

theorem solo_initStart (mode : ReceiverMode) (s : State) :
    initStart mode (solo s) = solo (initStart mode s) := by
  rw [initStart, solo_interleave]
  rfl

theorem solo_initFromReset (mode : ReceiverMode) {s : State} (h : 10 ≤ s.ctlAnswers.length) :
    initFromReset mode (solo s) = soloNext (initFromReset mode s) := by
  simp only [initFromReset, solo_hdt, solo_doAction]
  generalize hu : doAction (forMode s.hdt.initSeq mode) s = u
  obtain ⟨e, -⟩ := follows_adcConfigure u.hdt.adc.clkInit (n := 0) (s := u)
    (by rw [← hu, doAction_ctlAnswers]; omega)
  rw [e]
  generalize adcConfigure u.hdt.adc.clkInit u = p
  obtain ⟨r, t⟩ := p
  cases r with
  | error x => exact solo_raiseErr x t
  | ok _ => exact solo_returnOk (setInitialized t)

theorem solo_execInit (mode : ReceiverMode) {s : State} (h : 10 ≤ s.ctlAnswers.length) :
    execInit mode (solo s) = soloNext (execInit mode s) := by
  rw [execInit_eq, execInit_eq]
  refine solo_underHdt ?_
  rw [solo_initStart, solo_initFromReset mode (by simpa [initStart] using h), solo_raiseErr, solo_hdt]
  split <;> rfl

theorem solo_execScanFreq (f : Nat) {s : State} (h : 30852 ≤ s.ctlAnswers.length) :
    execScanFreq f (solo s) = soloNext (execScanFreq f s) := by
  refine solo_inSession ?_
  have ha := closeIds_ctlAnswers (List.range numIds) (setCcip true s)
  simp only [solo_ctx, core_mode, closeAllBindings, solo_setCcip, solo_closeIds, solo_returnVerdict]
  split
  · rfl
  · generalize closeIds (List.range numIds) (setCcip true s) = r at ha ⊢
    cases r with
    | error x => rfl
    | ok t =>
      rw [setCcip_ctlAnswers] at ha
      obtain ⟨e, -⟩ := follows_scanTuned f (n := 0) (s := t) (by rw [ha t rfl]; omega)
      simp only [soloOk, e, solo_setCcip, solo_returnVerdict]

/-- A control command whose reads are all scripted; a scan reads the most, 30852 bytes at most. -/
theorem solo_exec {i : Instr} (hi : getterCmd i = none) {s : State}
    (h : 40000 ≤ s.ctlAnswers.length) : exec i (solo s) = soloNext (exec i s) := by
  cases i with
  | init mode => exact solo_execInit mode (by omega)
  | adcConfigure mode clk =>
    refine solo_inSession ?_
    obtain ⟨e, -⟩ := follows_adcConfigure clk (n := 0) (s := s) (by omega)
    rw [e, solo_finish]
  | adcChangeClock mode clk =>
    refine solo_inSession ?_
    obtain ⟨e, -⟩ := follows_adcChangeClock clk (n := 0) (s := s) (by omega)
    rw [e, solo_finish]
  | setFreq mode ch f =>
    refine solo_inSession ?_
    obtain ⟨e, -⟩ := follows_synthSetFrequency mode ch f (n := 0) (s := setCcip true s)
      (by rw [setCcip_ctlAnswers]; omega)
    simp only [solo_setCcip, e, solo_updatePrevFreq, solo_finish]
  | scanFreq f => exact solo_execScanFreq f (by omega)
  | openSubch f id svc thr =>
    refine solo_inSession ?_
    simp only [solo_hdt, solo_ctx, core_mode, core_prevFreq, solo_raiseErr, solo_openTuned]
    rw [solo_openRetune f id svc thr (by omega)]
    split_ifs <;> rfl
  | closeSubch id =>
    refine solo_inSession ?_
    simp only [solo_ctx, registered_core, solo_raiseErr, solo_returnOk, solo_unbind]
    split
    · rfl
    · split
      · cases unbind id s with
        | error x => rfl
        | ok t => exact solo_returnOk t
      · rfl
  | closeAllSubch =>
    refine solo_inSession ?_
    simp only [closeAllBindings, solo_closeIds]
    cases closeIds (List.range numIds) s with
    | error x => rfl
    | ok t => exact solo_returnOk t
  | disableStreamOut =>
    refine solo_inSession ?_
    simp only [solo_hdt, solo_doAction]
    exact solo_returnOk { doAction s.hdt.alloc.streamOff s with
      ctx := { (doAction s.hdt.alloc.streamOff s).ctx with streamSuspended := true } }
  | getPrevFreq => exact solo_inSession (by simp [soloNext])
  | _ => cases hi

/-- Settles O60: equal views are equal `solo` states, and these decide the outcome. -/
theorem controlOutcomeIgnoresGetters : Obligations.ControlOutcomeIgnoresGetters := by
  intro i s s' hi hv hn
  have hc : getterCmd i = none := by
    cases hc : getterCmd i with
    | none => rfl
    | some c => simp [agentOf, hc] at hi
  have hn' : 40000 ≤ s'.ctlAnswers.length := by rwa [← answers_of_ctlView hv]
  have h : soloNext (exec i s) = soloNext (exec i s') := by
    rw [← solo_exec hc hn, ← solo_exec hc hn', solo_eq_iff.2 hv]
  generalize exec i s = o at h ⊢
  generalize exec i s' = o' at h ⊢
  rcases o with t | x | r <;> rcases o' with t' | x' | r' <;>
    simp only [soloNext, reduceCtorEq] at h
  · exact solo_eq_iff.1 (Host.Outcome.next.inj h)
  · exact Host.Outcome.fault.inj h
  · exact Host.Outcome.refused.inj h

end Sys2Proof.Machine

namespace Sys2Proof

/-! ### Enumerator bytes (R310 to R312) -/

theorem ReceiverMode.ofByte_eq_some_iff {b : Byte} {m : ReceiverMode} :
    ReceiverMode.ofByte b = some m ↔ b = m.code := by
  constructor
  · intro h
    unfold ReceiverMode.ofByte at h
    split at h <;> cases h <;> exact BitVec.eq_of_toNat_eq ‹_›
  · rintro rfl
    cases m <;> rfl

theorem AdcClockType.ofByte_eq_some_iff {b : Byte} {c : AdcClockType} :
    AdcClockType.ofByte b = some c ↔ b = c.code := by
  constructor
  · intro h
    unfold AdcClockType.ofByte at h
    split at h <;> cases h <;> exact BitVec.eq_of_toNat_eq ‹_›
  · rintro rfl
    cases c <;> rfl

theorem ServiceType.ofByte_eq_some_iff {b : Byte} {v : ServiceType} :
    ServiceType.ofByte b = some v ↔ b = v.code := by
  constructor
  · intro h
    unfold ServiceType.ofByte at h
    split at h <;> cases h <;> exact BitVec.eq_of_toNat_eq ‹_›
  · rintro rfl
    cases v <;> rfl

@[simp] theorem ReceiverMode.ofByte_code (m : ReceiverMode) : ReceiverMode.ofByte m.code = some m :=
  ReceiverMode.ofByte_eq_some_iff.2 rfl

@[simp] theorem AdcClockType.ofByte_code (c : AdcClockType) : AdcClockType.ofByte c.code = some c :=
  AdcClockType.ofByte_eq_some_iff.2 rfl

@[simp] theorem ServiceType.ofByte_code (v : ServiceType) : ServiceType.ofByte v.code = some v :=
  ServiceType.ofByte_eq_some_iff.2 rfl

theorem ReceiverMode.ofByte_eq_none_iff {b : Byte} : ReceiverMode.ofByte b = none ↔ 5 ≤ b.toNat := by
  unfold ReceiverMode.ofByte
  split <;> grind

theorem AdcClockType.ofByte_eq_none_iff {b : Byte} : AdcClockType.ofByte b = none ↔ 4 ≤ b.toNat := by
  unfold AdcClockType.ofByte
  split <;> grind

theorem ServiceType.ofByte_eq_none_iff {b : Byte} : ServiceType.ofByte b = none ↔ 3 ≤ b.toNat := by
  unfold ServiceType.ofByte
  split <;> grind

/-! ### Big-endian operands (R300, R303) -/

@[simp] theorem length_beBytes (n v : Nat) : (beBytes n v).length = n := by
  induction n with
  | zero => rfl
  | succ n ih => rw [beBytes, List.length_cons, ih]

theorem beNat_cons (b : Byte) (bs : List Byte) :
    beNat (b :: bs) = b.toNat * 256 ^ bs.length + beNat bs := by
  have shift : ∀ (cs : List Byte) (a : Nat),
      cs.foldl (fun n b => n * 256 + b.toNat) a = a * 256 ^ cs.length + beNat cs := by
    intro cs
    induction cs with
    | nil => simp [beNat]
    | cons c cs ih =>
      intro a
      rw [beNat, List.foldl_cons, List.foldl_cons, ih, ih, List.length_cons]
      ring
  rw [← shift bs b.toNat]
  simp [beNat]

theorem beNat_lt (bs : List Byte) : beNat bs < 256 ^ bs.length := by
  induction bs with
  | nil => exact Nat.one_pos
  | cons b bs ih =>
    rw [beNat_cons, List.length_cons, pow_succ']
    nlinarith [b.isLt]

/-- The bytes of a natural spell its value modulo what they can hold. -/
theorem beNat_beBytes (n v : Nat) : beNat (beBytes n v) = v % 256 ^ n := by
  induction n with
  | zero => simp [beBytes, beNat, Nat.mod_one]
  | succ n ih =>
    rw [beBytes, beNat_cons, ih, length_beBytes, BitVec.toNat_ofNat, Nat.mod_pow_succ (b := 256)]
    ring

/-- The low bytes of a natural do not see what stands above them. -/
theorem beBytes_add_mul (n a v : Nat) : beBytes n (a * 256 ^ n + v) = beBytes n v := by
  induction n generalizing a with
  | zero => rfl
  | succ n ih =>
    have hsplit : a * 256 ^ (n + 1) + v = v + 256 ^ n * (a * 256) := by ring
    have hbyte : BitVec.ofNat 8 (v / 256 ^ n + a * 256) = BitVec.ofNat 8 (v / 256 ^ n) :=
      BitVec.eq_of_toNat_eq (by simp)
    rw [beBytes, beBytes, hsplit, Nat.add_mul_div_left _ _ (Nat.pow_pos (by decide)), hbyte,
      ← ih (a * 256)]
    congr 2
    ring

theorem beBytes_beNat (bs : List Byte) : beBytes bs.length (beNat bs) = bs := by
  induction bs with
  | nil => rfl
  | cons b bs ih =>
    have hdiv : (b.toNat * 256 ^ bs.length + beNat bs) / 256 ^ bs.length = b.toNat := by
      rw [Nat.mul_comm, Nat.mul_add_div (Nat.pow_pos (by decide)), Nat.div_eq_of_lt (beNat_lt bs),
        Nat.add_zero]
    rw [List.length_cons, beBytes, beNat_cons, hdiv, beBytes_add_mul, ih]
    simp

/-! ### The formats (R301) -/

theorem beBytes_beNat_four (b3 b2 b1 b0 : Byte) :
    beBytes 4 (beNat [b3, b2, b1, b0]) = [b3, b2, b1, b0] :=
  beBytes_beNat [b3, b2, b1, b0]

theorem beBytes_beNat_two (b1 b0 : Byte) : beBytes 2 (beNat [b1, b0]) = [b1, b0] :=
  beBytes_beNat [b1, b0]

/-- A 32-bit operand is four bytes that spell it. -/
theorem beBytes_four {v : Nat} (hv : v < 2 ^ 32) :
    ∃ b3 b2 b1 b0, beBytes 4 v = [b3, b2, b1, b0] ∧ beNat [b3, b2, b1, b0] = v :=
  ⟨_, _, _, _, rfl, (beNat_beBytes 4 v).trans (Nat.mod_eq_of_lt hv)⟩

/-- A 16-bit operand is two bytes that spell it. -/
theorem beBytes_two {v : Nat} (hv : v < 2 ^ 16) :
    ∃ b1 b0, beBytes 2 v = [b1, b0] ∧ beNat [b1, b0] = v :=
  ⟨_, _, rfl, (beNat_beBytes 2 v).trans (Nat.mod_eq_of_lt hv)⟩

section Formats

variable {bs rest : List Byte} {i : Instr}

theorem decodeFM_eq_ok_iff {mk : ReceiverMode → Instr} :
    decodeFM mk bs = .ok (i, rest) ↔ ∃ mode, mk mode = i ∧ mode.code :: rest = bs := by
  constructor
  · intro h
    unfold decodeFM at h
    split at h
    · split at h <;> cases h
      next hm => exact ⟨_, rfl, by rw [← ReceiverMode.ofByte_eq_some_iff.1 hm]⟩
    · cases h
  · rintro ⟨mode, rfl, rfl⟩
    simp [decodeFM]

theorem decodeFMC_eq_ok_iff {mk : ReceiverMode → AdcClockType → Instr} :
    decodeFMC mk bs = .ok (i, rest)
      ↔ ∃ mode clk, mk mode clk = i ∧ mode.code :: clk.code :: rest = bs := by
  constructor
  · intro h
    unfold decodeFMC at h
    split at h
    · split at h <;> cases h
      next hm hc =>
        exact ⟨_, _, rfl, by
          rw [← ReceiverMode.ofByte_eq_some_iff.1 hm, ← AdcClockType.ofByte_eq_some_iff.1 hc]⟩
    · cases h
  · rintro ⟨mode, clk, rfl, rfl⟩
    simp [decodeFMC]

theorem decodeFSF_eq_ok_iff {mk : ReceiverMode → Nat → Nat → Instr} :
    decodeFSF mk bs = .ok (i, rest)
      ↔ ∃ mode ch f, ch < 2 ^ 8 ∧ f < 2 ^ 32 ∧ mk mode ch f = i
        ∧ mode.code :: BitVec.ofNat 8 ch :: (beBytes 4 f ++ rest) = bs := by
  constructor
  · intro h
    unfold decodeFSF at h
    split at h
    · split at h <;> cases h
      next hm =>
        refine ⟨_, _, _, BitVec.isLt _, Machine.beNat4_lt _ _ _ _, rfl, ?_⟩
        simp [← ReceiverMode.ofByte_eq_some_iff.1 hm, beBytes_beNat_four]
    · cases h
  · rintro ⟨mode, ch, f, hc, hf, rfl, rfl⟩
    obtain ⟨b3, b2, b1, b0, hb, hv⟩ := beBytes_four hf
    simp [hb, decodeFSF, hv, Nat.mod_eq_of_lt (b := 256) hc]

theorem decodeFF_eq_ok_iff {mk : Nat → Instr} :
    decodeFF mk bs = .ok (i, rest) ↔ ∃ f, f < 2 ^ 32 ∧ mk f = i ∧ beBytes 4 f ++ rest = bs := by
  constructor
  · intro h
    unfold decodeFF at h
    split at h <;> cases h
    exact ⟨_, Machine.beNat4_lt _ _ _ _, rfl, by simp [beBytes_beNat_four]⟩
  · rintro ⟨f, hf, rfl, rfl⟩
    obtain ⟨b3, b2, b1, b0, hb, hv⟩ := beBytes_four hf
    simp [hb, decodeFF, hv]

theorem decodeFOPEN_eq_ok_iff {mk : Nat → Nat → ServiceType → Nat → Instr} :
    decodeFOPEN mk bs = .ok (i, rest)
      ↔ ∃ f id svc thr, f < 2 ^ 32 ∧ id < 2 ^ 8 ∧ thr < 2 ^ 32 ∧ mk f id svc thr = i
        ∧ beBytes 4 f ++ BitVec.ofNat 8 id :: svc.code :: (beBytes 4 thr ++ rest) = bs := by
  constructor
  · intro h
    unfold decodeFOPEN at h
    split at h
    · split at h <;> cases h
      next hs =>
        refine ⟨_, _, _, _, Machine.beNat4_lt _ _ _ _, BitVec.isLt _, Machine.beNat4_lt _ _ _ _,
          rfl, ?_⟩
        simp [← ServiceType.ofByte_eq_some_iff.1 hs, beBytes_beNat_four]
    · cases h
  · rintro ⟨f, id, svc, thr, hf, hi, ht, rfl, rfl⟩
    obtain ⟨b3, b2, b1, b0, hb, hv⟩ := beBytes_four hf
    obtain ⟨c3, c2, c1, c0, hc, hw⟩ := beBytes_four ht
    simp [hb, hc, decodeFOPEN, hv, hw, Nat.mod_eq_of_lt (b := 256) hi]

theorem decodeFID_eq_ok_iff {mk : Nat → Instr} :
    decodeFID mk bs = .ok (i, rest)
      ↔ ∃ id, id < 2 ^ 8 ∧ mk id = i ∧ BitVec.ofNat 8 id :: rest = bs := by
  constructor
  · intro h
    unfold decodeFID at h
    split at h <;> cases h
    exact ⟨_, BitVec.isLt _, rfl, by simp⟩
  · rintro ⟨id, hi, rfl, rfl⟩
    simp [decodeFID, Nat.mod_eq_of_lt (b := 256) hi]

theorem decodeFCER_eq_ok_iff {mk : Nat → Instr} :
    decodeFCER mk bs = .ok (i, rest)
      ↔ ∃ cer, cer < 2 ^ 16 ∧ mk cer = i ∧ beBytes 2 cer ++ rest = bs := by
  constructor
  · intro h
    unfold decodeFCER at h
    split at h <;> cases h
    exact ⟨_, Machine.beNat2_lt _ _, rfl, by simp [beBytes_beNat_two]⟩
  · rintro ⟨cer, hc, rfl, rfl⟩
    obtain ⟨b1, b0, hb, hv⟩ := beBytes_two hc
    simp [hb, decodeFCER, hv]

end Formats

/-! ### Frames -/

/-- Settles O1: the opcode selects the format, whose `eq_ok_iff` gives the operands back. -/
theorem decodeEncodeRoundTrip : Obligations.DecodeEncodeRoundTrip := by
  intro i rest hw
  cases i <;> simp only [Instr.wellFormed, Bool.and_eq_true, decide_eq_true_eq] at hw
  case init mode => exact decodeFM_eq_ok_iff.2 ⟨mode, rfl, rfl⟩
  case adcConfigure mode clk => exact decodeFMC_eq_ok_iff.2 ⟨mode, clk, rfl, rfl⟩
  case adcChangeClock mode clk => exact decodeFMC_eq_ok_iff.2 ⟨mode, clk, rfl, rfl⟩
  case setFreq mode ch f => exact decodeFSF_eq_ok_iff.2 ⟨mode, ch, f, hw.1, hw.2, rfl, rfl⟩
  case scanFreq f => exact decodeFF_eq_ok_iff.2 ⟨f, hw, rfl, rfl⟩
  case openSubch f id svc thr =>
    obtain ⟨⟨hf, hi⟩, ht⟩ := hw
    exact decodeFOPEN_eq_ok_iff.2 ⟨f, id, svc, thr, hf, hi, ht, rfl, rfl⟩
  case closeSubch id => exact decodeFID_eq_ok_iff.2 ⟨id, hw, rfl, rfl⟩
  case getAntennaLevel cer => exact decodeFCER_eq_ok_iff.2 ⟨cer, hw, rfl, rfl⟩
  all_goals rfl

/-- The frame of what decodes is the bytes read: each opcode's format, read backwards. -/
theorem encode_of_decode {bs rest : List Byte} {i : Instr} (h : decode bs = .ok (i, rest)) :
    encode i ++ rest = bs := by
  unfold decode at h
  split at h
  · cases h
  · next op tail =>
    have hop : op = BitVec.ofNat 8 op.toNat := by simp
    generalize op.toNat = n at h hop
    split at h <;> subst hop
    case h_1 => obtain ⟨_, rfl, rfl⟩ := decodeFM_eq_ok_iff.1 h; rfl
    case h_2 | h_3 => obtain ⟨_, _, rfl, rfl⟩ := decodeFMC_eq_ok_iff.1 h; rfl
    case h_4 => obtain ⟨_, _, _, -, -, rfl, rfl⟩ := decodeFSF_eq_ok_iff.1 h; rfl
    case h_5 => obtain ⟨_, -, rfl, rfl⟩ := decodeFF_eq_ok_iff.1 h; rfl
    case h_6 => obtain ⟨_, _, _, _, -, -, -, rfl, rfl⟩ := decodeFOPEN_eq_ok_iff.1 h; rfl
    case h_7 => obtain ⟨_, -, rfl, rfl⟩ := decodeFID_eq_ok_iff.1 h; rfl
    case h_16 => obtain ⟨_, -, rfl, rfl⟩ := decodeFCER_eq_ok_iff.1 h; rfl
    case h_18 => cases h
    all_goals cases h; rfl

/-- Settles O2: `decode_wellFormed` gives the widths, `encode_of_decode` the bytes. -/
theorem encodeDecodeRoundTrip : Obligations.EncodeDecodeRoundTrip :=
  fun bs i rest h => ⟨Machine.decode_wellFormed bs i rest h, encode_of_decode h⟩

/-! ### Bytes that spell no command (R304, R305) -/

section Short

variable {bs : List Byte}

theorem decodeFM_of_short (mk : ReceiverMode → Instr) (hl : bs.length < 1) :
    decodeFM mk bs = .error .shortFrame := by
  unfold decodeFM
  split
  · simp only [List.length_cons] at hl
    omega
  · rfl

theorem decodeFMC_of_short (mk : ReceiverMode → AdcClockType → Instr) (hl : bs.length < 2) :
    decodeFMC mk bs = .error .shortFrame := by
  unfold decodeFMC
  split
  · simp only [List.length_cons] at hl
    omega
  · rfl

theorem decodeFSF_of_short (mk : ReceiverMode → Nat → Nat → Instr) (hl : bs.length < 6) :
    decodeFSF mk bs = .error .shortFrame := by
  unfold decodeFSF
  split
  · simp only [List.length_cons] at hl
    omega
  · rfl

theorem decodeFF_of_short (mk : Nat → Instr) (hl : bs.length < 4) :
    decodeFF mk bs = .error .shortFrame := by
  unfold decodeFF
  split
  · simp only [List.length_cons] at hl
    omega
  · rfl

theorem decodeFOPEN_of_short (mk : Nat → Nat → ServiceType → Nat → Instr) (hl : bs.length < 10) :
    decodeFOPEN mk bs = .error .shortFrame := by
  unfold decodeFOPEN
  split
  · simp only [List.length_cons] at hl
    omega
  · rfl

theorem decodeFID_of_short (mk : Nat → Instr) (hl : bs.length < 1) :
    decodeFID mk bs = .error .shortFrame := by
  unfold decodeFID
  split
  · simp only [List.length_cons] at hl
    omega
  · rfl

theorem decodeFCER_of_short (mk : Nat → Instr) (hl : bs.length < 2) :
    decodeFCER mk bs = .error .shortFrame := by
  unfold decodeFCER
  split
  · simp only [List.length_cons] at hl
    omega
  · rfl

/-- Fewer bytes than the opcode's format has are a short frame, whatever they are. -/
theorem decode_of_short {op : Byte} {n : Nat} (hn : frameLength op = some n)
    (hl : bs.length + 1 < n) : decode (op :: bs) = .error .shortFrame := by
  unfold frameLength at hn
  simp only [decode]
  generalize op.toNat = k at hn ⊢
  split at hn <;> cases hn
  case h_1 => exact decodeFM_of_short _ (by omega)
  case h_2 | h_3 => exact decodeFMC_of_short _ (by omega)
  case h_4 => exact decodeFSF_of_short _ (by omega)
  case h_5 => exact decodeFF_of_short _ (by omega)
  case h_6 => exact decodeFOPEN_of_short _ (by omega)
  case h_7 => exact decodeFID_of_short _ (by omega)
  case h_16 => exact decodeFCER_of_short _ (by omega)
  all_goals omega

end Short

theorem frameLength_eq_none_iff {op : Byte} :
    frameLength op = none ↔ op.toNat = 0x00 ∨ (0x04 ≤ op.toNat ∧ op.toNat ≤ 0x0F)
      ∨ (0x12 ≤ op.toNat ∧ op.toNat ≤ 0x1F) ∨ (0x24 ≤ op.toNat ∧ op.toNat ≤ 0x2F)
      ∨ 0x38 ≤ op.toNat := by
  unfold frameLength
  split <;> grind

/-- An opcode without a format is unassigned, whatever bytes follow. -/
theorem decode_of_unassigned {op : Byte} (hn : frameLength op = none) (bs : List Byte) :
    decode (op :: bs) = .error (.unassignedOpcode op) := by
  unfold frameLength at hn
  simp only [decode]
  generalize op.toNat = k at hn ⊢
  split at hn <;> cases hn
  simp

/-- The opcode of a command's frame has a format, of the frame's length. -/
theorem encode_frame (i : Instr) : Laws.Frame.Statement i := by
  cases i with
  | init mode => exact Laws.Frame.init mode
  | adcConfigure mode clk => exact Laws.Frame.adcConfigure mode clk
  | adcChangeClock mode clk => exact Laws.Frame.adcChangeClock mode clk
  | setFreq mode ch f => exact Laws.Frame.setFreq mode ch f
  | scanFreq f => exact Laws.Frame.scanFreq f
  | openSubch f id svc thr => exact Laws.Frame.openSubch f id svc thr
  | closeSubch id => exact Laws.Frame.closeSubch id
  | closeAllSubch => exact Laws.Frame.closeAllSubch
  | disableStreamOut => exact Laws.Frame.disableStreamOut
  | getLockStatus => exact Laws.Frame.getLockStatus
  | getPer => exact Laws.Frame.getPer
  | getRssi => exact Laws.Frame.getRssi
  | getCnr => exact Laws.Frame.getCnr
  | getBer => exact Laws.Frame.getBer
  | getCer => exact Laws.Frame.getCer
  | getAntennaLevel cer => exact Laws.Frame.getAntennaLevel cer
  | getPrevFreq => exact Laws.Frame.getPrevFreq

theorem step_of_undecodable {s : Machine.State} {op : Byte} {bs : List Byte} {e : DecodeError}
    (hb : s.inbox = op :: bs) (hd : decode (op :: bs) = .error e) :
    Machine.step s = .refused (.badFrame e) :=
  Machine.step_of_badFrame (by simp [hb]) (by rw [hb, hd])

/-- Settles O4: the opcode, which is never cut off, fixes a length that the bytes do not reach. -/
theorem shortFramesRefused : Obligations.ShortFramesRefused := by
  intro s i k hk hlt hb
  obtain ⟨op, body, he, hn, -⟩ := encode_frame i
  obtain ⟨k, rfl⟩ := Nat.exists_eq_add_of_lt hk
  have hcut : s.inbox = op :: body.take k := by simpa [he] using hb
  refine step_of_undecodable hcut (decode_of_short hn ?_)
  simp only [he, List.length_cons, List.length_take] at hlt ⊢
  omega

/-- Settles O3: the ranges of R305 are the opcodes without a format. -/
theorem unassignedOpcodesRefused : Obligations.UnassignedOpcodesRefused :=
  fun _ _ bs hb hop => step_of_undecodable hb (decode_of_unassigned (frameLength_eq_none_iff.2 hop) bs)

/-! ### Reserved enumerators (R310 to R312) -/

theorem decodeFM_of_reserved (mk : ReceiverMode → Instr) {m : Byte} (hm : 5 ≤ m.toNat)
    (bs : List Byte) : decodeFM mk (m :: bs) = .error (.reservedMode m) := by
  simp [decodeFM, ReceiverMode.ofByte_eq_none_iff.2 hm]

theorem decodeFMC_of_reservedMode (mk : ReceiverMode → AdcClockType → Instr) {m : Byte}
    (hm : 5 ≤ m.toNat) (c : Byte) (bs : List Byte) :
    decodeFMC mk (m :: c :: bs) = .error (.reservedMode m) := by
  simp [decodeFMC, ReceiverMode.ofByte_eq_none_iff.2 hm]

/-- The clock byte is looked at behind a valid mode. -/
theorem decodeFMC_of_reservedClock (mk : ReceiverMode → AdcClockType → Instr) {m c : Byte}
    (hm : m.toNat < 5) (hc : 4 ≤ c.toNat) (bs : List Byte) :
    decodeFMC mk (m :: c :: bs) = .error (.reservedClock c) := by
  obtain ⟨mode, hmode⟩ := Option.ne_none_iff_exists'.1
    (fun h => absurd (ReceiverMode.ofByte_eq_none_iff.1 h) (Nat.not_le.2 hm))
  simp [decodeFMC, hmode, AdcClockType.ofByte_eq_none_iff.2 hc]

theorem decodeFSF_of_reserved (mk : ReceiverMode → Nat → Nat → Instr) {m : Byte}
    (hm : 5 ≤ m.toNat) (ch f3 f2 f1 f0 : Byte) (bs : List Byte) :
    decodeFSF mk (m :: ch :: f3 :: f2 :: f1 :: f0 :: bs) = .error (.reservedMode m) := by
  simp [decodeFSF, ReceiverMode.ofByte_eq_none_iff.2 hm]

theorem decodeFOPEN_of_reserved (mk : Nat → Nat → ServiceType → Nat → Instr) {sv : Byte}
    (hs : 3 ≤ sv.toNat) (f3 f2 f1 f0 id t3 t2 t1 t0 : Byte) (bs : List Byte) :
    decodeFOPEN mk (f3 :: f2 :: f1 :: f0 :: id :: sv :: t3 :: t2 :: t1 :: t0 :: bs)
      = .error (.reservedService sv) := by
  simp [decodeFOPEN, ServiceType.ofByte_eq_none_iff.2 hs]

/-- Settles O5: each format refuses its enumerator by name. -/
theorem reservedEnumeratorsRefused : Obligations.ReservedEnumeratorsRefused := by
  refine fun s b => ⟨fun hb => ⟨fun bs hin => ?_, fun op c bs hop hin => ?_,
    fun ch f3 f2 f1 f0 bs hin => ?_⟩, fun hb op m bs hop hm hin => ?_,
    fun hb f3 f2 f1 f0 id t3 t2 t1 t0 bs hin => ?_⟩
  · exact step_of_undecodable hin (decodeFM_of_reserved .init hb bs)
  · rcases hop with rfl | rfl
    · exact step_of_undecodable hin (decodeFMC_of_reservedMode .adcConfigure hb c bs)
    · exact step_of_undecodable hin (decodeFMC_of_reservedMode .adcChangeClock hb c bs)
  · exact step_of_undecodable hin (decodeFSF_of_reserved .setFreq hb ch f3 f2 f1 f0 bs)
  · rcases hop with rfl | rfl
    · exact step_of_undecodable hin (decodeFMC_of_reservedClock .adcConfigure hm hb bs)
    · exact step_of_undecodable hin (decodeFMC_of_reservedClock .adcChangeClock hm hb bs)
  · exact step_of_undecodable hin (decodeFOPEN_of_reserved .openSubch hb f3 f2 f1 f0 id t3 t2 t1 t0 bs)

/-- Settles O6: each frame is its command's encoding, which the round trip reads back. -/
theorem sampleFramesDecode : Obligations.SampleFramesDecode :=
  ⟨decodeEncodeRoundTrip (.init .isdb1seg) [] rfl,
    decodeEncodeRoundTrip (.adcConfigure .tdmb .clk8192) [] rfl,
    decodeEncodeRoundTrip (.setFreq .isdb1seg 13 473143) [] rfl,
    decodeEncodeRoundTrip (.scanFreq 181280) [] rfl,
    decodeEncodeRoundTrip (.openSubch 181280 40 .video 4096) [] rfl,
    decodeEncodeRoundTrip (.closeSubch 3) [] rfl,
    decodeEncodeRoundTrip (.getAntennaLevel 809) [] rfl⟩

end Sys2Proof

namespace Sys2Proof.Machine

/-! ### How a control command's result is replied (R1000, R1005) -/

theorem ctlView_reply_control (r : Reply) (s : State) :
    ctlView (reply .control r s) = { ctlView s with replies := (ctlView s).replies ++ [r] } := by
  simp [ctlView, eventsOf]

/-- The reply that carries a sub-procedure's result. -/
def resultReply : Except ErrorCode Unit → Reply
  | .ok _ => .ok
  | .error e => .err e

theorem finish_eq (r : Except ErrorCode Unit) (s : State) :
    finish r s = .next (reply .control (resultReply r) s) := by
  cases r <;> rfl

/-- An operation that ran these port calls and left this context ends with the reply of its result. -/
theorem finish_after {s u : State} {es : List Event} {as : List Byte} {c : Session}
    (hu : ctlView u = { (ctlView s).ran es as with core := c }) (r : Except ErrorCode Unit) :
    ∃ t, finish r u = .next t ∧ ctlView t = (ctlView s).after c as es (resultReply r) :=
  ⟨_, finish_eq r u, by rw [ctlView_reply_control, hu]; rfl⟩

/-! ### The ADC clock commands (R500, R510) -/

theorem ctlView_setAdcClk (v : Option AdcClockType) (s : State) :
    ctlView (setAdcClk v s) = { ctlView s with core := { core s.ctx with adcClk := v } } := rfl

/-- The lock-verify loop that meets the lock records the type. -/
theorem adcVerify_hit (clk : AdcClockType) (lo : List Byte) (b : Byte) (rest : List Byte) (s : State)
    (hl : lo.length < 10) (hlo : AllClear s.hdt.adc.lockBit lo)
    (hb : bitOf s.hdt.adc.lockBit.pos b = true) (hs : s.ctlAnswers = lo ++ b :: rest) :
    ∃ u, adcVerify clk s = (true, u)
      ∧ ctlView u = { (ctlView s).ran (pollEvents s.hdt.adc.lockBit.reg 1 (lo ++ [b])) rest with
          core := { core s.ctx with adcClk := some clk } } := by
  obtain ⟨h1, h2⟩ := pollBit_hit s.hdt.adc.lockBit adcPollMs adcPolls lo b rest hl hlo hb s hs
  refine ⟨_, by simp only [adcVerify, h1]; rfl, ?_⟩
  rw [ctlView_setAdcClk, core_of_ran h2, h2]
  rfl

/-- The lock-verify loop that meets no lock records no type. -/
theorem adcVerify_miss (clk : AdcClockType) (lo rest : List Byte) (s : State) (hl : lo.length = 10)
    (hlo : AllClear s.hdt.adc.lockBit lo) (hs : s.ctlAnswers = lo ++ rest) :
    ∃ u, adcVerify clk s = (false, u)
      ∧ ctlView u = { (ctlView s).ran (pollEvents s.hdt.adc.lockBit.reg 1 lo) rest with
          core := { core s.ctx with adcClk := none } } := by
  obtain ⟨h1, h2⟩ := pollBit_miss s.hdt.adc.lockBit adcPollMs lo rest hlo s hs
  rw [hl] at h1 h2
  refine ⟨_, by simp only [adcVerify, adcPolls, h1]; rfl, ?_⟩
  rw [ctlView_setAdcClk, core_of_ran h2, h2]
  rfl

theorem busLock_ran (on : Bool) (s : State) :
    ctlView (busLock on s) = (ctlView s).ran
      [.wrM s.hdt.adc.busLockReg s.hdt.adc.busLockMask
        (if on then s.hdt.adc.busLockOn else s.hdt.adc.busLockOff)] s.ctlAnswers :=
  wrM_ran _ _ _ s

/-- The start of a clock change: the bus-lock bit disabled, then the tuple. -/
theorem wrTuple_busLock_ran (t : Vector Byte 7) (s : State) :
    ctlView (wrTuple t (busLock false s)) = (ctlView s).ran
      ([.wrM s.hdt.adc.busLockReg s.hdt.adc.busLockMask s.hdt.adc.busLockOff]
        ++ tupleEvents s.hdt t) s.ctlAnswers := by
  have h := busLock_ran false s
  rw [wrTuple_ran, answers_of_ran h, hdt_of_ran h, h, CtlView.ran_ran]
  rfl

section ChangeClock

variable {clk : AdcClockType} {t : Vector Byte 7} {s : State} (hne : s.ctx.adcClk ≠ some clk)
  (ht : adcTuple s.hdt s.ctx.xtal clk = some t)

include hne ht

/-- The clock changes: the bus-lock bit is enabled again behind the lock. -/
theorem adcChangeClock_ok (lo : List Byte) (b : Byte) (rest : List Byte) (hl : lo.length < 10)
    (hlo : AllClear s.hdt.adc.lockBit lo) (hb : bitOf s.hdt.adc.lockBit.pos b = true)
    (hs : s.ctlAnswers = lo ++ b :: rest) :
    ∃ u, adcChangeClock clk s = (.ok (), u)
      ∧ ctlView u = { (ctlView s).ran
          ([.wrM s.hdt.adc.busLockReg s.hdt.adc.busLockMask s.hdt.adc.busLockOff]
            ++ tupleEvents s.hdt t ++ pollEvents s.hdt.adc.lockBit.reg 1 (lo ++ [b])
            ++ [.wrM s.hdt.adc.busLockReg s.hdt.adc.busLockMask s.hdt.adc.busLockOn]) rest with
          core := { core s.ctx with adcClk := some clk } } := by
  have h1 := wrTuple_busLock_ran t s
  have hh := hdt_of_ran h1
  obtain ⟨u, h2, h3⟩ := adcVerify_hit clk lo b rest (wrTuple t (busLock false s))
    hl (by rw [hh]; exact hlo) (by rw [hh]; exact hb)
    ((answers_of_ran h1).trans hs)
  refine ⟨busLock true u, by simp only [adcChangeClock, hne, ht, h2, if_true, if_false], ?_⟩
  have hu : u.hdt = s.hdt := (congrArg CtlView.hdt h3).trans hh
  have ha : u.ctlAnswers = rest := congrArg CtlView.answers h3
  rw [busLock_ran, hu, ha, h3, core_of_ran h1, h1, hh]
  simp [CtlView.ran]

/-- The clock does not lock: the bus-lock bit stays disabled. -/
theorem adcChangeClock_unlocked (lo rest : List Byte) (hl : lo.length = 10)
    (hlo : AllClear s.hdt.adc.lockBit lo) (hs : s.ctlAnswers = lo ++ rest) :
    ∃ u, adcChangeClock clk s = (.error .adcClockUnlocked, u)
      ∧ ctlView u = { (ctlView s).ran
          ([.wrM s.hdt.adc.busLockReg s.hdt.adc.busLockMask s.hdt.adc.busLockOff]
            ++ tupleEvents s.hdt t ++ pollEvents s.hdt.adc.lockBit.reg 1 lo) rest with
          core := { core s.ctx with adcClk := none } } := by
  have h1 := wrTuple_busLock_ran t s
  have hh := hdt_of_ran h1
  obtain ⟨u, h2, h3⟩ := adcVerify_miss clk lo rest (wrTuple t (busLock false s)) hl
    (by rw [hh]; exact hlo) ((answers_of_ran h1).trans hs)
  refine ⟨u, by simp [adcChangeClock, hne, ht, h2], ?_⟩
  rw [h3, core_of_ran h1, h1, hh, CtlView.ran_ran]

end ChangeClock

theorem exec_adcConfigure {s : State} (hr : Ready s) (mode : ReceiverMode) (clk : AdcClockType) :
    exec (.adcConfigure mode clk) s = finish (adcConfigure clk s).1 (adcConfigure clk s).2 :=
  inSession_of_ready hr _

theorem exec_adcChangeClock {s : State} (hr : Ready s) (mode : ReceiverMode) (clk : AdcClockType) :
    exec (.adcChangeClock mode clk) s = finish (adcChangeClock clk s).1 (adcChangeClock clk s).2 :=
  inSession_of_ready hr _

/-- Settles O24: the procedure under the answers its polls read, then the reply of its result. -/
theorem adcConfigureOutcomes : Obligations.AdcConfigureOutcomes := by
  intro mode clk s t lo rest hr hne ht hlo
  rw [exec_adcConfigure hr]
  refine ⟨fun b hl hb hs => ?_, fun hl hs => ?_⟩
  · obtain ⟨u, he, hv⟩ := adcConfigure_ok lo b rest s hne ht hl hlo hb hs
    rw [he]
    exact finish_after hv (.ok ())
  · obtain ⟨u, he, hv⟩ := adcConfigure_unlocked lo rest s hne ht hl hlo hs
    rw [he]
    exact finish_after hv (.error .adcClockUnlocked)

/-- Settles O25, as O24, with the two masked writes around the procedure. -/
theorem adcChangeClockOutcomes : Obligations.AdcChangeClockOutcomes := by
  intro mode clk s t lo rest hr hne ht hlo
  rw [exec_adcChangeClock hr]
  refine ⟨fun b hl hb hs => ?_, fun hl hs => ?_⟩
  · obtain ⟨u, he, hv⟩ := adcChangeClock_ok hne ht lo b rest hl hlo hb hs
    rw [he]
    exact finish_after hv (.ok ())
  · obtain ⟨u, he, hv⟩ := adcChangeClock_unlocked hne ht lo rest hl hlo hs
    rw [he]
    exact finish_after hv (.error .adcClockUnlocked)

/-! ### A tune as a command (R600, R630, R640) -/

theorem ctlView_updatePrevFreq (r : Except ErrorCode Unit) (f : Nat) (s : State) :
    ctlView (updatePrevFreq r f s) = { ctlView s with
      core := { core s.ctx with prevFreq := prevFreqAfter r f s.ctx.prevFreq } } := rfl

/-- `SET_FREQ` under scripted answers: the tune with the flag up, the previous frequency that its result
gives, the flag down, and the result replied. -/
theorem exec_setFreq_of_tune {s : State} (hr : Ready s) {mode : ReceiverMode} {ch f : Nat}
    {as rest : List Byte} {es : List Event} {clk : Option AdcClockType} {r : Except ErrorCode Unit}
    (hT : Tune s.hdt s.ctx mode ch f as es clk r) (hs : s.ctlAnswers = as ++ rest) :
    ∃ t, exec (.setFreq mode ch f) s = .next t
      ∧ ctlView t = (ctlView s).after
          { core s.ctx with
            adcClk := clk, prevFreq := prevFreqAfter r f s.ctx.prevFreq, ccip := false }
          rest es (resultReply r) := by
  have hv := ctlView_setCcip true s
  have hh : (setCcip true s).hdt = s.hdt := congrArg CtlView.hdt hv
  have hc : core (setCcip true s).ctx = { core s.ctx with ccip := true } := congrArg CtlView.core hv
  have hm : (setCcip true s).ctx.mode = s.ctx.mode := (congrArg Session.mode hc :)
  have hx : (setCcip true s).ctx.xtal = s.ctx.xtal := (congrArg Session.xtal hc :)
  have ha : (setCcip true s).ctx.adcClk = s.ctx.adcClk := (congrArg Session.adcClk hc :)
  obtain ⟨u, htune, hu⟩ := tune_ran (setCcip true s)
    (by rw [hh]; exact hT.congr hm.symm hx.symm ha.symm) rest ((congrArg CtlView.answers hv).trans hs)
  have he : exec (.setFreq mode ch f) s = finish r (setCcip false (updatePrevFreq r f u)) := by
    refine (inSession_of_ready hr _).trans ?_
    simp only [htune]
  have hcu : core u.ctx = { core s.ctx with adcClk := clk, ccip := true } :=
    (congrArg CtlView.core hu).trans (by rw [hc])
  have hp : u.ctx.prevFreq = s.ctx.prevFreq := (congrArg Session.prevFreq hcu :)
  rw [he]
  refine finish_after ?_ r
  have hcp : core (updatePrevFreq r f u).ctx
      = { core u.ctx with prevFreq := prevFreqAfter r f u.ctx.prevFreq } := rfl
  rw [ctlView_setCcip, hcp, hcu, hp, ctlView_updatePrevFreq, hu, hv]
  rfl

/-- Settles O28: the tune whose clock type is current and whose PLL locks. -/
theorem setFreqTunes : Obligations.SetFreqTunes := by
  intro mode ch f s clk n bad good lo rest b hr hp hc hbl hbad hgood hl hlo hb hs
  have hT : Tune s.hdt s.ctx mode ch f ([] ++ (readBytes bad ++ good.bytes ++ (lo ++ [b]))) _
      (some clk) (.ok ()) :=
    .pll clk n _ _ _ _ _ hp (.current hc) (.tuned bad good lo b hbl hbad hgood hl hlo hb)
  obtain ⟨u, he, hv⟩ := exec_setFreq_of_tune hr hT (rest := rest) (by simp [hs])
  rw [← hc] at hv
  exact ⟨u, he, hv⟩

/-! ### The classifier past the pre-gate (R812, R813) -/

theorem GateReads.Pass.preGate {h : Hdt} {tm : Fin 4} {pw : Nat} {r : GateReads}
    (hp : r.Pass h tm pw) :
    preGate (scanThr h tm) (join2 r.cfH r.cfL) pw r.gain.toNat = true := by
  obtain ⟨-, hcf, hpw, hg, hz⟩ := hp
  have hj : join2 r.cfH r.cfL = r.cfH.toNat * 256 + r.cfL.toNat := rfl
  simp only [Machine.preGate, Bool.and_eq_true, Bool.not_eq_true', Bool.and_eq_false_iff,
    Bool.or_eq_false_iff, decide_eq_false_iff_not, hj]
  omega

/-- Reads that pass the pre-gate lead to phase f, whose result is the rejection or phase g's start. -/
theorem classify_of_pass (pw : Nat) (s : State) {tm : Fin 4} {r : GateReads}
    (hp : r.Pass s.hdt tm pw) (rest : List Byte) (hs : s.ctlAnswers = r.bytes ++ rest) :
    ∃ u, ctlView u = (ctlView s).ran (r.events s.hdt) rest
      ∧ (∀ v, phaseF tm r.gain.toNat 16 1 0 u = (none, v) → classify pw s = (.channelNotDetected, v))
      ∧ ∀ bad v, phaseF tm r.gain.toNat 16 1 0 u = (some bad, v) →
          classify pw s = phaseG tm r.gain.toNat (phaseGLimit v.hdt tm bad) 100 0 v := by
  obtain ⟨u, hu, hc⟩ := classify_reads pw s r.gain r.tm r.cfH r.cfL rest hs
  rw [hp.mode, if_pos hp.preGate] at hc
  exact ⟨u, hu, fun v hf => by simp only [hc, fIters, hf], fun bad v hf => by
    simp only [hc, fIters, hf, gIters]⟩

theorem nullEvents_append (h : Hdt) (xs ys : List Read3) :
    nullEvents h (xs ++ ys) = nullEvents h xs ++ nullEvents h ys := List.flatMap_append

theorem readBytes_append (xs ys : List Read3) : readBytes (xs ++ ys) = readBytes xs ++ readBytes ys :=
  List.flatMap_append

/-- Phase f after readings that go on and one more reading: its mode, then the count with it, decide. -/
theorem phaseF_reading (tm : Fin 4) (g : Nat) (nulls : List Read3) (x : Read3) (rest : List Byte)
    (s : State) (hm : Stable s.hdt tm nulls) (hl : nulls.length ≤ 14)
    (hr : nulls.length = 14 → ¬TooMany s.hdt tm g nulls)
    (hs : s.ctlAnswers = readBytes (nulls ++ [x]) ++ rest) :
    ∃ u, ctlView u = (ctlView s).ran (nullEvents s.hdt (nulls ++ [x])) rest
      ∧ phaseF tm g 16 1 0 s =
        if field2 s.hdt.scan.txmode.lo x.l ≠ tm then (none, u)
        else if 13 ≤ nulls.length ∧ TooMany s.hdt tm g (nulls ++ [x]) then (none, u)
        else if 14 ≤ nulls.length then (some (outOfRange s.hdt tm (nulls ++ [x])), u)
        else phaseF tm g (15 - nulls.length) (nulls.length + 2) (outOfRange s.hdt tm (nulls ++ [x])) u := by
  obtain ⟨u, hu, hgo⟩ := phaseF_goesOn tm g nulls (15 - nulls.length + 1) 1 0 s (x.bytes ++ rest)
    (by omega) hm (fun h => by rw [Nat.zero_add]; exact hr (by omega))
    (by simpa [readBytes_append, readBytes] using hs)
  obtain ⟨v, hv, hx⟩ := phaseF_step tm g (15 - nulls.length) (1 + nulls.length)
    (0 + outOfRange s.hdt tm nulls) u x rest (answers_of_ran hu)
  have hsum : 0 + outOfRange s.hdt tm nulls + outOfRange s.hdt tm [x]
      = outOfRange s.hdt tm (nulls ++ [x]) := by rw [outOfRange_append, Nat.zero_add]
  refine ⟨v, by rw [hv, hu, hdt_of_ran hu, nullEvents_append, CtlView.ran_ran], ?_⟩
  rw [show 16 = nulls.length + (15 - nulls.length + 1) by omega, hgo, hx, hdt_of_ran hu, hsum]
  have hfrom : fCheckFrom ≤ 1 + nulls.length ↔ 13 ≤ nulls.length := by simp only [fCheckFrom]; omega
  have hat : fAcceptAt ≤ 1 + nulls.length ↔ 14 ≤ nulls.length := by simp only [fAcceptAt]; omega
  simp only [hfrom, hat, fBadMax, TooMany, show 1 + nulls.length + 1 = nulls.length + 2 by omega]

section PhaseF

variable (pw : Nat) (s : State) {tm : Fin 4} {r : GateReads} {nulls : List Read3} (rest : List Byte)
  (hp : r.Pass s.hdt tm pw) (hm : Stable s.hdt tm nulls)

include hp hm

/-- The gate's reads, then phase f's decision at the reading `x`. -/
theorem classify_reading (x : Read3) (hl : nulls.length ≤ 14)
    (hr : nulls.length = 14 → ¬TooMany s.hdt tm r.gain.toNat nulls)
    (hs : s.ctlAnswers = r.bytes ++ readBytes (nulls ++ [x]) ++ rest) :
    ∃ u, ctlView u = (ctlView s).ran (r.events s.hdt ++ nullEvents s.hdt (nulls ++ [x])) rest
      ∧ (field2 s.hdt.scan.txmode.lo x.l ≠ tm
          ∨ 13 ≤ nulls.length ∧ TooMany s.hdt tm r.gain.toNat (nulls ++ [x]) →
        classify pw s = (.channelNotDetected, u))
      ∧ (field2 s.hdt.scan.txmode.lo x.l = tm → nulls.length = 14 →
        ¬TooMany s.hdt tm r.gain.toNat (nulls ++ [x]) →
        classify pw s = phaseG tm r.gain.toNat
          (phaseGLimit s.hdt tm (outOfRange s.hdt tm (nulls ++ [x]))) 100 0 u) := by
  obtain ⟨u, hu, hrej, hacc⟩ := classify_of_pass pw s hp (readBytes (nulls ++ [x]) ++ rest)
    (by rw [hs, List.append_assoc])
  have hh := hdt_of_ran hu
  obtain ⟨v, hv, hf⟩ := phaseF_reading tm r.gain.toNat nulls x rest u (by rwa [hh]) hl (by rwa [hh])
    (answers_of_ran hu)
  rw [hh] at hv hf
  refine ⟨v, by rw [hv, hu, CtlView.ran_ran], fun hbad => hrej v ?_, fun hx hlen hok => ?_⟩
  · rw [hf]
    rcases hbad with hx | hmany
    · rw [if_pos hx]
    · rw [if_pos hmany, ite_self]
  · rw [hacc _ v (by
      rw [hf, if_neg (not_not.2 hx), if_neg (fun h => hok h.2), if_pos hlen.ge]), hdt_of_ran hv, hh]

/-- A run of fourteen or fifteen readings is decided at its last: too many null lengths out of range
reject, and the fifteenth reading accepts otherwise. -/
theorem classify_lastReading (hs : s.ctlAnswers = r.bytes ++ readBytes nulls ++ rest)
    (hl : nulls.length = 14
      ∨ nulls.length = 15 ∧ ¬TooMany s.hdt tm r.gain.toNat (nulls.take 14)) :
    ∃ u, ctlView u = (ctlView s).ran (r.events s.hdt ++ nullEvents s.hdt nulls) rest
      ∧ (TooMany s.hdt tm r.gain.toNat nulls → classify pw s = (.channelNotDetected, u))
      ∧ (nulls.length = 15 → ¬TooMany s.hdt tm r.gain.toNat nulls →
        classify pw s = phaseG tm r.gain.toNat
          (phaseGLimit s.hdt tm (outOfRange s.hdt tm nulls)) 100 0 u) := by
  obtain rfl | ⟨init, x, rfl⟩ := nulls.eq_nil_or_concat'
  · simp at hl
  · simp only [List.length_append, List.length_singleton] at hl ⊢
    obtain ⟨u, hu, hrej, hacc⟩ := classify_reading pw s rest hp
      (fun y hy => hm y (List.mem_append_left _ hy)) x (by omega) (fun h14 => by
        obtain h | ⟨-, h⟩ := hl
        · omega
        · rwa [List.take_left' h14] at h) hs
    exact ⟨u, hu, fun hmany => hrej (.inr ⟨by omega, hmany⟩), fun h15 hok =>
      hacc (hm x (by simp)) (by omega) hok⟩

end PhaseF

/-! ### Phase g and the lock wait (R814 to R816) -/

theorem phaseGLimit_marginal {h : Hdt} {tm : Fin 4} {bad : Nat}
    (hb : (scanThr h tm).nlMarginal ≤ bad) :
    phaseGLimit h tm bad = h.scan.thresholds[tm].unlockLimitTight := if_pos hb

theorem phaseGLimit_ample {h : Hdt} {tm : Fin 4} {bad : Nat} (hb : bad < (scanThr h tm).nlMarginal) :
    phaseGLimit h tm bad = 9 := if_neg (Nat.not_le.2 hb)

section PhaseG

variable {h : Hdt} {tm : Fin 4} {g : Nat} (limit n unl : Nat) {s : State} (hh : s.hdt = h)
  (rest : List Byte)

include hh

theorem phaseG_rejects_mode {tx : Byte} (hx : field2 h.scan.txmode.lo tx ≠ tm)
    (hs : s.ctlAnswers = tx :: rest) :
    ∃ t, phaseG tm g limit (n + 1) unl s = (.channelNotDetected, t)
      ∧ ctlView t = (ctlView s).ran [.dlyMs 10, .rd h.scan.txmode.reg tx] rest := by
  subst hh
  obtain ⟨u, hu, he⟩ := phaseG_mode tm g limit n unl s tx rest hs
  exact ⟨u, by rw [he, if_pos hx], hu⟩

theorem phaseG_rejects_dc {tx ih il qh ql : Byte} (hx : field2 h.scan.txmode.lo tx = tm)
    (hg : g < (scanThr h tm).dcGainHigh)
    (hw : ¬InWindow (ih.toNat * 256 + il.toNat) ∨ ¬InWindow (qh.toNat * 256 + ql.toNat))
    (hs : s.ctlAnswers = tx :: ih :: il :: qh :: ql :: rest) :
    ∃ t, phaseG tm g limit (n + 1) unl s = (.channelNotDetected, t)
      ∧ ctlView t = (ctlView s).ran
          ([.dlyMs 10, .rd h.scan.txmode.reg tx] ++ dcEvents h [ih, il, qh, ql]) rest := by
  subst hh
  obtain ⟨u, hu, he⟩ := phaseG_mode tm g limit n unl s tx (ih :: il :: qh :: ql :: rest) hs
  have hh := hdt_of_ran hu
  obtain ⟨v, hd, hv⟩ := dcCheck_fails u (by rwa [hh]) hw rest (answers_of_ran hu)
  refine ⟨v, ?_, by rw [hv, hu, hh, CtlView.ran_ran]⟩
  rw [he, if_neg (not_not.2 hx), hd]
  rfl

theorem phaseG_rejects_unlock {tx st : Byte} {dc : List Byte}
    (hx : field2 h.scan.txmode.lo tx = tm) (hd : DcPasses h tm g dc) (hst : st ∈ h.scan.fsmUnlock)
    (hl : limit ≤ unl + 1) (hs : s.ctlAnswers = tx :: (dc ++ st :: rest)) :
    ∃ t, phaseG tm g limit (n + 1) unl s = (.channelNotDetected, t)
      ∧ ctlView t = (ctlView s).ran
          ([.dlyMs 10, .rd h.scan.txmode.reg tx] ++ dcEvents h dc ++ [.rd h.scan.fsmStateReg st])
          rest := by
  subst hh
  obtain ⟨u, hu, he⟩ := phaseG_state tm g limit n unl s tx st dc rest hx hd hs
  have hc : s.hdt.scan.fsmUnlock.contains st = true := List.contains_iff_mem.2 hst
  exact ⟨u, by rw [he, hc, if_pos rfl, if_pos ⟨rfl, hl⟩], hu⟩

/-- A coarse count ends phase g; the lock wait after it meets no lock. -/
theorem phaseG_rejects_noLock {x : StateReads} {polls : List Byte} (hx : x.Pass h tm g)
    (hcnt : 1 < x.count.toNat) (hl : unlocks h [x] = 0 ∨ unl + unlocks h [x] < limit)
    (hn : polls.length = 50) (hp : AllClear (ofdmLockBit h) polls)
    (hs : s.ctlAnswers = x.bytes ++ (polls ++ rest)) :
    ∃ t, phaseG tm g limit (n + 1) unl s = (.channelNotDetected, t)
      ∧ ctlView t = (ctlView s).ran (x.events h ++ lockWaitEvents h polls) rest := by
  subst hh
  obtain ⟨u, hu, he⟩ := phaseG_step tm g limit n unl s x (polls ++ rest) hx hl hs
  have hh := hdt_of_ran hu
  obtain ⟨v, hv, hw⟩ := lockWait_goesOn 0 polls rest u (by rwa [hh]) (answers_of_ran hu)
  refine ⟨v, ?_, by rw [hv, hu, hh, CtlView.ran_ran]⟩
  rw [he, if_pos hcnt, show lockwaitIters = polls.length + 0 from hn.symm, hw]
  rfl

/-- A rejection from the state after iterations that go on is one after them. -/
theorem phaseG_rejects_after {its : List StateReads} {bs : List Byte} {fs : List Event}
    (hits : ∀ x ∈ its, x.Pass h tm g ∧ x.count.toNat ≤ 1)
    (hl : unlocks h its = 0 ∨ unl + unlocks h its < limit)
    (hrej : ∀ u : State, u.hdt = h → u.ctlAnswers = bs →
      ∃ t, phaseG tm g limit n (unl + unlocks h its) u = (.channelNotDetected, t)
        ∧ ctlView t = (ctlView u).ran fs rest)
    (hs : s.ctlAnswers = its.flatMap StateReads.bytes ++ bs) :
    ∃ t, phaseG tm g limit (its.length + n) unl s = (.channelNotDetected, t)
      ∧ ctlView t = (ctlView s).ran (its.flatMap (StateReads.events h) ++ fs) rest := by
  subst hh
  obtain ⟨u, hu, he⟩ := phaseG_goesOn tm g limit n unl its s bs hits hl hs
  obtain ⟨t, ht, hv⟩ := hrej u (hdt_of_ran hu) (answers_of_ran hu)
  exact ⟨t, he.trans ht, by rw [hv, hu, CtlView.ran_ran]⟩

end PhaseG

/-- Settles O51: phase f by its deciding reading; phase g by the iterations that go on, from whose end
state each rejection is a lemma above. -/
theorem phasesFAndGReject : Obligations.PhasesFAndGReject := by
  refine ⟨fun pw s tm r nulls rest hp hm => ⟨fun x hl hr hx hs => ?_, fun hmany hl hs => ?_,
    fun hl hr hok hs => ?_⟩, fun tm g limit n unl s its rest hits hl => ?_,
    fun h tm bad => ⟨phaseGLimit_marginal, phaseGLimit_ample⟩⟩
  · obtain ⟨u, hu, hrej, -⟩ := classify_reading pw s rest hp hm x hl hr hs
    rw [hrej (.inl hx)]
    exact ⟨rfl, hu⟩
  · obtain ⟨u, hu, hrej, -⟩ := classify_lastReading pw s rest hp hm hs hl
    rw [hrej hmany]
    exact ⟨rfl, hu⟩
  · obtain ⟨u, hu, -, hacc⟩ := classify_lastReading pw s rest hp hm hs (.inr ⟨hl, hr⟩)
    exact ⟨u, hacc hl hok, hu⟩
  · refine ⟨fun tx hx hs => ?_, fun tx ih il qh ql hx hg hw hs => ?_,
      fun tx st dc hx hd hst hlim hs => ?_, fun hs => ?_, fun x polls hx hcnt hlx hn hp hs => ?_⟩
    · exact phaseG_rejects_after limit (n + 1) unl rfl rest hits hl
        (fun u hh ha => phaseG_rejects_mode limit n _ hh rest hx ha) hs
    · rw [List.append_assoc]
      exact phaseG_rejects_after limit (n + 1) unl rfl rest hits hl
        (fun u hh ha => phaseG_rejects_dc limit n _ hh rest hx hg hw ha) hs
    · exact phaseG_rejects_after limit (n + 1) unl rfl rest hits hl
        (fun u hh ha => phaseG_rejects_unlock limit n _ hh rest hx hd hst hlim ha) hs
    · obtain ⟨u, hu, he⟩ := phaseG_goesOn tm g limit 0 unl its s rest hits hl hs
      exact ⟨u, he, hu⟩
    · have hsum : unlocks s.hdt (its ++ [x]) = unlocks s.hdt its + unlocks s.hdt [x] :=
        List.countP_append
      rw [List.flatMap_append, List.flatMap_singleton, List.append_assoc]
      exact phaseG_rejects_after limit (n + 1) unl rfl rest hits hl
        (fun u hh ha => phaseG_rejects_noLock limit n _ hh rest hx hcnt (by omega) hn hp ha)
        (by simp [hs])

/-! ### The lock status, the PER and the RSSI (R900, R910, R920) -/

/-- A getter command under scripted answers runs its program from the state that holds them. -/
theorem exec_getter_scripted {i : Instr} {c : GetterCmd} {s : State} {bs : List Byte}
    (hc : getterCmd i = some c) (hr : Ready s) (hg : s.getter = none) (hf : s.ctx.ccip = false)
    (hs : s.getAnswers = bs) :
    exec i s = .next (runProg none (getterProg s.hdt c) (getterRan s bs [])) := by
  rw [getterRan_nil hs, exec_getter_of_idle hc hr hg hf]

theorem lockStatusValue_eq (ofdm : Bool) (fec : Nat) :
    (lockStatusValue ofdm fec : Int) = (if ofdm then 1 else 0) + if fec = 3 then 2 else 0 := by
  unfold lockStatusValue
  cases ofdm <;> split <;> rfl

section Programs

variable (h : Hdt) (s : State) (x y : Byte) (rest : List Byte)

theorem runProg_lockStatusProg :
    runProg none (lockStatusProg h) (getterRan s (x :: y :: rest) [])
      = getterAfter s rest [.rd (ofdmLockBit h).reg x, .rd (fecSyncReg h) y]
          (lockStatusValue (bitOf (ofdmLockBit h).pos x) (fieldOf 2 h.quality.fecSyncLo y)) := by
  rw [lockStatusProg, runProg_rd_ran, runProg_rd_ran, runProg_ret_ran]
  rfl

theorem runProg_rssiProg :
    runProg none (rssiProg h) (getterRan s (x :: y :: rest) [])
      = getterAfter s rest [.rd h.quality.agcReg x, .rd h.quality.bbgainReg y]
          (rssiFn h (field2 h.quality.lnaLo x) (fieldOf 4 h.quality.rfagcLo x) y.toNat) := by
  rw [rssiProg, runProg_rd_ran, runProg_rd_ran, runProg_ret_ran]
  rfl

/-- `GET_PER` without synchronisation reads no counter. -/
theorem runProg_perProg_unsynced (hx : bitOf h.quality.rsSyncBit.pos x = false) :
    runProg none (perProg h) (getterRan s (x :: rest) [])
      = getterAfter s rest [.rd h.quality.rsSyncBit.reg x] 700 := by
  rw [perProg, runProg_rd_ran, hx]
  rfl

theorem runProg_perProg_synced (l : Byte) (hx : bitOf h.quality.rsSyncBit.pos x = true) :
    runProg none (perProg h) (getterRan s (x :: y :: l :: rest) [])
      = getterAfter s rest
          [.rd h.quality.rsSyncBit.reg x, .rd h.quality.perCnt.h y, .rd h.quality.perCnt.l l]
          (join2 y l) := by
  rw [perProg, runProg_rd_ran, if_pos hx, progRd16, runProg_rd_ran, runProg_rd_ran, runProg_ret_ran]
  rfl

/-- The writes of an action take no answer. -/
theorem runProg_progDo_ran (prev : Option Nat) (as : Action) (p : GetterProg) (bs : List Byte)
    (es : List Event) :
    runProg prev (progDo as p) (getterRan s bs es)
      = runProg prev p (getterRan s bs (es ++ as.map writeEvent)) := by
  induction as generalizing es with
  | nil => rw [progDo, List.map_nil, List.append_nil]
  | cons w ws ih =>
    have hw : (perform .getter (writeOp w) (getterRan s bs es)).2
        = getterRan s bs (es ++ [writeEvent w]) := by
      cases w <;> simp [writeOp, perform, record, getterRan, writeEvent]
    rw [progDo, runProg, hw, ih, List.map_cons, List.append_assoc]
    rfl

theorem runProg_cnrProg :
    runProg none (cnrProg h) (getterRan s (x :: y :: rest) [])
      = getterAfter s rest (h.quality.cnrTrigger.map writeEvent
          ++ [.rd h.quality.cnrAcc.h x, .rd h.quality.cnrAcc.l y]) (cnrValue h (cnrRaw x y)) := by
  rw [cnrProg, runProg_progDo_ran, runProg_rd_ran, runProg_rd_ran, runProg_ret_ran]
  simp

end Programs

/-- Settles O55: each command is its program, run on the bytes its reads answer. -/
theorem lockPerRssiResults : Obligations.LockPerRssiResults := by
  refine fun s x y rest hr hg hf => ⟨fun hs => ⟨?_, ?_⟩, fun hx hs => ?_, fun l hx hs => ?_⟩
  · rw [exec_getter_scripted (c := .lockStatus) rfl hr hg hf hs]
    refine congrArg Host.Outcome.next ((runProg_lockStatusProg s.hdt s x y rest).trans ?_)
    rw [lockStatusValue_eq]
    rfl
  · rw [exec_getter_scripted (c := .rssi) rfl hr hg hf hs]
    exact congrArg Host.Outcome.next (runProg_rssiProg s.hdt s x y rest)
  · rw [exec_getter_scripted (c := .per) rfl hr hg hf hs]
    exact congrArg Host.Outcome.next (runProg_perProg_unsynced s.hdt s x rest hx)
  · rw [exec_getter_scripted (c := .per) rfl hr hg hf hs]
    exact congrArg Host.Outcome.next (runProg_perProg_synced s.hdt s x y rest l hx)

/-! ### The CNR (R328, R930, R970) -/

theorem cnrRaw_eq (x y : Byte) : cnrRaw x y = x.toNat % 32 * 256 + y.toNat := by
  simp [cnrRaw, fieldOf]

section CnrValue

variable (h : Hdt) {raw : Nat}

theorem cnrValue_zero : cnrValue h 0 = 0 := rfl

theorem cnrValue_low (h1 : 1 ≤ raw) (h14 : raw ≤ 14) : cnrValue h raw = h.quality.cnrLowConst := by
  rw [cnrValue, if_neg (by omega), if_pos (show raw ≤ cnrRawLowMax from h14)]

theorem cnrValue_table (h15 : 15 ≤ raw) (hlt : raw - 15 < 146) :
    cnrValue h raw = h.quality.cnrLut[raw - 15] := by
  rw [cnrValue, if_neg (by omega), if_neg (by simp only [cnrRawLowMax]; omega),
    if_pos (by simp only [cnrRawLutMax]; omega)]
  simp [cnrRawLutMin, hlt]

theorem cnrValue_floor (h160 : 160 < raw) : cnrValue h raw = h.quality.cnrFloor := by
  rw [cnrValue, if_neg (by omega), if_neg (by simp only [cnrRawLowMax]; omega),
    if_neg (by simp only [cnrRawLutMax]; omega)]

end CnrValue

/-- Between 15 and 160 the value is the table's, which R12 checks never to rise. -/
theorem cnrValue_antitone {h : Hdt} (hh : hdtOk h = true) {i j : Nat} (hi : 15 ≤ i) (hij : i ≤ j)
    (hj : j ≤ 160) : cnrValue h j ≤ cnrValue h i := by
  obtain ⟨-, hlut, -⟩ := (hdtChecksAreThoseOfTheSpec h).1 hh
  rw [cnrValue_table h (by omega) (by omega : j - 15 < 146), cnrValue_table h hi (by omega : i - 15 < 146)]
  exact hlut (i - 15) (j - 15) (by omega) (by omega) (by omega)

/-- Settles O56: the program under its two answers, then the four ranges of the raw value. -/
theorem cnrResult : Obligations.CnrResult := by
  refine ⟨fun s x y rest raw v hr hg hf hs hraw hv => ?_,
    fun h i j hh hi hij hj => cnrValue_antitone hh hi hij hj⟩
  have hval : cnrValue s.hdt (cnrRaw x y) = v := by
    rw [cnrRaw_eq, ← hraw]
    rcases hv with ⟨rfl, rfl⟩ | ⟨h1, h14, rfl⟩ | ⟨hlt, h15, rfl⟩ | ⟨h160, rfl⟩
    · exact cnrValue_zero s.hdt
    · exact cnrValue_low s.hdt h1 h14
    · exact cnrValue_table s.hdt h15 hlt
    · exact cnrValue_floor s.hdt h160
  rw [exec_getter_scripted (c := .cnr) rfl hr hg hf hs, ← hval]
  exact congrArg Host.Outcome.next (runProg_cnrProg s.hdt s x y rest)

end Sys2Proof.Machine

namespace Sys2Proof.Machine

/-- Settles O8: the guard in front of the command refuses it. -/
theorem commandsBeforeInitRefused : Obligations.CommandsBeforeInitRefused := by
  intro i s hi ho
  obtain ⟨k, hk⟩ := exec_guarded hi
  rw [hk, inSession_of_closed ho]

/-- Settles O22: past the guards the command is its reply. -/
theorem prevFreqReturned : Obligations.PrevFreqReturned := fun _ hr => inSession_of_ready hr _

/-! ### `INIT` up to the clock (R400) -/

/-- The state in which `INIT` configures the clock: the context is reset and the init sequence written. -/
def initSetUp (mode : ReceiverMode) (s : State) : State :=
  doAction (forMode (initStart mode s).hdt.initSeq mode) (initStart mode s)

theorem ctlView_initSetUp (mode : ReceiverMode) (s : State) :
    ctlView (initSetUp mode s) = { (ctlView s).ran ((forMode s.hdt.initSeq mode).map writeEvent)
      s.ctlAnswers with core := initContext s.hdt mode } := by
  have hh : (initStart mode s).hdt = s.hdt := interleave_hdt s
  rw [initSetUp, hh, ctlView_doAction, ctlView_initStart]
  rfl

@[simp] theorem initSetUp_hdt (mode : ReceiverMode) (s : State) : (initSetUp mode s).hdt = s.hdt :=
  (congrArg CtlView.hdt (ctlView_initSetUp mode s) :)

@[simp] theorem initSetUp_ctlAnswers (mode : ReceiverMode) (s : State) :
    (initSetUp mode s).ctlAnswers = s.ctlAnswers :=
  (congrArg CtlView.answers (ctlView_initSetUp mode s) :)

@[simp] theorem core_initSetUp (mode : ReceiverMode) (s : State) :
    core (initSetUp mode s).ctx = initContext s.hdt mode :=
  (congrArg CtlView.core (ctlView_initSetUp mode s) :)

@[simp] theorem initSetUp_adcClk (mode : ReceiverMode) (s : State) :
    (initSetUp mode s).ctx.adcClk = none :=
  (congrArg Session.adcClk (core_initSetUp mode s) :)

@[simp] theorem initSetUp_xtal (mode : ReceiverMode) (s : State) :
    (initSetUp mode s).ctx.xtal = s.hdt.xtalKhz :=
  (congrArg Session.xtal (core_initSetUp mode s) :)

/-- From the reset of the context on `INIT` makes port calls, and writes no more than the clock type. -/
theorem quiet_initSetUp_adcConfigure (mode : ReceiverMode) (clk : AdcClockType) (s : State) :
    Quiet ClockOnly (initStart mode s) (adcConfigure clk (initSetUp mode s)).2 :=
  (Quiet.refl.doAction _).adcConfigure (fun _ _ => rfl) clk

/-! ### How `INIT` ends (R400, R1005) -/

theorem exec_init_of_unsupported {mode : ReceiverMode} {s : State} (hh : hdtOk s.hdt = true)
    (hm : mode ∉ s.hdt.supportedModes) :
    exec (.init mode) s = raiseErr .invalidCountryBand s := by
  simp [exec, execInit_eq, underHdt, hh, hm]

section Supported

variable {mode : ReceiverMode} {s u : State} (hh : hdtOk s.hdt = true)
  (hm : mode ∈ s.hdt.supportedModes)

include hh hm

theorem exec_init_of_supported : exec (.init mode) s = initFromReset mode (initStart mode s) := by
  simp [exec, execInit_eq, underHdt, hh, hm]

theorem exec_init_of_clock_ok
    (hu : adcConfigure s.hdt.adc.clkInit (initSetUp mode s) = (.ok (), u)) :
    exec (.init mode) s = finish (.ok ()) (setInitialized u) := by
  rw [← initSetUp_hdt mode s, initSetUp] at hu
  simp only [exec_init_of_supported hh hm, initFromReset, hu, finish]

theorem exec_init_of_clock_error {e : ErrorCode}
    (hu : adcConfigure s.hdt.adc.clkInit (initSetUp mode s) = (.error e, u)) :
    exec (.init mode) s = finish (.error e) u := by
  rw [← initSetUp_hdt mode s, initSetUp] at hu
  simp only [exec_init_of_supported hh hm, initFromReset, hu, finish]

end Supported

theorem adcConfigure_unsupported {clk : AdcClockType} {s : State} (hne : s.ctx.adcClk ≠ some clk)
    (ht : adcTuple s.hdt s.ctx.xtal clk = none) :
    adcConfigure clk s = (.error .unsupportedAdcClock, s) := by
  simp [adcConfigure, hne, ht]

/-- Settles O21: the check of the mode, then each way in which the clock's configuration fails. -/
theorem initFailures : Obligations.InitFailures := by
  refine fun mode s hh => ⟨exec_init_of_unsupported hh, fun hm ht => ?_,
    fun t lo rest hm ht hl hlo hs => ?_⟩
  · rw [exec_init_of_clock_error hh hm (adcConfigure_unsupported (by simp) (by simpa using ht))]
    exact finish_after (ctlView_initSetUp mode s) (.error .unsupportedAdcClock)
  · obtain ⟨u, hu, hv⟩ := adcConfigure_unlocked lo rest (initSetUp mode s) (t := t) (by simp)
      (by simpa using ht) hl (by simpa using hlo) (by simpa using hs)
    rw [exec_init_of_clock_error hh hm hu]
    refine finish_after ?_ (.error .adcClockUnlocked)
    rw [hv, initSetUp_hdt, core_initSetUp, ctlView_initSetUp]
    simp [CtlView.ran, initContext, Session.fresh]

/-! ### A getter command within `INIT` (R402) -/

/-- The getter agent's next move is to refuse a getter command, and one is due at the next interleaving
point. -/
structure AwaitsRefusal (s : State) : Prop where
  closed : s.ctx.initialized = false
  idle : s.getter = none
  command : ∃ i c rest, decode s.inbox = .ok (i, rest) ∧ getterCmd i = some c
  due : ∃ n ns, s.sched = (n + 1) :: ns

theorem AwaitsRefusal.interleave {s : State} (h : AwaitsRefusal s) :
    (interleave s).getterRefused = true := by
  obtain ⟨i, c, rest, hd, hc⟩ := h.command
  obtain ⟨n, ns, hs⟩ := h.due
  simp only [Machine.interleave, hs, getterMoves]
  refine (grows_getterMoves n _).refused ?_
  rw [getterMove_of_command (s := { s with sched := ns }) h.idle hd hc]
  simp [h.closed]

/-- The first port call leaves the refusal pending, and so it stays. -/
theorem Quiet.refused_or_uncalled {s u : State} (h : Quiet ClockOnly s u) (ha : AwaitsRefusal s) :
    u.getterRefused = true ∨ AwaitsRefusal u ∧ eventsOf .control u = eventsOf .control s := by
  induction h with
  | refl => exact .inr ⟨ha, rfl⟩
  | @call u op _ ih =>
    refine .inl ?_
    rcases ih with hr | ⟨hu, -⟩
    · exact (grows_call op u).refused hr
    · exact (grows_perform .control op _).refused hu.interleave
  | @write u c hc _ ih =>
    refine ih.imp id fun ⟨hu, he⟩ => ⟨⟨?_, hu.idle, hu.command, hu.due⟩, he⟩
    rw [hc]
    exact hu.closed

theorem awaitsRefusal_initStart {mode : ReceiverMode} {s : State} {n : Nat} {ns : List Nat} {i : Instr}
    {c : GetterCmd} {rest : List Byte} (hg : s.getter = none) (hs : s.sched = 0 :: (n + 1) :: ns)
    (hd : decode s.inbox = .ok (i, rest)) (hc : getterCmd i = some c) :
    AwaitsRefusal (initStart mode s) := by
  have hi : initStart mode s
      = { s with sched := (n + 1) :: ns, ctx := initContext s.hdt mode } := by
    simp [initStart, interleave, hs, getterMoves]
  rw [hi]
  exact ⟨rfl, hg, ⟨i, c, rest, hd, hc⟩, n, ns, rfl⟩

/-- With no getter move scheduled the level that `INIT` resets stays 0. -/
theorem antLevel_initSetUp_adcConfigure (mode : ReceiverMode) (clk : AdcClockType) {s : State}
    (hs : s.sched = []) : (adcConfigure clk (initSetUp mode s)).2.ctx.antLevel = 0 := by
  have hk : KeepsLevel (initStart mode s) (adcConfigure clk (initSetUp mode s)).2 :=
    controlClosed_keepsLevel.trans (controlClosed_keepsLevel.doAction _ _)
      (controlClosed_keepsLevel.adcConfigure clk _)
  obtain ⟨-, hl⟩ := hk (by rw [initStart, interleave_of_no_sched hs]; exact hs)
  exact hl

theorem ctlView_setInitialized (s : State) : ctlView (setInitialized s)
    = { ctlView s with core := { (ctlView s).core with initialized := true } } := rfl

/-- Settles O20: the clock's configuration under its answers. Its tuple writes are port calls, so a
getter command that awaited its refusal has met one. -/
theorem initOpensSession : Obligations.InitOpensSession := by
  intro mode s t lo rest b hh hm ht hl hlo hb hs
  obtain ⟨u, hu, hv⟩ := adcConfigure_ok lo b rest (initSetUp mode s) (t := t) (by simp)
    (by simpa using ht) hl (by simpa using hlo) (by simpa using hb) (by simpa using hs)
  rw [initSetUp_hdt, core_initSetUp, ctlView_initSetUp] at hv
  have hq := quiet_initSetUp_adcConfigure mode s.hdt.adc.clkInit s
  have hlevel := antLevel_initSetUp_adcConfigure mode s.hdt.adc.clkInit (s := s)
  rw [hu] at hq hlevel
  refine ⟨_, exec_init_of_clock_ok hh hm hu, ?_, hlevel, fun n ns i c more hg hsched hd hc => ?_⟩
  · rw [ctlView_reply_control, ctlView_setInitialized, hv]
    simp [CtlView.ran, CtlView.after, initContext]
  · refine (hq.refused_or_uncalled (awaitsRefusal_initStart hg hsched hd hc)).resolve_right ?_
    rintro ⟨-, he⟩
    have hstart : eventsOf .control (initStart mode s) = eventsOf .control s :=
      congrArg CtlView.events (ctlView_initStart mode s)
    have hend := (congrArg CtlView.events hv).symm.trans (he.trans hstart)
    simp [CtlView.ran, ctlView, tupleEvents] at hend

end Sys2Proof.Machine

namespace Sys2Proof.Machine

/-! ### The clock type is current, or unsupported (R500, R510) -/

theorem adcConfigure_current {clk : AdcClockType} {s : State} (hc : s.ctx.adcClk = some clk) :
    adcConfigure clk s = (.ok (), s) := if_pos hc

theorem adcChangeClock_current {clk : AdcClockType} {s : State} (hc : s.ctx.adcClk = some clk) :
    adcChangeClock clk s = (.ok (), s) := if_pos hc

theorem adcChangeClock_unsupported {clk : AdcClockType} {s : State} (hne : s.ctx.adcClk ≠ some clk)
    (ht : adcTuple s.hdt s.ctx.xtal clk = none) :
    adcChangeClock clk s = (.error .unsupportedAdcClock, s) := by
  simp [adcChangeClock, hne, ht]

/-- Settles O23: the procedure answers at once, and its result is the reply. -/
theorem adcShortCircuitAndUnsupported : Obligations.AdcShortCircuitAndUnsupported := by
  intro mode clk s hr
  rw [exec_adcConfigure hr, exec_adcChangeClock hr]
  refine ⟨fun hc => ?_, fun hne ht => ?_⟩
  · rw [adcConfigure_current hc, adcChangeClock_current hc]
    exact ⟨rfl, rfl⟩
  · rw [adcConfigure_unsupported hne ht, adcChangeClock_unsupported hne ht]
    exact ⟨rfl, rfl⟩

/-! ### `SET_FREQ` by the way its tune ends (R600, R640) -/

/-- Settles O27: the three tunes that end before the PLL is programmed. -/
theorem setFreqEarlyErrors : Obligations.SetFreqEarlyErrors := by
  refine fun mode ch f s hr => ⟨fun e hp => ?_, fun clk n hp hne => ⟨fun ht => ?_,
    fun t lo rest ht hl hlo hs => ?_⟩⟩
  · exact exec_setFreq_of_tune hr (.lookup e hp) rfl
  · exact exec_setFreq_of_tune hr (.unsupported clk n hp hne ht) rfl
  · exact exec_setFreq_of_tune hr (.adcUnlocked clk n t lo hp hne ht hl hlo) hs

/-- Settles O29: the tune whose ADC step configures the clock and whose PLL locks. -/
theorem setFreqReclocksThenTunes : Obligations.SetFreqReclocksThenTunes := by
  intro mode ch f s clk n t alo ab bad good lo rest b hr hp hne ht hal halo hab hbl hbad hgood hl hlo
    hb hs
  have hT := Tune.pll clk n _ _ _ _ _ hp (.locks t alo ab hne ht hal halo hab)
    (.tuned bad good lo b hbl hbad hgood hl hlo hb)
  obtain ⟨u, he, hv⟩ := exec_setFreq_of_tune hr hT (rest := rest) (by simp [hs])
  exact ⟨u, he, by rw [hv]; simp [resultReply, prevFreqAfter]⟩

/-- Settles O30: the two ways in which the PLL does not lock. -/
theorem setFreqPllTimeouts : Obligations.SetFreqPllTimeouts := by
  refine fun mode ch f s clk n as es bad good lo rest hr hp hA hbad => ⟨fun hl hgood hs => ?_,
    fun hl hgood hll hlo hs => ?_⟩
  · exact exec_setFreq_of_tune hr (.pll clk n as _ es _ _ hp hA
      (.mismatch bad good hl (List.forall_mem_cons.2 ⟨hgood, hbad⟩))) (by simpa using hs)
  · exact exec_setFreq_of_tune hr (.pll clk n as _ es _ _ hp hA
      (.unlocked bad good lo hl hbad hgood hll hlo)) (by simpa using hs)

/-! ### The fields a clock command and a tune write (R500, R510, R600) -/

theorem Quiet.core_eq {s u : State} (h : Quiet ClockOnly s u) :
    core u.ctx = { core s.ctx with adcClk := u.ctx.adcClk } := by
  obtain ⟨es, as, clk, hv⟩ := h.ctlView_eq
  have hc : core u.ctx = { core s.ctx with adcClk := clk } := congrArg CtlView.core hv
  have hclk : u.ctx.adcClk = clk := (congrArg Session.adcClk hc :)
  rw [hc, hclk]

theorem core_setCcip (v : Bool) (s : State) :
    core (setCcip v s).ctx = { core s.ctx with ccip := v } :=
  congrArg CtlView.core (ctlView_setCcip v s)

theorem nextMeets_finish {P : State → Prop} {r : Except ErrorCode Unit} {s : State}
    (h : P (reply .control (resultReply r) s)) : NextMeets P (finish r s) := by
  rw [finish_eq]
  exact nextMeets_next h

theorem prevFreqAfter_cases (r : Except ErrorCode Unit) (f prev : Nat) :
    prevFreqAfter r f prev = f ∨ prevFreqAfter r f prev = 0 ∨ prevFreqAfter r f prev = prev := by
  unfold prevFreqAfter
  split <;> simp

theorem exec_adcConfigure_frame (mode : ReceiverMode) (clk : AdcClockType) (s : State) :
    NextMeets (fun t => core t.ctx = { core s.ctx with adcClk := t.ctx.adcClk })
      (exec (.adcConfigure mode clk) s) :=
  nextMeets_inSession (nextMeets_finish (Quiet.refl.adcConfigure (fun _ _ => rfl) clk).core_eq)

theorem exec_adcChangeClock_frame (mode : ReceiverMode) (clk : AdcClockType) (s : State) :
    NextMeets (fun t => core t.ctx = { core s.ctx with adcClk := t.ctx.adcClk })
      (exec (.adcChangeClock mode clk) s) :=
  nextMeets_inSession (nextMeets_finish (Quiet.refl.adcChangeClock (fun _ _ => rfl) clk).core_eq)

/-- What `SET_FREQ f` writes of the context. -/
def TuneFrame (f : Nat) (s t : State) : Prop :=
  core t.ctx = { core s.ctx with
      adcClk := t.ctx.adcClk, prevFreq := t.ctx.prevFreq, ccip := false }
    ∧ (t.ctx.prevFreq = f ∨ t.ctx.prevFreq = 0 ∨ t.ctx.prevFreq = s.ctx.prevFreq)

theorem tuneFrame_of_core {s t : State} {f p : Nat} {clk : Option AdcClockType}
    (h : core t.ctx = { core s.ctx with adcClk := clk, prevFreq := p, ccip := false })
    (hp : p = f ∨ p = 0 ∨ p = s.ctx.prevFreq) : TuneFrame f s t := by
  have hf : t.ctx.prevFreq = p := (congrArg Session.prevFreq h :)
  have hclk : t.ctx.adcClk = clk := (congrArg Session.adcClk h :)
  subst hf hclk
  exact ⟨h, hp⟩

/-- After the flag is raised: writes of the clock type, one of the previous frequency, the flag
lowered. -/
theorem tuneFrame_lowered {s u : State} (hq : Quiet ClockOnly (setCcip true s) u)
    (r : Except ErrorCode Unit) (f : Nat) :
    TuneFrame f s (setCcip false (updatePrevFreq r f u)) := by
  have hu : core u.ctx = { core s.ctx with adcClk := u.ctx.adcClk, ccip := true } := by
    rw [hq.core_eq, core_setCcip]
  have hprev : u.ctx.prevFreq = s.ctx.prevFreq := (congrArg Session.prevFreq hu :)
  have hw : core (updatePrevFreq r f u).ctx
      = { core u.ctx with prevFreq := prevFreqAfter r f u.ctx.prevFreq } := rfl
  exact tuneFrame_of_core (by rw [core_setCcip, hw, hu, hprev])
    (prevFreqAfter_cases r f s.ctx.prevFreq)

theorem exec_setFreq_frame (mode : ReceiverMode) (ch f : Nat) (s : State) :
    NextMeets (TuneFrame f s) (exec (.setFreq mode ch f) s) :=
  nextMeets_inSession (nextMeets_finish
    (tuneFrame_lowered (Quiet.refl.synthSetFrequency (fun _ _ => rfl) mode ch f) _ f))

/-- Settles O32: the commands one by one. -/
theorem clockAndTuneFrame : Obligations.ClockAndTuneFrame :=
  fun s t => ⟨fun mode clk ht => ht.elim (exec_adcConfigure_frame mode clk s t)
    (exec_adcChangeClock_frame mode clk s t), fun mode ch f ht => exec_setFreq_frame mode ch f s t ht⟩

/-! ### Closing all and tuning, then binding afresh (R700, R715, R720) -/

theorem isDabMode_iff {mode : ReceiverMode} :
    isDabMode mode = true ↔ mode = .tdmb ∨ mode = .dabBand3 ∨ mode = .dabLband := by
  cases mode <;> simp [isDabMode]

theorem exec_openSubch_of_retune {f id thr : Nat} {svc : ServiceType} {s : State} (hr : Ready s)
    (ha : OpenAdmitted s id thr) (hf : ¬AtTunedFreq s f) :
    exec (.openSubch f id svc thr) s = openRetune f id svc thr s := by
  obtain ⟨hid, hthr, hmode⟩ := ha
  refine (inSession_of_ready hr _).trans ?_
  rw [if_neg (by simpa [numIds] using hid), if_neg (fun h => by have := hthr h.1; omega),
    if_neg (by simp [isDabMode_iff.2 hmode]), if_neg hf]

theorem restoreStream_ran (s : State) :
    ctlView (restoreStream s) = { (ctlView s).ran (restoreEvents s.hdt s.ctx.streamSuspended)
      s.ctlAnswers with core := { core s.ctx with streamSuspended := false } } := by
  unfold restoreStream restoreEvents
  split
  · have h := doAction_ran s.hdt.alloc.streamOn s
    have hw : ∀ u : State, ctlView { u with ctx := { u.ctx with streamSuspended := false } }
        = { ctlView u with core := { core u.ctx with streamSuspended := false } } := fun _ => rfl
    rw [hw, core_of_ran h, h]
  · rename_i hn
    rw [Bool.not_eq_true] at hn
    have hc : ({ core s.ctx with streamSuspended := false } : Session) = core s.ctx := by
      rw [← hn]; rfl
    rw [hc]
    simp [CtlView.ran, ctlView]

/-- The first binding of a service takes slot 0, or the first data slot (R720). -/
def firstSlot (svc : ServiceType) : Nat := if svc = .data then 1 else 0

theorem targetSlot_of_noBindings {h : Hdt} {c : Session} (hh : hdtOk h = true) (hn : NoBindings c)
    (svc : ServiceType) : TargetSlot h c svc (firstSlot svc) := by
  obtain ⟨-, -, -, hslots, -⟩ := hn
  cases svc with
  | data => exact ⟨le_rfl, (numDataSlots_of_hdtOk hh).1, by simp [slotBound, hslots, firstSlot],
      fun k h1 hk => absurd hk (Nat.not_lt.2 h1)⟩
  | _ => rfl

theorem firstFreeEntry_of_noBindings {h : Hdt} {c : Session} (hn : NoBindings c) :
    FirstFreeEntry h c 0 :=
  ⟨by unfold maxBindings; split <;> omega, hn.1 0, fun k hk => absurd hk (Nat.not_lt_zero k)⟩

theorem groupEmpty_of_noBindings {h : Hdt} {c : Session} (hn : NoBindings c) (g : Group) :
    groupEmpty h c g = true := by
  obtain ⟨-, -, -, hslots, -⟩ := hn
  simp [groupEmpty, slotBound, hslots]

/-- Where nothing is bound, a bind makes a first binding of its group as entry 0. -/
theorem bind_of_noBindings (id : Nat) (svc : ServiceType) (thr : Nat) {s : State}
    (hh : hdtOk s.hdt = true) (hn : NoBindings s.ctx) :
    ∃ t, bind id svc thr s = .ok t
      ∧ ctlView t = { (ctlView s).ran (bindEvents s.hdt (firstSlot svc) id svc thr true)
            s.ctlAnswers with
          core := bindStep 0 ⟨id, firstSlot svc, svc, thr⟩ (core s.ctx) } := by
  have h := bind_spec id thr s rfl (firstFreeEntry_of_noBindings hn)
    (targetSlot_of_noBindings hh hn svc)
  rwa [groupEmpty_of_noBindings hn] at h

/-- A bind step commutes with writes of the fields outside the allocator. -/
theorem bindStep_write (e : Nat) (b : Binding) (c : Session) (clk : Option AdcClockType) (f : Nat)
    (flag : Bool) :
    bindStep e b { c with adcClk := clk, prevFreq := f, ccip := flag }
      = { bindStep e b c with adcClk := clk, prevFreq := f, ccip := flag } := by
  unfold bindStep updIdMask
  dsimp only
  split
  · rfl
  · split <;> rfl

theorem SameButAllocator.prevFreq_eq {c c' : Session} (h : SameButAllocator c c') :
    c'.prevFreq = c.prevFreq := (congrArg Session.prevFreq h :)

theorem SameButAllocator.streamSuspended_eq {c c' : Session} (h : SameButAllocator c c') :
    c'.streamSuspended = c.streamSuspended := (congrArg Session.streamSuspended h :)

/-- The end of an open where nothing is bound: the binding, the stream restored, the flag down. -/
theorem bindAndReturn_of_noBindings {id : Nat} (svc : ServiceType) (thr : Nat) {s : State}
    (hh : hdtOk s.hdt = true) (hn : NoBindings s.ctx) :
    ∃ u, bindAndReturn id svc thr (setCcip false) s = .next u
      ∧ ctlView u = (ctlView s).after
          { bindStep 0 ⟨id, firstSlot svc, svc, thr⟩ (core s.ctx) with
            streamSuspended := false, ccip := false }
          s.ctlAnswers
          (bindEvents s.hdt (firstSlot svc) id svc thr true
            ++ restoreEvents s.hdt s.ctx.streamSuspended) .ok := by
  obtain ⟨t, hb, hv⟩ := bind_of_noBindings id svc thr hh hn
  refine ⟨_, by simp only [bindAndReturn, hb]; rfl, ?_⟩
  have hd : t.hdt = s.hdt := congrArg CtlView.hdt hv
  have ha : t.ctlAnswers = s.ctlAnswers := congrArg CtlView.answers hv
  have hc : core t.ctx = bindStep 0 ⟨id, firstSlot svc, svc, thr⟩ (core s.ctx) :=
    congrArg CtlView.core hv
  have hss : t.ctx.streamSuspended = s.ctx.streamSuspended :=
    (congrArg Session.streamSuspended hc).trans (bindStep_same _ _ _).streamSuspended_eq
  have hr := restoreStream_ran t
  rw [hd, ha, hc, hss, hv] at hr
  have hcr := congrArg CtlView.core hr
  rw [ctlView_reply_control, ctlView_setCcip, hr, show core (restoreStream t).ctx = _ from hcr]
  simp [CtlView.ran, CtlView.after]

theorem noBindings_of_core {s : State} {c : Session} {clk : Option AdcClockType} {f : Nat} {b : Bool}
    (hc : core s.ctx = { c with adcClk := clk, prevFreq := f, ccip := b }) (hn : NoBindings c) :
    NoBindings s.ctx := by
  have h : NoBindings (core s.ctx) := by
    rw [hc]
    exact hn
  exact h

theorem openRetune_of_tune_ok {f id thr : Nat} {svc : ServiceType} {s u t : State}
    (hclose : closeAllBindings (setCcip true s) = .ok u)
    (htune : synthSetFrequency u.ctx.mode 0 f u = (.ok (), t)) :
    openRetune f id svc thr s
      = bindAndReturn id svc thr (setCcip false) (updatePrevFreq (.ok ()) f t) := by
  simp only [openRetune, hclose, htune]

theorem openRetune_of_tune_error {f id thr : Nat} {svc : ServiceType} {s u t : State} {e : ErrorCode}
    (hclose : closeAllBindings (setCcip true s) = .ok u)
    (htune : synthSetFrequency u.ctx.mode 0 f u = (.error e, t)) :
    openRetune f id svc thr s = raiseErr e (setCcip false (updatePrevFreq (.error e) f t)) := by
  simp only [openRetune, hclose, htune]

/-- The beginning of a re-tuning open: the closings, the tune, the previous frequency recorded. -/
theorem closeTuneAndRecord_ran {f : Nat} {as : List Byte} {es : List Event}
    {clk : Option AdcClockType} {r : Except ErrorCode Unit} (s : State) (hi : AllocInv s.hdt s.ctx)
    (hT : Tune s.hdt s.ctx s.ctx.mode 0 f as es clk r) (rest : List Byte)
    (hs : s.ctlAnswers = as ++ rest) :
    ∃ u t c, closeAllBindings (setCcip true s) = .ok u
      ∧ synthSetFrequency u.ctx.mode 0 f u = (r, t)
      ∧ SameButAllocator (core s.ctx) c ∧ NoBindings c
      ∧ ctlView (updatePrevFreq r f t)
        = { (ctlView s).ran (closeEvents s.hdt (liveById s.ctx) ++ es) rest with
            core := { c with
              adcClk := clk, prevFreq := prevFreqAfter r f s.ctx.prevFreq, ccip := true } } := by
  obtain ⟨u, t, c, hclose, htune, hsame, hn, -, hv⟩ := closeAndTune_ran s hi hT rest hs
  have hct : core t.ctx = { c with ccip := true, adcClk := clk } := congrArg CtlView.core hv
  have hp : t.ctx.prevFreq = s.ctx.prevFreq :=
    (congrArg Session.prevFreq hct).trans hsame.prevFreq_eq
  refine ⟨u, t, c, hclose, htune, hsame, hn, ?_⟩
  rw [ctlView_updatePrevFreq, hct, hp, hv]

/-- Settles O40: closing and tuning leave nothing bound, so the bind is a first one. -/
theorem openRetunes : Obligations.OpenRetunes := by
  intro f id svc thr s as rest es clk hr hi ha hf hT hs
  obtain ⟨u, t, c, hclose, htune, hsame, hn, hw⟩ := closeTuneAndRecord_ran s hi hT rest hs
  rw [exec_openSubch_of_retune hr ha hf, openRetune_of_tune_ok hclose htune]
  generalize updatePrevFreq (.ok ()) f t = w at hw
  have hcw : core w.ctx = { c with adcClk := clk, prevFreq := f, ccip := true } :=
    congrArg CtlView.core hw
  have hdw : w.hdt = s.hdt := congrArg CtlView.hdt hw
  have haw : w.ctlAnswers = rest := congrArg CtlView.answers hw
  have hss : w.ctx.streamSuspended = s.ctx.streamSuspended :=
    (congrArg Session.streamSuspended hcw).trans hsame.streamSuspended_eq
  obtain ⟨x, hx, hvx⟩ := bindAndReturn_of_noBindings (id := id) svc thr (by rw [hdw]; exact hr.2)
    (noBindings_of_core hcw hn)
  rw [hcw, bindStep_write, hdw, haw, hss, hw] at hvx
  refine ⟨x, bindStep 0 ⟨id, firstSlot svc, svc, thr⟩ c, c, hn, hx, hsame.trans (bindStep_same _ _ _),
    bindStep_boundAlso c (by decide) ha.1 (by unfold firstSlot; split <;> simp), ?_⟩
  rw [hvx]
  simp [CtlView.ran, CtlView.after, firstSlot]

theorem prevFreqAfter_error (e : ErrorCode) (f prev : Nat) : prevFreqAfter (.error e) f prev
    = if e = .adcClockUnlocked ∨ e = .pllUnlocked then 0 else prev := by
  cases e <;> rfl

/-- Settles O41: every way in which the tune fails ends in `raiseErr`, with nothing bound. -/
theorem openRetuneFailures : Obligations.OpenRetuneFailures := by
  intro f id svc thr s as rest es clk e hr hi ha hf hT hs
  obtain ⟨u, t, c, hclose, htune, hsame, hn, hw⟩ := closeTuneAndRecord_ran s hi hT rest hs
  rw [exec_openSubch_of_retune hr ha hf, openRetune_of_tune_error hclose htune]
  have hcw : core (updatePrevFreq (.error e) f t).ctx = _ := congrArg CtlView.core hw
  refine ⟨_, c, rfl, hsame, hn, ?_⟩
  rw [ctlView_reply_control, ctlView_setCcip, hcw, hw, prevFreqAfter_error]
  rfl

/-! ### A scan by the way its tune ends (R800, R801) -/

theorem exec_scanFreq_of_otherMode {f : Nat} {s : State} (hr : Ready s)
    (hm : isDabMode s.ctx.mode = false) :
    exec (.scanFreq f) s = returnVerdict .invalidMode f s :=
  (inSession_of_ready hr _).trans (if_pos hm)

theorem exec_scanFreq_of_closed {f : Nat} {s u : State} (hr : Ready s)
    (hm : isDabMode s.ctx.mode = true) (hclose : closeAllBindings (setCcip true s) = .ok u) :
    exec (.scanFreq f) s = returnVerdict (scanTuned f u).1 f (setCcip false (scanTuned f u).2) := by
  refine (inSession_of_ready hr _).trans ?_
  rw [if_neg (by simp [hm])]
  simp only [hclose]

theorem scanTuned_of_tune_error {f : Nat} {u t : State} {e : ErrorCode}
    (ht : synthSetFrequency u.ctx.mode 0 f u = (.error e, t)) : scanTuned f u = (scanMap e, t) := by
  simp only [scanTuned, ht]

theorem scanTuned_of_tune_ok {f : Nat} {u t : State}
    (ht : synthSetFrequency u.ctx.mode 0 f u = (.ok (), t)) :
    scanTuned f u = scanPoll 10000 (softReset t.ctx.mode t) := by
  simp only [scanTuned, ht, scanPolls]

/-- The end of a scan: the flag down, the frequency recorded, the verdict replied. -/
theorem returnVerdict_lowered (v : ScanVerdict) (f : Nat) {w : State} {c : Session}
    {clk : Option AdcClockType} (hw : core w.ctx = { c with ccip := true, adcClk := clk }) :
    ∃ u, returnVerdict v f (setCcip false w) = .next u
      ∧ ctlView u = { ctlView w with
          core := { c with adcClk := clk, prevFreq := f, ccip := false }
          replies := (ctlView w).replies ++ [.verdict v] } := by
  refine ⟨_, rfl, ?_⟩
  have hp : ctlView (setPrevFreq f (setCcip false w)) = { ctlView (setCcip false w) with
      core := { core (setCcip false w).ctx with prevFreq := f } } := rfl
  rw [ctlView_reply_control, hp, core_setCcip, ctlView_setCcip, hw]

/-- Settles O46: the tune's error is the scan's verdict. -/
theorem scanMapsTuneErrors : Obligations.ScanMapsTuneErrors := by
  intro f s as rest es clk e v hr hi hm hT hs hev
  obtain ⟨u, t, c, hclose, htune, hsame, hn, -, hv⟩ := closeAndTune_ran s hi hT rest hs
  have hve : v = scanMap e := by
    rcases hev with ⟨rfl, rfl⟩ | ⟨rfl, rfl⟩ | ⟨rfl, rfl⟩ | ⟨rfl, rfl⟩ <;> rfl
  rw [exec_scanFreq_of_closed hr (isDabMode_iff.2 hm) hclose, scanTuned_of_tune_error htune, ← hve]
  obtain ⟨x, hx, hvx⟩ := returnVerdict_lowered v f (congrArg CtlView.core hv)
  refine ⟨x, c, hx, hsame, hn, ?_⟩
  rw [hvx, hv]
  rfl

/-- A scan whose tune succeeds: the second reset, with the flag up, then the poll. -/
theorem exec_scanFreq_of_tune_ok {f : Nat} {s : State} {as rest : List Byte} {es : List Event}
    {clk : Option AdcClockType} (hr : Ready s) (hi : AllocInv s.hdt s.ctx)
    (hm : isDabMode s.ctx.mode = true) (hT : Tune s.hdt s.ctx s.ctx.mode 0 f as es clk (.ok ()))
    (hs : s.ctlAnswers = as ++ rest) :
    ∃ u t c, SameButAllocator (core s.ctx) c ∧ NoBindings c
      ∧ ctlView t = { (ctlView s).ran (closeEvents s.hdt (liveById s.ctx) ++ es
          ++ resetEvents s.hdt s.ctx.mode) rest with
            core := { c with ccip := true, adcClk := clk } }
      ∧ exec (.scanFreq f) s = .next u
      ∧ ctlView u = { ctlView (scanPoll 10000 t).2 with
          core := { c with adcClk := clk, prevFreq := f, ccip := false }
          replies := (ctlView s).replies ++ [.verdict (scanPoll 10000 t).1] } := by
  obtain ⟨u, t, c, hclose, htune, hsame, hn, -, hv⟩ := closeAndTune_ran s hi hT rest hs
  have hct : core t.ctx = { c with ccip := true, adcClk := clk } := congrArg CtlView.core hv
  have hd : t.hdt = s.hdt := congrArg CtlView.hdt hv
  have ha : t.ctlAnswers = rest := congrArg CtlView.answers hv
  have hmode : t.ctx.mode = s.ctx.mode :=
    (congrArg Session.mode hct).trans hsame.sameSession.mode
  have hreset := softReset_ran t.ctx.mode t
  rw [hd, ha, hmode, hv] at hreset
  rw [exec_scanFreq_of_closed hr hm hclose, scanTuned_of_tune_ok htune, hmode]
  generalize softReset s.ctx.mode t = x at hreset
  obtain ⟨-, fs, bs, hpoll⟩ := scanPoll_any 10000 x
  have hcw : core (scanPoll 10000 x).2.ctx = { c with ccip := true, adcClk := clk } :=
    (core_of_ran hpoll).trans (congrArg CtlView.core hreset)
  have hrep : (ctlView (scanPoll 10000 x).2).replies = (ctlView s).replies :=
    (congrArg CtlView.replies hpoll).trans (congrArg CtlView.replies hreset :)
  obtain ⟨y, hy, hvy⟩ := returnVerdict_lowered (scanPoll 10000 x).1 f hcw
  rw [hrep] at hvy
  exact ⟨y, x, c, hsame, hn, by rw [hreset]; simp [CtlView.ran], hy, hvy⟩

/-! ### A scan that finds its channel (R810 to R816) -/

/-- A poll that meets "signal" hands the power read with it to the classifier (R810). -/
theorem scanPoll_signal {und : List Read3} {last : Read3} {rest : List Byte} {n : Nat} {s : State}
    (hl : und.length < n) (hu : ∀ r ∈ und, r.h ∉ s.hdt.scan.notSignal ∧ r.h ∉ s.hdt.scan.signal)
    (hn : last.h ∉ s.hdt.scan.notSignal) (hy : last.h ∈ s.hdt.scan.signal)
    (hs : s.ctlAnswers = readBytes und ++ last.bytes ++ rest) :
    ∃ t, scanPoll n s = classify (last.m.toNat * 256 + last.l.toNat) t
      ∧ ctlView t = (ctlView s).ran
          (undecidedEvents s.hdt und ++ rd24Events (scanRegs s.hdt) last) rest := by
  obtain ⟨k, rfl⟩ : ∃ k, n = und.length + (k + 1) := ⟨n - und.length - 1, by omega⟩
  obtain ⟨u, hgo, hvu⟩ := scanPoll_undecided und (k + 1) s (last.bytes ++ rest) hu (by simp [hs])
  obtain ⟨v, hvv, hstep⟩ := scanPoll_step k u last rest (answers_of_ran hvu)
  rw [hdt_of_ran hvu] at hvv hstep
  refine ⟨v, ?_, by rw [hvv, hvu, CtlView.ran_ran]⟩
  rw [hgo, hstep, if_neg (by simpa using hn), if_pos (by simpa using hy)]

/-- Phase g on readings that pass, up to the lock wait's success (R814 to R816). -/
theorem phaseG_accepts {tm : Fin 4} {g limit n unl : Nat} {waiting : List StateReads}
    {last : StateReads} {polls : List Byte} {lock : Byte} (rest : List Byte) {s : State}
    (hn : waiting.length < n) (hw : ∀ x ∈ waiting, x.Pass s.hdt tm g ∧ x.count.toNat ≤ 1)
    (hx : last.Pass s.hdt tm g) (hc : 1 < last.count.toNat)
    (hlim : unl + unlocks s.hdt (waiting ++ [last]) < limit) (hp : polls.length < 50)
    (hclear : AllClear (ofdmLockBit s.hdt) polls) (hlock : bitOf (ofdmLockBit s.hdt).pos lock = true)
    (hs : s.ctlAnswers = waiting.flatMap StateReads.bytes ++ last.bytes ++ (polls ++ [lock]) ++ rest) :
    ∃ u, phaseG tm g limit n unl s = (.success, u)
      ∧ ctlView u = (ctlView s).ran (waiting.flatMap (StateReads.events s.hdt) ++ last.events s.hdt
          ++ lockWaitEvents s.hdt (polls ++ [lock])) rest := by
  have hsum : unlocks s.hdt (waiting ++ [last]) = unlocks s.hdt waiting + unlocks s.hdt [last] :=
    List.countP_append
  obtain ⟨k, rfl⟩ : ∃ k, n = waiting.length + (k + 1) := ⟨n - waiting.length - 1, by omega⟩
  obtain ⟨u, hvu, hgo⟩ := phaseG_goesOn tm g limit (k + 1) unl waiting s
    (last.bytes ++ (polls ++ lock :: rest)) hw (by omega) (by simp [hs])
  have hhu := hdt_of_ran hvu
  obtain ⟨v, hvv, hstep⟩ := phaseG_step tm g limit k (unl + unlocks s.hdt waiting) u last
    (polls ++ lock :: rest) (by rwa [hhu]) (by rw [hhu]; omega) (answers_of_ran hvu)
  have hhv := (hdt_of_ran hvv).trans hhu
  obtain ⟨w, hwait, hvw⟩ := lockWait_hit lockwaitIters polls lock rest v hp (by rwa [hhv])
    (by rwa [hhv]) (answers_of_ran hvv)
  refine ⟨w, by rw [hgo, hstep, if_pos hc, hwait], ?_⟩
  rw [hvw, hvv, hvu, hhv, hhu]
  simp

/-- The classifier accepts a good channel, by phase f's fifteen readings and phase g (R811 to R816). -/
theorem classify_good {pw : Nat} {s : State} {tm : Fin 4} {r : ChannelReads} {rest : List Byte}
    (hg : r.Good s.hdt tm pw) (hs : s.ctlAnswers = r.bytes ++ rest) :
    ∃ u, classify pw s = (.success, u) ∧ ctlView u = (ctlView s).ran (r.events s.hdt) rest := by
  obtain ⟨hgate, ⟨hlen, hstable⟩, ⟨h14, h15⟩, ⟨hwl, hw⟩, ⟨hlast, hcount⟩, hunl, hpl, hclear,
    hlock⟩ := hg
  obtain ⟨u, hvu, -, hacc⟩ := classify_lastReading pw s
    (r.waiting.flatMap StateReads.bytes ++ r.last.bytes ++ (r.polls ++ [r.lock]) ++ rest) hgate hstable
    (by simp [hs, ChannelReads.bytes]) (.inr ⟨hlen, h14⟩)
  have hh := hdt_of_ran hvu
  obtain ⟨v, hphase, hvv⟩ := phaseG_accepts (n := 100) (unl := 0) rest (s := u) (by omega)
    (by rwa [hh]) (by rwa [hh]) hcount (by rwa [hh, Nat.zero_add]) hpl (by rwa [hh]) (by rwa [hh])
    (answers_of_ran hvu)
  refine ⟨v, (hacc hlen h15).trans hphase, ?_⟩
  rw [hvv, hvu, hh]
  simp [ChannelReads.events]

/-- No status byte is both "signal" and "not a signal" (R12). -/
theorem not_mem_notSignal_of_signal {h : Hdt} (hh : hdtOk h = true) {b : Byte}
    (hb : b ∈ h.scan.signal) : b ∉ h.scan.notSignal := by
  obtain ⟨hdisjoint, -⟩ := (hdtChecksAreThoseOfTheSpec h).1 hh
  exact fun hn => hdisjoint b ⟨hn, hb⟩

/-- Settles O47: the poll's "signal", then the classifier's acceptance. -/
theorem scanSucceeds : Obligations.ScanSucceeds := by
  intro f s as rest es clk und last tm r hr hi hm hT hund hu hy hg hs
  obtain ⟨u, t, c, hsame, hn, hvt, hx, hvu⟩ :=
    exec_scanFreq_of_tune_ok hr hi (isDabMode_iff.2 hm) hT hs
  have hd : t.hdt = s.hdt := congrArg CtlView.hdt hvt
  have hnot := not_mem_notSignal_of_signal hr.2 hy
  obtain ⟨v, hpoll, hvv⟩ := scanPoll_signal (n := 10000) (s := t) (rest := r.bytes ++ rest) hund
    (by rwa [hd]) (by rwa [hd]) (by rwa [hd])
    ((congrArg CtlView.answers hvt).trans (by simp [CtlView.ran]))
  have hdv := (hdt_of_ran hvv).trans hd
  obtain ⟨w, hclass, hvw⟩ := classify_good (by rwa [hdv]) (answers_of_ran hvv)
  rw [hpoll, hclass, hvw, hvv, hdv, hd, hvt] at hvu
  refine ⟨u, c, hx, hsame, hn, ?_⟩
  rw [hvu]
  simp [CtlView.ran, CtlView.after]

/-! ### Every scan, whatever the oracle answers (R800) -/

/-- Closing all with the flag up, in a state whose allocator invariants hold. -/
theorem closeAllBindings_flagged {s : State} (hr : Ready s) (hi : AllocInv s.hdt s.ctx) :
    ∃ u c, closeAllBindings (setCcip true s) = .ok u ∧ SameButAllocator (core s.ctx) c
      ∧ NoBindings c ∧ core u.ctx = { c with ccip := true }
      ∧ repliesOf .control u = repliesOf .control s := by
  have hv := ctlView_setCcip true s
  have hup := (sound_of_allocInv hr.2 hi).setCcip (K' := True) true fun _ => trivial
  obtain ⟨u, c, hclose, hsame, hn, -, hvu⟩ := closeAllBindings_spec _ hup.allocInv
  rw [core_setCcip] at hsame
  have hflag : c.ccip = true := (congrArg Session.ccip hsame :)
  have hreply : repliesOf .control u = repliesOf .control (setCcip true s) :=
    congrArg CtlView.replies hvu
  refine ⟨u, { c with ccip := s.ctx.ccip }, hclose, ?_, hn, ?_,
    hreply.trans (congrArg CtlView.replies hv)⟩
  · rw [hsame]
    rfl
  · rw [show core u.ctx = c from congrArg CtlView.core hvu, ← hflag]

/-- Whatever the oracle answers, a scan in a mode that has channels ends in one verdict. -/
theorem exec_scanFreq_frame {f : Nat} {s : State} (hr : Ready s) (hi : AllocInv s.hdt s.ctx)
    (hm : isDabMode s.ctx.mode = true) :
    ∃ u c v, exec (.scanFreq f) s = .next u
      ∧ repliesOf .control u = repliesOf .control s ++ [.verdict v]
      ∧ SameButAllocator (core s.ctx) c ∧ NoBindings c
      ∧ core u.ctx = { c with adcClk := u.ctx.adcClk, prevFreq := f, ccip := false } := by
  obtain ⟨u, c, hclose, hsame, hn, hcu, hreply⟩ := closeAllBindings_flagged hr hi
  rw [exec_scanFreq_of_closed hr hm hclose]
  obtain ⟨es, as, clk, hw⟩ :=
    (Quiet.refl.scanTuned (W := ClockOnly) (fun _ _ => rfl) f (u := u)).ctlView_eq
  have hcw : core (scanTuned f u).2.ctx = { c with ccip := true, adcClk := clk } := by
    rw [show core (scanTuned f u).2.ctx = _ from congrArg CtlView.core hw, hcu]
  obtain ⟨x, hx, hvx⟩ := returnVerdict_lowered (scanTuned f u).1 f hcw
  rw [hw] at hvx
  have hcx : core x.ctx = { c with adcClk := clk, prevFreq := f, ccip := false } :=
    congrArg CtlView.core hvx
  have hclk : x.ctx.adcClk = clk := (congrArg Session.adcClk hcx :)
  have hrx : repliesOf .control x = repliesOf .control u ++ [.verdict (scanTuned f u).1] :=
    congrArg CtlView.replies hvx
  exact ⟨x, c, _, hx, by rw [hrx, hreply], hsame, hn, by rw [hcx, hclk]⟩

/-- Settles O45: the check of the mode; the scan whatever the oracle answers; and the poll after a tune
that succeeds. -/
theorem scanRecordsFrequency : Obligations.ScanRecordsFrequency := by
  refine fun f s hr => ⟨fun hm => ?_, fun hm hi => exec_scanFreq_frame hr hi (isDabMode_iff.2 hm),
    fun as rest es clk hm hi hT hs => ?_⟩
  · exact exec_scanFreq_of_otherMode hr (by rcases hm with hm | hm <;> rw [hm] <;> rfl)
  · obtain ⟨u, t, c, hsame, hn, hvt, hx, hvu⟩ :=
      exec_scanFreq_of_tune_ok hr hi (isDabMode_iff.2 hm) hT hs
    exact ⟨u, t, c, _, _, hsame, hn, hvt, rfl, (scanPoll_any 10000 t).1, hx, hvu⟩

end Sys2Proof.Machine

namespace Sys2Proof.Machine

/-! ### The lookups of a tune (R610) -/

/-- The numerator before its range check: from the channel in ISDB, else `NF_FOR` (R610). -/
def pllNumerator (h : Hdt) (c : Session) (mode : ReceiverMode) (ch f : Nat) : Option Nat :=
  if mode = .isdb1seg then
    if ch < h.pll.isdbChMin.val ∨ h.pll.isdbChMax.val < ch then none
    else some ((isdbRow h c.xtal).base + ch * (isdbRow h c.xtal).step)
  else nfFor h c.xtal mode f

section Lookups

variable {h : Hdt} {c : Session} {mode : ReceiverMode} {ch f : Nat}

theorem pllNumerator_eq_some_iff {n : Nat} :
    pllNumerator h c mode ch f = some n ↔
      (mode = .isdb1seg → h.pll.isdbChMin.val ≤ ch ∧ ch ≤ h.pll.isdbChMax.val
        ∧ n = (isdbRow h c.xtal).base + ch * (isdbRow h c.xtal).step)
      ∧ (mode ≠ .isdb1seg → nfFor h c.xtal mode f = some n) := by
  unfold pllNumerator
  by_cases hi : mode = .isdb1seg
  · by_cases hr : ch < h.pll.isdbChMin.val ∨ h.pll.isdbChMax.val < ch <;> grind
  · simp [hi]

/-- The lookups look the clock type up first, then the numerator, then check its range. -/
theorem synthPrepare_eq_ok_iff {clk : AdcClockType} {n : Nat} :
    synthPrepare h c mode ch f = .ok (clk, n) ↔
      mode = c.mode ∧ clkFor h c.xtal mode f = some clk ∧ pllNumerator h c mode ch f = some n
        ∧ n < 2 ^ 23 := by
  unfold synthPrepare
  change (if mode ≠ c.mode then _ else match clkFor h c.xtal mode f with
    | none => _
    | some clk => match pllNumerator h c mode ch f with
      | none => _
      | some n => _) = _ ↔ _
  by_cases hm : mode = c.mode
  · cases hc : clkFor h c.xtal mode f with
    | none => simp [hm]
    | some k =>
      cases hn : pllNumerator h c mode ch f with
      | none => simp [hm]
      | some m =>
        by_cases hb : 2 ^ 23 ≤ m <;> grind
  · simp [hm]

end Lookups

/-- Settles O26: the lookups one by one, the numerator's two cases apart. -/
theorem synthPrepareConditions : Obligations.SynthPrepareConditions := by
  refine fun h c mode ch f => ⟨fun clk n => ?_, fun e => synthPrepare_error⟩
  rw [synthPrepare_eq_ok_iff, pllNumerator_eq_some_iff, and_assoc]

/-! ### The port calls of a tune, counted (R651, R1130)

Each part of a tune has its own bounds, whatever the oracle answers; those of a sequence add up. -/

/-- At most so many writes, reads and delays of 2 ms and of 1 ms; and no more time requested than such
delays make. -/
structure Within (w r two one : Nat) (es : List Event) : Prop where
  writes : es.countP isWrite ≤ w
  reads : es.countP isRead ≤ r
  twoMs : es.countP (isDelayMs 2) ≤ two
  oneMs : es.countP (isDelayMs 1) ≤ one
  requested : requestedUs es ≤ 2000 * two + 1000 * one

theorem requestedUs_append (es fs : List Event) :
    requestedUs (es ++ fs) = requestedUs es + requestedUs fs := by
  simp [requestedUs]

/-- From `s` to `t` the control agent adds events within these bounds. -/
def Spends (w r two one : Nat) (s t : State) : Prop :=
  ∃ es, eventsOf .control t = eventsOf .control s ++ es ∧ Within w r two one es

namespace Spends

variable {w r two one w' r' two' one' : Nat} {s t u : State}

theorem refl (s : State) : Spends 0 0 0 0 s s :=
  ⟨[], by simp, le_rfl, le_rfl, le_rfl, le_rfl, le_rfl⟩

theorem of_ran {es : List Event} {as : List Byte} (h : ctlView t = (ctlView s).ran es as)
    (hes : Within w r two one es) : Spends w r two one s t :=
  ⟨es, congrArg CtlView.events h, hes⟩

theorem trans (h : Spends w r two one s t) (h' : Spends w' r' two' one' t u) :
    Spends (w + w') (r + r') (two + two') (one + one') s u := by
  obtain ⟨es, hes, hw, hr, h2, h1, hq⟩ := h
  obtain ⟨fs, hfs, hw', hr', h2', h1', hq'⟩ := h'
  refine ⟨es ++ fs, by rw [hfs, hes, List.append_assoc], ?_⟩
  constructor <;> simp only [List.countP_append, requestedUs_append] <;> omega

theorem mono (h : Spends w r two one s t) (hw : w ≤ w' := by omega) (hr : r ≤ r' := by omega)
    (h2 : two ≤ two' := by omega) (h1 : one ≤ one' := by omega) :
    Spends w' r' two' one' s t := by
  obtain ⟨es, hes, hws, hrs, h2s, h1s, hq⟩ := h
  exact ⟨es, hes, by omega, by omega, by omega, by omega, by omega⟩

/-- Both branches of a conditional part of an operation. -/
theorem ite {α : Type} {p : Prop} [Decidable p] {a b : α × State}
    (ha : p → Spends w r two one s a.2) (hb : ¬p → Spends w r two one s b.2) :
    Spends w r two one s (if p then a else b).2 := by
  split
  · exact ha ‹_›
  · exact hb ‹_›

end Spends

/-! #### Port calls -/

theorem spends_wr (x : Reg) (v : Byte) (s : State) : Spends 1 0 0 0 s (wr x v s) :=
  .of_ran (wr_ran x v s) ⟨le_rfl, le_rfl, le_rfl, le_rfl, le_rfl⟩

theorem spends_rd (x : Reg) (s : State) : Spends 0 1 0 0 s (rd x s).2 :=
  .of_ran (rd_any x s) ⟨le_rfl, le_rfl, le_rfl, le_rfl, le_rfl⟩

theorem spends_delayMs_two (s : State) : Spends 0 0 1 0 s (delayMs 2 s) :=
  .of_ran (delayMs_ran 2 s) ⟨le_rfl, le_rfl, le_rfl, le_rfl, le_rfl⟩

theorem spends_delayMs_one (s : State) : Spends 0 0 0 1 s (delayMs 1 s) :=
  .of_ran (delayMs_ran 1 s) ⟨le_rfl, le_rfl, le_rfl, le_rfl, le_rfl⟩

theorem spends_wr24 (x : Reg3) (v : Nat) (s : State) : Spends 3 0 0 0 s (wr24 x v s) :=
  ((spends_wr _ _ s).trans (spends_wr _ _ _)).trans (spends_wr _ _ _)

theorem spends_rd24 (x : Reg3) (s : State) : Spends 0 3 0 0 s (rd24 x s).2 :=
  ((spends_rd x.h s).trans (spends_rd x.m _)).trans (spends_rd x.l _)

/-- A poll of at most `n + 1` reads waits at most `n` times (R500, R622). -/
theorem spends_pollBit {ms two one : Nat} (hd : ∀ s, Spends 0 0 two one s (delayMs ms s))
    (l : BitLoc) (n : Nat) (s : State) :
    Spends 0 (n + 1) (n * two) (n * one) s (pollBit l ms (n + 1) s).2 := by
  induction n generalizing s with
  | zero =>
    have hr := spends_rd l.reg s
    exact .ite (fun _ => hr.mono) fun _ => .ite (fun _ => hr.mono) (absurd rfl)
  | succ n ih =>
    have hr := spends_rd l.reg s
    rw [Nat.add_one_mul, Nat.add_one_mul]
    exact .ite (fun _ => hr.mono) fun _ => .ite (fun _ => hr.mono)
      fun _ => ((hr.trans (hd _)).trans (ih _)).mono

/-! #### The ADC clock (R500) -/

theorem spends_wrTuple (t : Vector Byte 7) (s : State) : Spends 7 0 0 0 s (wrTuple t s) :=
  .of_ran (wrTuple_ran t s) ⟨le_rfl, le_rfl, le_rfl, le_rfl, le_rfl⟩

theorem spends_adcVerify (clk : AdcClockType) (s : State) :
    Spends 0 10 0 9 s (adcVerify clk s).2 :=
  spends_pollBit spends_delayMs_one s.hdt.adc.lockBit 9 s

theorem spends_adcConfigure (clk : AdcClockType) (s : State) :
    Spends 7 10 0 9 s (adcConfigure clk s).2 := by
  unfold adcConfigure
  refine .ite (fun _ => (Spends.refl s).mono) fun _ => ?_
  split
  · exact (Spends.refl s).mono
  · rename_i t _
    have hv := (spends_wrTuple t s).trans (spends_adcVerify clk _)
    exact .ite (fun _ => hv) fun _ => hv

/-! #### The PLL (R620 to R623) -/

theorem spends_pllVerify (mode : ReceiverMode) (v n : Nat) (s : State) :
    Spends (3 * n) (3 * (n + 1)) n 0 s (pllVerify mode v (n + 1) s).2 := by
  induction n generalizing s with
  | zero =>
    have hr := spends_rd24 s.hdt.pll.rb s
    exact .ite (fun _ => hr.mono) fun _ => .ite (fun _ => hr.mono) (absurd rfl)
  | succ n ih =>
    have hr := spends_rd24 s.hdt.pll.rb s
    have hw := hr.trans (spends_wr24 (rd24 s.hdt.pll.rb s).2.hdt.pll.reg v _)
    exact .ite (fun _ => hr.mono) fun _ => .ite (fun _ => hr.mono)
      fun _ => ((hw.trans (spends_delayMs_two _)).trans (ih _)).mono

theorem spends_softReset (mode : ReceiverMode) (s : State) :
    Spends 2 0 0 1 s (softReset mode s) :=
  ((spends_wr _ _ s).trans (spends_delayMs_one _)).trans (spends_wr _ _ _)

theorem spends_pllTune (mode : ReceiverMode) (n : Nat) (s : State) :
    Spends 32 40 18 1 s (pllTune mode n s).2 := by
  let v := pllWord n (forMode s.hdt.pll.sel mode)
  have hv := (spends_wr24 s.hdt.pll.reg v s).trans (spends_pllVerify mode v 9 (pllProgram v s))
  have hl := hv.trans (spends_pollBit spends_delayMs_two
    (pllVerify mode v pllAttempts (pllProgram v s)).2.hdt.pll.lockBit 9 _)
  exact .ite (fun _ => .ite (fun _ => hl.trans (spends_softReset mode _)) fun _ => hl.mono)
    fun _ => hv.mono

/-! #### The whole tune (R630) -/

theorem spends_synthSetFrequency (mode : ReceiverMode) (ch f : Nat) (s : State) :
    Spends 39 50 18 10 s (synthSetFrequency mode ch f s).2 := by
  unfold synthSetFrequency
  split
  · exact (Spends.refl s).mono
  · rename_i clk n _
    have ha := spends_adcConfigure clk s
    split <;> rename_i heq <;> rw [heq] at ha
    · exact ha.mono
    · exact ha.trans (spends_pllTune mode n _)

/-- Settles O31: the bounds of the ADC clock and of the PLL, added. -/
theorem synthBudget : Obligations.SynthBudget := by
  intro mode ch f s t r h
  obtain ⟨es, hes, hw, hr, h2, h1, hq⟩ := h ▸ spends_synthSetFrequency mode ch f s
  exact ⟨es, hes, hw, hr, h2, h1, hq⟩

end Sys2Proof.Machine

namespace Sys2Proof.Machine

/-! ### The stream output (R740) -/

/-- Settles O44: the action's writes, then the flag, whatever it was. -/
theorem streamOffSuspends : Obligations.StreamOffSuspends := by
  intro s hr
  have hact := doAction_ran s.hdt.alloc.streamOff s
  have hexec : exec .disableStreamOut s = finish (.ok ())
      { doAction s.hdt.alloc.streamOff s with
        ctx := { (doAction s.hdt.alloc.streamOff s).ctx with streamSuspended := true } } :=
    inSession_of_ready hr _
  have hflag : ∀ u : State, ctlView { u with ctx := { u.ctx with streamSuspended := true } }
      = { ctlView u with core := { core u.ctx with streamSuspended := true } } := fun _ => rfl
  rw [hexec]
  exact finish_after (by rw [hflag, core_of_ran hact, hact]) (.ok ())

/-! ### An open's checks (R700, R1004) -/

theorem exec_openSubch_of_id {f id thr : Nat} {svc : ServiceType} {s : State} (hr : Ready s)
    (hid : 64 ≤ id) :
    exec (.openSubch f id svc thr) s = raiseErr .invalidSubChannelId s :=
  (inSession_of_ready hr _).trans (if_pos hid)

theorem exec_openSubch_of_threshold {f id thr : Nat} {svc : ServiceType} {s : State} (hr : Ready s)
    (hid : id < 64) (hframing : s.hdt.alloc.framing = .individual)
    (hthr : s.hdt.alloc.maxThrIndividual < thr) :
    exec (.openSubch f id svc thr) s = raiseErr .invalidThresholdSize s := by
  refine (inSession_of_ready hr _).trans ?_
  rw [if_neg (by simpa [numIds] using hid), if_pos ⟨hframing, hthr⟩]

theorem exec_openSubch_of_mode {f id thr : Nat} {svc : ServiceType} {s : State} (hr : Ready s)
    (hid : id < 64)
    (hthr : s.hdt.alloc.framing = .individual → thr ≤ s.hdt.alloc.maxThrIndividual)
    (hmode : isDabMode s.ctx.mode = false) :
    exec (.openSubch f id svc thr) s = raiseErr .invalidMode s := by
  refine (inSession_of_ready hr _).trans ?_
  rw [if_neg (by simpa [numIds] using hid), if_neg (fun h => by have := hthr h.1; omega),
    if_pos hmode]

theorem exec_openSubch_of_tuned {f id thr : Nat} {svc : ServiceType} {s : State} (hr : Ready s)
    (ha : OpenAdmitted s id thr) (hf : AtTunedFreq s f) :
    exec (.openSubch f id svc thr) s = openTuned id svc thr s := by
  obtain ⟨hid, hthr, hmode⟩ := ha
  refine (inSession_of_ready hr _).trans ?_
  rw [if_neg (by simpa [numIds] using hid), if_neg (fun h => by have := hthr h.1; omega),
    if_neg (by simp [isDabMode_iff.2 hmode]), if_pos hf]

/-- A group is full when slot 0, or every data slot, is bound (R701). -/
theorem groupFull_of_bound {h : Hdt} {c : Session} {svc : ServiceType}
    (hzero : svc ≠ .data → slotBound c 0 = true)
    (hdata : svc = .data → ∀ k, 1 ≤ k → k ≤ h.alloc.numDataSlots → slotBound c k = true) :
    groupFull h c (groupOf svc) = true := by
  unfold groupFull
  rw [List.all_eq_true]
  intro k hk
  cases svc with
  | data =>
    obtain ⟨j, hj, rfl⟩ := List.mem_map.1 hk
    exact hdata rfl _ (Nat.le_add_left 1 j) (List.mem_range.1 hj)
  | video =>
    rw [List.mem_singleton.1 hk]
    exact hzero nofun
  | audio =>
    rw [List.mem_singleton.1 hk]
    exact hzero nofun

/-! ### The open at the tuned frequency (R700) -/

theorem openTuned_registered {id thr : Nat} {svc : ServiceType} {s : State}
    (hreg : registered s.ctx id = true) : openTuned id svc thr s = returnOk (restoreStream s) :=
  if_pos hreg

theorem openTuned_multi {id thr : Nat} {svc : ServiceType} {s : State}
    (hreg : registered s.ctx id = false) (hm : s.hdt.alloc.multiSubch = true) :
    openTuned id svc thr s
      = if groupFull s.hdt s.ctx (groupOf svc) then raiseErr .noMoreSubChannel s
        else bindAndReturn id svc thr (fun s => s) s := by
  unfold openTuned
  rw [if_neg (by simp [hreg]), if_pos hm]

theorem openTuned_single {id thr : Nat} {svc : ServiceType} {s t : State}
    (hreg : registered s.ctx id = false) (hm : s.hdt.alloc.multiSubch = false)
    (hevict : evict s = .ok t) :
    openTuned id svc thr s = bindAndReturn id svc thr (fun s => s) t := by
  unfold openTuned
  rw [if_neg (by simp [hreg]), if_neg (by simp [hm]), hevict]

/-- Settles O36: each check in its order, then the full group. -/
theorem openRejections : Obligations.OpenRejections := by
  refine fun f id svc thr s hr => ⟨exec_openSubch_of_id hr, exec_openSubch_of_threshold hr,
    fun hid hthr hmode => ?_, fun ha hf hreg hm hzero hdata => ?_⟩
  · refine exec_openSubch_of_mode hr hid hthr ?_
    rcases hmode with hmode | hmode <;> rw [hmode] <;> rfl
  · rw [exec_openSubch_of_tuned hr ha hf, openTuned_multi hreg hm,
      if_pos (groupFull_of_bound hzero hdata)]
    rfl

/-- The end of an open: the stream restored, `Ok` replied. -/
theorem returnOk_restoreStream_ran {s t : State} {es : List Event} {as : List Byte} {c : Session}
    (ht : ctlView t = { (ctlView s).ran es as with core := c }) :
    ∃ u, returnOk (restoreStream t) = .next u
      ∧ ctlView u = (ctlView s).after { c with streamSuspended := false } as
          (es ++ restoreEvents s.hdt c.streamSuspended) .ok := by
  have hd : t.hdt = s.hdt := congrArg CtlView.hdt ht
  have ha : t.ctlAnswers = as := congrArg CtlView.answers ht
  have hc : core t.ctx = c := congrArg CtlView.core ht
  have hss : t.ctx.streamSuspended = c.streamSuspended := (congrArg Session.streamSuspended hc :)
  refine finish_after (r := .ok ()) ?_
  rw [restoreStream_ran, hd, ha, hc, hss, ht]
  simp [CtlView.ran]

/-- The view of a state is the one after no port call. -/
theorem ctlView_ran_nil (s : State) :
    ctlView s = { (ctlView s).ran [] s.ctlAnswers with core := core s.ctx } := by
  simp [CtlView.ran, ctlView]

/-- Settles O37: nothing is bound or released; the stream is restored. -/
theorem reopenIsIdempotent : Obligations.ReopenIsIdempotent := by
  intro f id svc thr s hr ha hf hreg
  rw [exec_openSubch_of_tuned hr ha hf, openTuned_registered hreg]
  exact returnOk_restoreStream_ran (ctlView_ran_nil s)

/-- A bind to the first free entry and the target slot, then the end of an open. -/
theorem bindAndReturn_ran {id thr e slot : Nat} {svc : ServiceType} {s t : State} {es : List Event}
    {as : List Byte} {c : Session} (ht : ctlView t = { (ctlView s).ran es as with core := c })
    (he : FirstFreeEntry s.hdt c e) (hslot : TargetSlot s.hdt c svc slot) :
    ∃ u, bindAndReturn id svc thr (fun s => s) t = .next u
      ∧ ctlView u = (ctlView s).after
          { bindStep e ⟨id, slot, svc, thr⟩ c with streamSuspended := false } as
          (es ++ bindEvents s.hdt slot id svc thr (groupEmpty s.hdt c (groupOf svc))
            ++ restoreEvents s.hdt c.streamSuspended) .ok := by
  have hd : t.hdt = s.hdt := congrArg CtlView.hdt ht
  have ha : t.ctlAnswers = as := congrArg CtlView.answers ht
  have hc : core t.ctx = c := congrArg CtlView.core ht
  subst hc
  obtain ⟨u, hb, hv⟩ := bind_spec id thr t hd he hslot
  have hbound : ctlView u = { (ctlView s).ran (es ++ bindEvents s.hdt slot id svc thr
      (groupEmpty s.hdt (core t.ctx) (groupOf svc))) as with
        core := bindStep e ⟨id, slot, svc, thr⟩ (core t.ctx) } := by
    rw [hv, ht, ha]
    simp [CtlView.ran, groupEmpty, slotBound, core]
  have hret := returnOk_restoreStream_ran hbound
  rw [(bindStep_same _ _ _).streamSuspended_eq] at hret
  simpa only [bindAndReturn, hb] using hret

/-- Settles O38: the room of a group that is not full. -/
theorem openBindsNewId : Obligations.OpenBindsNewId := by
  intro f id svc thr s hr hi ha hf hreg hm hfull
  obtain ⟨e, slot, he, ht, hfree, hfits⟩ := room_of_not_full hi hm hfull
  obtain ⟨u, hu, hv⟩ := bindAndReturn_ran (id := id) (thr := thr) (ctlView_ran_nil s) he ht
  have he5 : e < 5 := Nat.lt_of_lt_of_le he.1 (maxBindings_le hr.2)
  have hslot : slot < 5 := Nat.lt_succ_of_le
    ((slot_le_of_fits (hfits id thr)).trans (numDataSlots_of_hdtOk hr.2).2)
  refine ⟨u, bindStep e ⟨id, slot, svc, thr⟩ (core s.ctx), e, slot, he, ht, ?_, bindStep_same _ _ _,
    bindStep_boundAlso (core s.ctx) he5 ha.1 hslot, hv⟩
  rw [exec_openSubch_of_tuned hr ha hf, openTuned_multi hreg hm, if_neg (by simp [hfull]), hu]

/-! ### The eviction in a single-sub-channel build (R700) -/

/-- In a single-sub-channel build a live binding is entry 0. -/
theorem AllocInv.entry_zero {h : Hdt} {c : Session} (hi : AllocInv h c)
    (hm : h.alloc.multiSubch = false) {e : Nat} {b : Binding} (he : entry c e = some b) : e = 0 := by
  have hlt := hi.bounded e b he
  simpa [maxBindings, hm] using hlt

theorem AllocInv.regMask_eq_zero_iff {h : Hdt} {c : Session} (hi : AllocInv h c)
    (hm : h.alloc.multiSubch = false) : c.regMask = 0 ↔ entry c 0 = none := by
  have hbit := hi.entries 0 (by decide)
  constructor
  · intro hz
    simpa [hz] using hbit
  · intro hn
    have hno : ∀ e, entry c e = none := fun e => by
      cases he : entry c e with
      | none => rfl
      | some b =>
        rw [hi.entry_zero hm he, hn] at he
        cases he
    obtain ⟨-, -, -, -, hz⟩ := noBindings_of_no_entry hi hno
    exact hz

/-- The eviction is the closing of the one binding's ID, if there is a binding. -/
theorem evict_eq_closeIds {s : State} (hi : AllocInv s.hdt s.ctx)
    (hm : s.hdt.alloc.multiSubch = false) :
    evict s = closeIds ((entry s.ctx 0).toList.map (·.id)) s := by
  unfold evict
  cases h0 : entry s.ctx 0 with
  | none =>
    rw [if_pos ((hi.regMask_eq_zero_iff hm).2 h0)]
    rfl
  | some b =>
    have hreg : registered s.ctx b.id = true := (hi.ids _ (hi.idRange _ _ h0)).2 ⟨0, b, h0, rfl⟩
    rw [if_neg (by rw [hi.regMask_eq_zero_iff hm, h0]; nofun)]
    show unbind b.id s = closeIds [b.id] s
    simp only [closeIds, hreg, if_true]
    split <;> rename_i heq <;> rw [heq]

theorem bindingOf_eq_none_single {h : Hdt} {c : Session} (hi : AllocInv h c)
    (hm : h.alloc.multiSubch = false) {i : Nat} (hne : ∀ b, entry c 0 = some b → i ≠ b.id) :
    bindingOf c i = none := by
  refine Option.eq_none_iff_forall_ne_some.2 fun b hb => ?_
  obtain ⟨e, he, hid⟩ := (bindingOf_eq_some hi).1 hb
  rw [hi.entry_zero hm he] at he
  exact hne b he hid.symm

/-- In a single-sub-channel build the live bindings in order are the one in entry 0, if any. -/
theorem liveById_single {h : Hdt} {c : Session} (hi : AllocInv h c)
    (hm : h.alloc.multiSubch = false) :
    liveById c = ((entry c 0).toList.map (·.id)).filterMap (bindingOf c) := by
  rw [liveById_eq]
  cases h0 : entry c 0 with
  | none =>
    exact List.filterMap_eq_nil_iff.2 fun i _ =>
      bindingOf_eq_none_single hi hm (by rw [h0]; nofun)
  | some b =>
    have hmem : b.id ∈ List.range numIds := List.mem_range.2 (hi.idRange _ _ h0)
    calc (List.range numIds).filterMap (bindingOf c)
      _ = ((List.range numIds).filter fun i => decide (i = b.id)).filterMap (bindingOf c) := by
        rw [List.filterMap_filter]
        refine List.filterMap_congr fun i _ => ?_
        by_cases hib : i = b.id
        · simp [hib]
        · rw [bindingOf_eq_none_single hi hm (by rw [h0]; rintro x ⟨⟩; exact hib)]
          simp [hib]
      _ = [b.id].filterMap (bindingOf c) := by
        rw [List.filter_eq, List.count_eq_one_of_mem List.nodup_range hmem]
        rfl

/-- The eviction closes the live bindings, and leaves none. -/
theorem evict_spec {s : State} (hi : AllocInv s.hdt s.ctx) (hm : s.hdt.alloc.multiSubch = false) :
    ∃ t c, evict s = .ok t ∧ SameButAllocator (core s.ctx) c ∧ NoBindings c
      ∧ ctlView t = { (ctlView s).ran (closeEvents s.hdt (liveById s.ctx)) s.ctlAnswers with
            core := c } := by
  have hlt : ∀ i ∈ (entry s.ctx 0).toList.map (·.id), i < numIds := by
    intro i hmem
    obtain ⟨b, hb, rfl⟩ := List.mem_map.1 hmem
    exact hi.idRange 0 b (Option.mem_toList.1 hb)
  have hnd : ((entry s.ctx 0).toList.map (·.id)).Nodup := by
    cases entry s.ctx 0 <;> simp
  have hcov : ∀ e b, entry s.ctx e = some b → b.id ∈ (entry s.ctx 0).toList.map (·.id) := by
    intro e b he
    rw [hi.entry_zero hm he] at he
    simp [he]
  obtain ⟨t, c, hclose, hsame, hn, -, hv⟩ := closeIds_spec _ hnd hlt s rfl hi hcov
  exact ⟨t, c, (evict_eq_closeIds hi hm).trans hclose, hsame, hn,
    by rw [liveById_single hi hm]; exact hv⟩

/-- Settles O39: the eviction leaves nothing bound, so the bind is a first one. -/
theorem openEvictsTheOneBinding : Obligations.OpenEvictsTheOneBinding := by
  intro f id svc thr s hr hi ha hf hreg hm
  obtain ⟨t, c, hevict, hsame, hn, hv⟩ := evict_spec hi hm
  obtain ⟨u, hu, hvu⟩ := bindAndReturn_ran (id := id) (thr := thr) hv
    (firstFreeEntry_of_noBindings hn) (targetSlot_of_noBindings hr.2 hn svc)
  rw [groupEmpty_of_noBindings hn, hsame.streamSuspended_eq] at hvu
  refine ⟨u, bindStep 0 ⟨id, firstSlot svc, svc, thr⟩ c, c, hn, ?_, hsame.trans (bindStep_same _ _ _),
    bindStep_boundAlso c (by decide) ha.1 (by unfold firstSlot; split <;> simp), hvu⟩
  rw [exec_openSubch_of_tuned hr ha hf, openTuned_single hreg hm hevict, hu]

/-! ### Closing (R710, R715) -/

theorem exec_closeSubch_of_id {id : Nat} {s : State} (hr : Ready s) (hid : 64 ≤ id) :
    exec (.closeSubch id) s = raiseErr .invalidSubChannelId s :=
  (inSession_of_ready hr _).trans (if_pos hid)

theorem exec_closeSubch_of_unregistered {id : Nat} {s : State} (hr : Ready s) (hid : id < 64)
    (hreg : registered s.ctx id = false) : exec (.closeSubch id) s = returnOk s := by
  refine (inSession_of_ready hr _).trans ?_
  rw [if_neg (by simpa [numIds] using hid), if_neg (by simp [hreg])]

theorem exec_closeSubch_of_unbind {id : Nat} {s t : State} (hr : Ready s) (hid : id < 64)
    (hreg : registered s.ctx id = true) (hun : unbind id s = .ok t) :
    exec (.closeSubch id) s = returnOk t := by
  refine (inSession_of_ready hr _).trans ?_
  rw [if_neg (by simpa [numIds] using hid), if_pos hreg, hun]

/-- Settles O42: the invariant gives the registered ID its entry, which the unbind releases. -/
theorem closeReleasesOneId : Obligations.CloseReleasesOneId := by
  refine fun id s hr => ⟨exec_closeSubch_of_id hr, exec_closeSubch_of_unregistered hr,
    fun hid hreg hi => ?_⟩
  obtain ⟨e, b, he, rfl⟩ := (hi.ids id hid).1 hreg
  obtain ⟨t, hun, hv⟩ := unbind_spec s rfl hi he
  obtain ⟨u, hu, hvu⟩ := finish_after hv (.ok ())
  exact ⟨u, unbindStep e b (core s.ctx), e, b, he, rfl,
    (exec_closeSubch_of_unbind hr hid hreg hun).trans hu, unbindStep_same _ _ _,
    unbindStep_released (core s.ctx) (entry_lt he) hid, hvu⟩

/-- Settles O43: the closing of all 64 IDs in ascending order. -/
theorem closeAllReleasesEveryId : Obligations.CloseAllReleasesEveryId := by
  intro s hr hi
  obtain ⟨t, c, hclose, hsame, hn, -, hv⟩ := closeAllBindings_spec s hi
  obtain ⟨u, hu, hvu⟩ := finish_after hv (.ok ())
  refine ⟨u, c, ?_, hsame, hn, hvu⟩
  refine (inSession_of_ready hr _).trans ?_
  rw [hclose]
  exact hu

/-! ### The fields that the allocator's commands write (R700, R710, R715, R720, R730, R800) -/

/-- At most the allocator's fields of the control agent's view of the context differ. -/
def AllocatorOnly (s t : State) : Prop := SameButAllocator (core s.ctx) (core t.ctx)

theorem AllocatorOnly.refl (s : State) : AllocatorOnly s s := rfl

theorem AllocatorOnly.trans {s t u : State} (h : AllocatorOnly s t) (h' : AllocatorOnly t u) :
    AllocatorOnly s u := SameButAllocator.trans h h'

@[simp] theorem core_doAction (as : Action) (s : State) : core (doAction as s).ctx = core s.ctx :=
  core_of_ran (doAction_ran as s)

theorem core_doActionIf (p : Bool) (as : Action) (s : State) :
    core (if p then doAction as s else s).ctx = core s.ctx := by
  split
  · exact core_doAction as s
  · rfl

theorem core_releaseGroup (g : Group) (s : State) : core (releaseGroup g s).ctx = core s.ctx := by
  unfold releaseGroup
  split
  · simp
  · rfl

theorem bind_allocatorOnly (id : Nat) (svc : ServiceType) (thr : Nat) (s : State) :
    OkMeets (AllocatorOnly s) (bind id svc thr s) := by
  unfold bind
  split
  · exact okMeets_error _
  · exact okMeets_error _
  · rename_i slot e _ _
    refine okMeets_ok ?_
    show SameButAllocator (core s.ctx) (core (bindStep e ⟨id, slot, svc, thr⟩ _))
    rw [core_bindStep, core_doAction, core_doActionIf, core_doAction, core_doAction]
    exact bindStep_same _ _ _

theorem unbind_allocatorOnly (id : Nat) (s : State) :
    OkMeets (AllocatorOnly s) (unbind id s) := by
  unfold unbind
  split
  · exact okMeets_error _
  · rename_i e _
    split
    · exact okMeets_error _
    · rename_i b _
      refine okMeets_ok ?_
      unfold AllocatorOnly
      rw [core_releaseGroup]
      show SameButAllocator (core s.ctx) (core (unbindStep e b _))
      rw [core_unbindStep, core_doAction]
      exact unbindStep_same _ _ _

theorem closeIds_allocatorOnly (ids : List Nat) (s : State) :
    OkMeets (AllocatorOnly s) (closeIds ids s) := by
  induction ids generalizing s with
  | nil => exact okMeets_ok (.refl s)
  | cons id ids ih =>
    unfold closeIds
    split
    · split
      · exact okMeets_error _
      · rename_i u hu
        exact fun t ht => (unbind_allocatorOnly id s u hu).trans (ih u t ht)
    · exact ih s

theorem evict_allocatorOnly (s : State) : OkMeets (AllocatorOnly s) (evict s) := by
  unfold evict
  split
  · exact okMeets_ok (.refl s)
  · split
    · exact okMeets_error _
    · exact unbind_allocatorOnly _ s

theorem exec_closeSubch_frame (id : Nat) (s : State) :
    NextMeets (AllocatorOnly s) (exec (.closeSubch id) s) := by
  refine nextMeets_inSession ?_
  split
  · exact nextMeets_next (.refl s)
  · split
    · split
      · exact nextMeets_fault _
      · rename_i t ht
        exact nextMeets_next (unbind_allocatorOnly id s t ht)
    · exact nextMeets_next (.refl s)

theorem exec_closeAllSubch_frame (s : State) :
    NextMeets (AllocatorOnly s) (exec .closeAllSubch s) := by
  refine nextMeets_inSession ?_
  split
  · exact nextMeets_fault _
  · rename_i t ht
    exact nextMeets_next (closeIds_allocatorOnly _ s t ht)

/-! #### The open at the tuned frequency -/

/-- At most the allocator's fields and the stream flag differ. -/
def TunedOpenFrame (s t : State) : Prop :=
  ∃ c, SameButAllocator (core s.ctx) c
    ∧ core t.ctx = { c with streamSuspended := t.ctx.streamSuspended }

theorem AllocatorOnly.tunedOpenFrame {s t : State} (h : AllocatorOnly s t) : TunedOpenFrame s t :=
  ⟨core t.ctx, h, rfl⟩

theorem AllocatorOnly.restoreStream {s t : State} (h : AllocatorOnly s t) :
    TunedOpenFrame s (restoreStream t) := by
  have hc : core (Machine.restoreStream t).ctx = { core t.ctx with streamSuspended := false } :=
    congrArg CtlView.core (restoreStream_ran t)
  have hss : (Machine.restoreStream t).ctx.streamSuspended = false :=
    (congrArg Session.streamSuspended hc :)
  exact ⟨core t.ctx, h, by rw [hss, hc]⟩

theorem AllocatorOnly.bindAndReturn {s t : State} (h : AllocatorOnly s t) (id : Nat)
    (svc : ServiceType) (thr : Nat) :
    NextMeets (TunedOpenFrame s) (bindAndReturn id svc thr (fun s => s) t) := by
  unfold Machine.bindAndReturn
  split
  · exact nextMeets_fault _
  · rename_i u hu
    exact nextMeets_next (h.trans (bind_allocatorOnly id svc thr t u hu)).restoreStream

theorem openTuned_frame (id : Nat) (svc : ServiceType) (thr : Nat) (s : State) :
    NextMeets (TunedOpenFrame s) (openTuned id svc thr s) := by
  have hself := AllocatorOnly.refl s
  unfold openTuned
  split
  · exact nextMeets_next hself.restoreStream
  · split
    · split
      · exact nextMeets_next hself.tunedOpenFrame
      · exact hself.bindAndReturn id svc thr
    · split
      · exact nextMeets_fault _
      · rename_i t ht
        exact (evict_allocatorOnly s t ht).bindAndReturn id svc thr

theorem exec_openSubch_tuned_frame {f : Nat} (id : Nat) (svc : ServiceType) (thr : Nat) {s : State}
    (hf : AtTunedFreq s f) : NextMeets (TunedOpenFrame s) (exec (.openSubch f id svc thr) s) := by
  have hself : ∀ e, NextMeets (TunedOpenFrame s) (raiseErr e s) := fun _ =>
    nextMeets_next (AllocatorOnly.refl s).tunedOpenFrame
  refine nextMeets_inSession ?_
  split
  · exact hself _
  · split
    · exact hself _
    · split
      · exact hself _
      · exact openTuned_frame id svc thr s

/-! #### The open at another frequency, and the scan -/

/-- At most the fields that a re-tuning open writes differ, and the in-progress flag is down. -/
def RetuneFrame (s t : State) : Prop :=
  ∃ c, SameButAllocator (core s.ctx) c
    ∧ core t.ctx = { c with
        streamSuspended := t.ctx.streamSuspended, adcClk := t.ctx.adcClk,
        prevFreq := t.ctx.prevFreq, ccip := false }

/-- The other fields are the session's own (R102 to R104). -/
theorem SessionKept.retuneFrame {s t : State} (h : SessionKept s t) (hdown : t.ctx.ccip = false) :
    RetuneFrame s t := by
  refine ⟨{ core s.ctx with
    reg := t.ctx.reg, idMask0 := t.ctx.idMask0, idMask1 := t.ctx.idMask1,
    slotMask := t.ctx.slotMask, regMask := t.ctx.regMask }, rfl, ?_⟩
  simp only [core, ← h.initialized, ← h.mode, ← h.xtal, ← hdown]

theorem openRetune_lowersFlag (f id : Nat) (svc : ServiceType) (thr : Nat) (s : State) :
    NextMeets (fun t => t.ctx.ccip = false) (openRetune f id svc thr s) := by
  unfold openRetune
  split
  · exact nextMeets_fault _
  · dsimp only
    split
    · exact nextMeets_next rfl
    · unfold bindAndReturn
      split
      · exact nextMeets_fault _
      · exact nextMeets_next rfl

theorem ready_of_inSession_next {s t : State} {k : State → Out} (h : inSession s k = .next t) :
    Ready s := by
  unfold inSession underHdt at h
  split at h
  · split at h
    · exact ⟨‹_›, ‹_›⟩
    · cases h
  · cases h

theorem exec_openSubch_retune_frame {f id thr : Nat} {svc : ServiceType} {s : State}
    (ha : OpenAdmitted s id thr) (hf : ¬AtTunedFreq s f) :
    NextMeets (RetuneFrame s) (exec (.openSubch f id svc thr) s) := by
  intro t ht
  have hkept := sessionKept_exec (i := .openSubch f id svc thr) nofun s t ht
  rw [exec_openSubch_of_retune (ready_of_inSession_next ht) ha hf] at ht
  exact hkept.retuneFrame (openRetune_lowersFlag f id svc thr s t ht)

/-- At most the allocator's fields and the clock type differ, the frequency is recorded and the flag
is down. -/
def ScanFrame (f : Nat) (s t : State) : Prop :=
  ∃ c, SameButAllocator (core s.ctx) c
    ∧ core t.ctx = { c with adcClk := t.ctx.adcClk, prevFreq := f, ccip := false }

/-- From the flag raised on, at most the allocator's fields and the flag differ. -/
theorem AllocatorOnly.underFlag {s u : State} (h : AllocatorOnly (setCcip true s) u) :
    ∃ c, SameButAllocator (core s.ctx) c ∧ core u.ctx = { c with ccip := true } := by
  have hsame : SameButAllocator { core s.ctx with ccip := true } (core u.ctx) := by
    rw [← core_setCcip]
    exact h
  exact ⟨{ core u.ctx with ccip := s.ctx.ccip }, by rw [hsame]; rfl, by rw [hsame]⟩

/-- The end of a scan, from its tune on. -/
theorem scanTuned_frame (f : Nat) {s u : State} {c : Session}
    (hsame : SameButAllocator (core s.ctx) c) (hu : core u.ctx = { c with ccip := true }) :
    NextMeets (ScanFrame f s)
      (returnVerdict (scanTuned f u).1 f (setCcip false (scanTuned f u).2)) := by
  have hw := (Quiet.refl.scanTuned (W := ClockOnly) (fun _ _ => rfl) f (u := u)).core_eq
  rw [hu] at hw
  obtain ⟨t, ht, hv⟩ := returnVerdict_lowered (scanTuned f u).1 f hw
  have hc : core t.ctx = { c with
      adcClk := (scanTuned f u).2.ctx.adcClk, prevFreq := f, ccip := false } :=
    congrArg CtlView.core hv
  have hclk : t.ctx.adcClk = (scanTuned f u).2.ctx.adcClk := (congrArg Session.adcClk hc :)
  rw [ht]
  exact nextMeets_next ⟨c, hsame, by rw [hc, hclk]⟩

theorem exec_scanFreq_dab_frame (f : Nat) {s : State} (hm : isDabMode s.ctx.mode = true) :
    NextMeets (ScanFrame f s) (exec (.scanFreq f) s) := by
  refine nextMeets_inSession ?_
  rw [if_neg (by simp [hm])]
  split
  · exact nextMeets_fault _
  · rename_i u hu
    obtain ⟨c, hsame, hc⟩ := (closeIds_allocatorOnly _ _ u hu).underFlag
    exact scanTuned_frame f hsame hc

/-- Settles O33: the commands one by one. -/
theorem allocatorFrame : Obligations.AllocatorFrame := by
  refine fun s t => ⟨fun id ht => ht.elim (exec_closeSubch_frame id s t)
    (exec_closeAllSubch_frame s t), fun f id svc thr ht => ?_,
    fun f ht hm => exec_scanFreq_dab_frame f hm t ht⟩
  by_cases hf : AtTunedFreq s f
  · obtain ⟨c, hc, heq⟩ := exec_openSubch_tuned_frame id svc thr hf t ht
    exact ⟨c, hc, fun _ => heq, fun _ hn => absurd hf hn⟩
  · by_cases ha : OpenAdmitted s id thr
    · obtain ⟨c, hc, heq⟩ := exec_openSubch_retune_frame ha hf t ht
      exact ⟨c, hc, fun h => absurd h hf, fun _ _ => heq⟩
    · exact ⟨core s.ctx, .refl _, fun h => absurd h hf, fun h => absurd h ha⟩

end Sys2Proof.Machine

namespace Sys2Proof.Machine

/-! ### The outer scan poll (R810) -/

/-- A poll that meets "not a signal" ends there (R810). -/
theorem scanPoll_notSignal {und : List Read3} {last : Read3} {rest : List Byte} {n : Nat} {s : State}
    (hl : und.length < n) (hu : ∀ r ∈ und, r.h ∉ s.hdt.scan.notSignal ∧ r.h ∉ s.hdt.scan.signal)
    (hn : last.h ∈ s.hdt.scan.notSignal) (hs : s.ctlAnswers = readBytes und ++ last.bytes ++ rest) :
    ∃ t, scanPoll n s = (.channelNotDetected, t)
      ∧ ctlView t = (ctlView s).ran
          (undecidedEvents s.hdt und ++ rd24Events (scanRegs s.hdt) last) rest := by
  obtain ⟨k, rfl⟩ : ∃ k, n = und.length + (k + 1) := ⟨n - und.length - 1, by omega⟩
  obtain ⟨u, hgo, hvu⟩ := scanPoll_undecided und (k + 1) s (last.bytes ++ rest) hu (by simp [hs])
  obtain ⟨v, hvv, hstep⟩ := scanPoll_step k u last rest (answers_of_ran hvu)
  rw [hdt_of_ran hvu] at hvv hstep
  refine ⟨v, ?_, by rw [hvv, hvu, CtlView.ran_ran]⟩
  rw [hgo, hstep, if_pos (by simpa using hn)]

/-- Settles O48: the poll's three ends. -/
theorem scanPollDecides : Obligations.ScanPollDecides := by
  refine fun s und rest hu => ⟨fun last hl hn hs => ?_, fun hl hs => ?_, fun last hl hn hy hs =>
    scanPoll_signal hl hu hn hy hs⟩
  · obtain ⟨t, ht, hv⟩ := scanPoll_notSignal hl hu hn hs
    rw [ht]
    exact ⟨rfl, hv⟩
  · obtain ⟨t, ht, hv⟩ := scanPoll_undecided und 0 s rest hu hs
    rw [← hl, show scanPoll und.length s = _ from ht]
    exact ⟨rfl, hv⟩

/-! ### The classifier under scripted answers (R811 to R816) -/

/-- The pre-gate rejects a coarse frequency in the exclusion band, a power or a gain below its threshold,
and a gain of 0 (R812). -/
theorem preGate_eq_false_iff (t : ScanThresholds) (cf pw g : Nat) :
    preGate t cf pw g = false ↔
      t.cfLo ≤ cf ∧ cf ≤ t.cfHi ∨ pw < t.power ∨ g < t.gain ∨ g = 0 := by
  simp only [preGate, Bool.and_eq_false_iff, Bool.not_eq_false', Bool.and_eq_true, Bool.or_eq_true,
    decide_eq_true_eq, or_assoc]

/-- Settles O49: the classifier's four reads, then the pre-gate's rejection. -/
theorem preGateRejects : Obligations.PreGateRejects := by
  intro pw s tm r rest hm hs hrej
  obtain ⟨u, hu, hc⟩ := classify_reads pw s r.gain r.tm r.cfH r.cfL rest hs
  have hgate : preGate (scanThr s.hdt tm) (join2 r.cfH r.cfL) pw r.gain.toNat = false :=
    (preGate_eq_false_iff _ _ _ _).2 hrej
  rw [hm, if_neg (by simp [hgate])] at hc
  rw [hc]
  exact ⟨rfl, hu⟩

/-- Settles O50: the classifier's success on a good channel. -/
theorem classifyAcceptsGoodChannel : Obligations.ClassifyAcceptsGoodChannel := by
  intro pw s tm r rest hg hs
  obtain ⟨u, hc, hu⟩ := classify_good hg hs
  rw [hc]
  exact ⟨rfl, hu⟩

/-! ### The port calls of a scan's poll, counted (R818, R1130)

Whatever the oracle answers, a poll only reads and waits, and it either finds no channel or ends as the
lock wait does; its bounds add up along the way. -/

/-- No write, at most so many delays of 10 ms and of 40 µs, and no more time requested than such delays
make. -/
structure WaitsOnly (ms us : Nat) (es : List Event) : Prop where
  writes : es.countP isWrite = 0
  fortyUs : es.countP (isDelayUs 40) ≤ us
  tenMs : es.countP (isDelayMs 10) ≤ ms
  requested : requestedUs es ≤ 10000 * ms + 40 * us

/-- From `s` to `t` the control agent's view gains events within these bounds. -/
def Waits (ms us : Nat) (s t : State) : Prop :=
  ∃ es as, ctlView t = (ctlView s).ran es as ∧ WaitsOnly ms us es

namespace Waits

variable {ms us ms' us' : Nat} {s t u : State}

theorem refl (s : State) : Waits 0 0 s s :=
  ⟨[], s.ctlAnswers, by simp [CtlView.ran, ctlView], rfl, le_rfl, le_rfl, le_rfl⟩

theorem trans (h : Waits ms us s t) (h' : Waits ms' us' t u) :
    Waits (ms + ms') (us + us') s u := by
  obtain ⟨es, as, hv, hw, hus, hms, hq⟩ := h
  obtain ⟨fs, bs, hv', hw', hus', hms', hq'⟩ := h'
  refine ⟨es ++ fs, bs, by rw [hv', hv, CtlView.ran_ran], ?_⟩
  constructor <;> simp only [List.countP_append, requestedUs_append] <;> omega

theorem mono (h : Waits ms us s t) (hms : ms ≤ ms' := by omega) (hus : us ≤ us' := by omega) :
    Waits ms' us' s t := by
  obtain ⟨es, as, hv, hw, hu, hm, hq⟩ := h
  exact ⟨es, as, hv, hw, by omega, by omega, by omega⟩

/-- Both branches of a conditional part of an operation. -/
theorem ite {α : Type} {p : Prop} [Decidable p] {a b : α × State}
    (ha : p → Waits ms us s a.2) (hb : ¬p → Waits ms us s b.2) :
    Waits ms us s (if p then a else b).2 := by
  split
  · exact ha ‹_›
  · exact hb ‹_›

end Waits

/-! #### Port calls -/

theorem waits_rd (x : Reg) (s : State) : Waits 0 0 s (rd x s).2 :=
  ⟨_, _, rd_any x s, rfl, le_rfl, le_rfl, le_rfl⟩

theorem waits_rd16 (x : Reg2) (s : State) : Waits 0 0 s (rd16 x s).2 :=
  (waits_rd x.h s).trans (waits_rd x.l _)

theorem waits_rdTxMode (s : State) : Waits 0 0 s (rdTxMode s).2 := waits_rd s.hdt.scan.txmode.reg s

theorem waits_delayPhase (s : State) : Waits 1 0 s (delayMs phaseMs s) :=
  ⟨_, _, delayMs_ran phaseMs s, rfl, le_rfl, le_rfl, le_rfl⟩

theorem waits_delayPoll (s : State) : Waits 0 1 s (delayUs scanPollUs s) :=
  ⟨_, _, delayUs_ran scanPollUs s, rfl, le_rfl, le_rfl, le_rfl⟩

/-! #### The lock wait (R816) -/

theorem waits_lockPoll (s : State) :
    Waits 1 0 s (rdBit (ofdmLockBit s.hdt) (delayMs phaseMs s)).2 :=
  (waits_delayPhase s).trans (waits_rd (ofdmLockBit s.hdt).reg _)

theorem waits_lockWait (n : Nat) (s : State) : Waits n 0 s (lockWait n s).2 := by
  induction n generalizing s with
  | zero => exact .refl s
  | succ n ih =>
    simp only [lockWait]
    split
    · exact (waits_lockPoll s).mono
    · exact ((waits_lockPoll s).trans (ih _)).mono

/-! #### Up to the lock wait (R810 to R814) -/

/-- A part of a scan ends without a channel, or as a lock wait does, after waits within these bounds. -/
def ScanUpToLockWait (ms us : Nat) (s : State) (r : ScanVerdict × State) : Prop :=
  ∃ t, Waits ms us s t ∧ (r = (.channelNotDetected, t) ∨ r = lockWait lockwaitIters t)

namespace ScanUpToLockWait

variable {ms us ms' us' : Nat} {s t : State} {r : ScanVerdict × State}

theorem rejected (s : State) : ScanUpToLockWait ms us s (.channelNotDetected, s) :=
  ⟨s, (Waits.refl s).mono, .inl rfl⟩

theorem locking (s : State) : ScanUpToLockWait ms us s (lockWait lockwaitIters s) :=
  ⟨s, (Waits.refl s).mono, .inr rfl⟩

theorem after (h : Waits ms us s t) (hr : ScanUpToLockWait ms' us' t r) :
    ScanUpToLockWait (ms + ms') (us + us') s r := by
  obtain ⟨u, hu, hr⟩ := hr
  exact ⟨u, h.trans hu, hr⟩

theorem afterReads (h : Waits 0 0 s t) (hr : ScanUpToLockWait ms us t r) :
    ScanUpToLockWait ms us s r := by
  simpa only [Nat.zero_add] using after h hr

theorem mono (h : ScanUpToLockWait ms us s r) (hms : ms ≤ ms' := by omega)
    (hus : us ≤ us' := by omega) : ScanUpToLockWait ms' us' s r := by
  obtain ⟨t, ht, hr⟩ := h
  exact ⟨t, ht.mono, hr⟩

/-- Both branches of a conditional part of a scan. -/
theorem ite {p : Prop} [Decidable p] {a b : ScanVerdict × State}
    (ha : ScanUpToLockWait ms us s a) (hb : ScanUpToLockWait ms us s b) :
    ScanUpToLockWait ms us s (if p then a else b) := by
  split
  · exact ha
  · exact hb

end ScanUpToLockWait

theorem waits_dcCheck (tm : Fin 4) (g : Nat) (s : State) : Waits 0 0 s (dcCheck tm g s).2 := by
  unfold dcCheck
  split
  · exact (waits_rd16 s.hdt.scan.dcI s).trans (waits_rd16 _ _)
  · exact .refl s

/-- Each iteration of phase g waits 10 ms once (R814). -/
theorem phaseG_upToLockWait (tm : Fin 4) (g limit n unl : Nat) (s : State) :
    ScanUpToLockWait n 0 s (phaseG tm g limit n unl s) := by
  induction n generalizing unl s with
  | zero => exact .rejected s
  | succ n ih =>
    suffices h : ScanUpToLockWait (1 + n) (0 + 0) s (phaseG tm g limit (n + 1) unl s) from h.mono
    simp only [phaseG]
    exact .after (waits_delayPhase s) <| .afterReads (waits_rdTxMode _) <| .ite (.rejected _) <|
      .afterReads (waits_dcCheck tm g _) <| .ite (.rejected _) <|
        .afterReads (waits_rd _ _) <| .ite (.rejected _) <|
          .afterReads (waits_rd _ _) <| .ite (.locking _) (ih _ _)

/-- Phase f waits 10 ms at each of its iterations, the fifteenth the last (R813). -/
theorem waits_phaseF (tm : Fin 4) (g n i bad : Nat) (s : State) (hi : i ≤ 15) :
    Waits (16 - i) 0 s (phaseF tm g n i bad s).2 := by
  induction n generalizing i bad s with
  | zero => exact (Waits.refl s).mono
  | succ n ih =>
    have hr := ((waits_delayPhase s).trans (waits_rd16 s.hdt.scan.nullLen _)).trans (waits_rdTxMode _)
    simp only [phaseF, fAcceptAt]
    exact .ite (fun _ => hr.mono) fun _ => .ite (fun _ => hr.mono) fun _ =>
      .ite (fun _ => hr.mono) fun hlast => (hr.trans (ih (i + 1) _ _ (by omega))).mono

theorem waits_of_phaseF {tm : Fin 4} {g : Nat} {s t : State} {r : Option Nat}
    (h : phaseF tm g fIters 1 0 s = (r, t)) : Waits 15 0 s t := by
  have hf := waits_phaseF tm g fIters 1 0 s (by omega)
  rwa [h] at hf

/-- The classifier waits at most fifteen times in phase f and a hundred times in phase g (R818). -/
theorem classify_upToLockWait (pw : Nat) (s : State) :
    ScanUpToLockWait 115 0 s (classify pw s) := by
  simp only [classify]
  refine .afterReads (waits_rd _ _) <| .afterReads (waits_rdTxMode _) <|
    .afterReads (waits_rd16 _ _) <| .ite ?_ (.rejected _)
  split <;> rename_i hf
  · exact (ScanUpToLockWait.after (waits_of_phaseF hf) (.rejected (ms := 0) (us := 0) _)).mono
  · exact (ScanUpToLockWait.after (waits_of_phaseF hf) (phaseG_upToLockWait _ _ _ 100 _ _)).mono

/-- Each undecided iteration of the outer poll waits 40 µs once (R810). -/
theorem scanPoll_upToLockWait (n : Nat) (s : State) :
    ScanUpToLockWait 115 n s (scanPoll n s) := by
  induction n generalizing s with
  | zero => exact .rejected s
  | succ n ih =>
    suffices h : ScanUpToLockWait (0 + 115) (1 + n) s (scanPoll (n + 1) s) from h.mono
    simp only [scanPoll]
    exact .afterReads (waits_rd _ _) <| .afterReads (waits_rd16 _ _) <| .ite (.rejected _) <|
      .ite (classify_upToLockWait _ _).mono (.after (waits_delayPoll _) (ih _))

/-- Settles O53: the bounds up to the lock wait and those of its fifty polls, added. -/
theorem scanBudget : Obligations.ScanBudget := by
  intro s t v h
  obtain ⟨u, hu, hr⟩ := scanPoll_upToLockWait 10000 s
  have hw : Waits (115 + 50) 10000 s t := by
    rw [show scanPoll 10000 s = (v, t) from h] at hr
    rcases hr with hr | hr
    · cases hr
      exact hu.mono
    · have hl := waits_lockWait lockwaitIters u
      rw [← hr] at hl
      exact hu.trans hl
  obtain ⟨es, as, hv, hwrites, hus, hms, hq⟩ := hw
  exact ⟨es, congrArg CtlView.events hv, hwrites, hus, hms, hq⟩

/-! ### A scan that answers `SUCCESS` (R816, R817) -/

/-- From `s` to `t` the control agent's last port call has read the OFDM-lock bit set. -/
def EndsInLock (s t : State) : Prop :=
  ∃ es b, eventsOf .control t = eventsOf .control s ++ es ++ [.rd (ofdmLockBit s.hdt).reg b]
    ∧ bitOf (ofdmLockBit s.hdt).pos b = true

theorem EndsInLock.after {s t u : State} (h : EndsInLock u t) (hh : u.hdt = s.hdt)
    (hp : eventsOf .control s <+: eventsOf .control u) : EndsInLock s t := by
  obtain ⟨es, b, hev, hb⟩ := h
  obtain ⟨fs, hfs⟩ := hp
  rw [hh, ← hfs, List.append_assoc _ fs] at hev
  exact ⟨fs ++ es, b, hev, hh ▸ hb⟩

theorem EndsInLock.of_ran {s t u : State} {es : List Event} {as : List Byte} (h : EndsInLock u t)
    (hu : ctlView u = (ctlView s).ran es as) : EndsInLock s t :=
  h.after (hdt_of_ran hu) ⟨es, (congrArg CtlView.events hu).symm⟩

theorem EndsInLock.of_grows {s t u : State} (h : EndsInLock u t) (hu : Grows s u) :
    EndsInLock s t :=
  h.after hu.hdt ((hu.trace.filter _).map _)

/-- A lock wait succeeds at a lock (R816). -/
theorem lockWait_success {n : Nat} {s t : State} (h : lockWait n s = (.success, t)) :
    EndsInLock s t := by
  induction n generalizing s with
  | zero => cases h
  | succ n ih =>
    have hd := delayMs_ran phaseMs s
    have hr : ctlView (rdBit (ofdmLockBit s.hdt) (delayMs phaseMs s)).2 = _ :=
      rd_any (ofdmLockBit s.hdt).reg (delayMs phaseMs s)
    rw [hd, CtlView.ran_ran] at hr
    simp only [lockWait] at h
    split at h
    · rename_i hlock
      cases h
      have hev : eventsOf .control _ = _ := congrArg CtlView.events hr
      exact ⟨_, _, hev.trans (List.append_assoc _ _ _).symm, hlock⟩
    · exact (ih h).of_ran hr

/-- A poll can succeed only as its lock wait does. -/
theorem scanPoll_success {n : Nat} {s t : State} (h : scanPoll n s = (.success, t)) :
    EndsInLock s t := by
  obtain ⟨u, ⟨es, as, hu, -⟩, hr⟩ := scanPoll_upToLockWait n s
  rw [h] at hr
  rcases hr with hr | hr
  · cases hr
  · exact (lockWait_success hr.symm).of_ran hu

theorem scanMap_ne_success (e : ErrorCode) : scanMap e ≠ .success := by
  cases e <;> decide

/-- A failing tune has a verdict of its own, so a scan succeeds only as its poll does (R801). -/
theorem scanTuned_success {f : Nat} {s t : State} (h : scanTuned f s = (.success, t)) :
    EndsInLock s t := by
  have hg := controlClosed_grows.synthSetFrequency s.ctx.mode 0 f s
  unfold scanTuned at h
  split at h <;> rename_i u heq <;> rw [heq] at hg
  · exact absurd (congrArg Prod.fst h) (scanMap_ne_success _)
  · exact (scanPoll_success h).of_grows (hg.trans (controlClosed_grows.softReset u.ctx.mode u))

/-- The last reply after a scan is its verdict. -/
theorem verdict_of_returnVerdict {v w : ScanVerdict} {f : Nat} {s t : State} {rs : List Reply}
    (h : returnVerdict v f s = .next t) (hr : repliesOf .control t = rs ++ [.verdict w]) : v = w := by
  cases h
  rw [repliesOf_reply_same] at hr
  simpa using (List.append_inj' hr rfl).2

/-- The end of a scan is no port call. -/
theorem eventsOf_returnVerdict {v : ScanVerdict} {f : Nat} {s t : State}
    (h : returnVerdict v f (setCcip false s) = .next t) :
    eventsOf .control t = eventsOf .control s := by
  cases h
  exact (congrArg CtlView.events (ctlView_setCcip false s) :)

/-- A scan that is not refused and does not fault ends in a verdict: `INVALID_MODE` outside the modes that
have channels, else that of the part from the tune on (R800). -/
theorem exec_scanFreq_cases {f : Nat} {s t : State} (h : exec (.scanFreq f) s = .next t) :
    returnVerdict .invalidMode f s = .next t
      ∨ ∃ u, closeAllBindings (setCcip true s) = .ok u
        ∧ returnVerdict (scanTuned f u).1 f (setCcip false (scanTuned f u).2) = .next t := by
  rw [show exec (.scanFreq f) s = _ from inSession_of_ready (ready_of_inSession_next h) _] at h
  split at h
  · exact .inl h
  · split at h
    · cases h
    · exact .inr ⟨_, ‹_›, h⟩

/-- Settles O52: the reply is the verdict of the part from the tune on, which succeeds only at a lock. -/
theorem successNeedsOfdmLock : Obligations.SuccessNeedsOfdmLock := by
  intro f s t ht hrep
  rcases exec_scanFreq_cases ht with hend | ⟨u, hu, hend⟩
  · cases verdict_of_returnVerdict hend hrep
  · have hg := (controlClosed_grows.setCcip true s).trans (controlClosed_grows.closeIds _ _ u hu)
    have hv := verdict_of_returnVerdict hend hrep
    obtain ⟨es, b, hev, hb⟩ := (scanTuned_success (Prod.ext hv rfl)).of_grows hg
    exact ⟨es, b, (eventsOf_returnVerdict hend).trans hev, hb⟩

end Sys2Proof.Machine

namespace Sys2Proof.Machine

/-! ### Getter commands under the flag (R901) -/

/-- With no operation in progress and the flag up, a getter command answers its sentinel at once. -/
theorem exec_getter_of_flagged {i : Instr} {c : GetterCmd} {s : State} (hc : getterCmd i = some c)
    (hr : Ready s) (hg : s.getter = none) (hf : s.ctx.ccip = true) :
    exec i s = .next (reply .getter (.value (sentinel c)) s) := by
  simp [exec_getter hc, inSession_of_ready hr, getterOp, finishGetter, hg, hf]

/-- Settles O54: the flag check comes before the first port call, so each getter answers its sentinel. -/
theorem gettersUnderFlag : Obligations.GettersUnderFlag := by
  intro s hr hg hf
  have answers (i : Instr) (c : GetterCmd) (hc : getterCmd i = some c) :
      exec i s = .next (reply .getter (.value (sentinel c)) s) :=
    exec_getter_of_flagged hc hr hg hf
  exact ⟨answers _ .lockStatus rfl, answers _ .per rfl, answers _ .rssi rfl, answers _ .cnr rfl,
    answers _ .ber rfl, answers _ .cer rfl, fun cer => answers _ (.antennaLevel cer) rfl⟩

/-! ### What a getter operation leaves to the rest of the machine (R220, R222) -/

/-- The getter operation in progress, the pending refusal, the host's bytes and the schedule are as before. -/
structure HostSideKept (s t : State) : Prop where
  getter : t.getter = s.getter
  getterRefused : t.getterRefused = s.getterRefused
  inbox : t.inbox = s.inbox
  sched : t.sched = s.sched

theorem HostSideKept.trans {s t u : State} (h : HostSideKept s t) (h' : HostSideKept t u) :
    HostSideKept s u :=
  ⟨h'.getter.trans h.getter, h'.getterRefused.trans h.getterRefused, h'.inbox.trans h.inbox,
    h'.sched.trans h.sched⟩

theorem hostSideKept_reply (a : Agent) (r : Reply) (s : State) : HostSideKept s (reply a r s) :=
  ⟨rfl, rfl, rfl, rfl⟩

theorem hostSideKept_perform (a : Agent) (op : PortOp) (s : State) :
    HostSideKept s (perform a op s).2 := by
  cases op with
  | rd r => cases a <;> simp only [perform, oracle] <;> split <;> exact ⟨rfl, rfl, rfl, rfl⟩
  | _ => exact ⟨rfl, rfl, rfl, rfl⟩

theorem hostSideKept_runProg (prev : Option Nat) (p : GetterProg) (s : State) :
    HostSideKept s (runProg prev p s) := by
  induction p generalizing s with
  | ret v => exact hostSideKept_reply _ _ s
  | level raw => exact ⟨rfl, rfl, rfl, rfl⟩
  | call op k ih => exact (hostSideKept_perform .getter op s).trans (ih _ _)

theorem finishGetter_of_idle {s : State} (hg : s.getter = none) : finishGetter s = s := by
  simp [finishGetter, hg]

/-- Waiting for the operation in progress clears it and leaves the rest of the host's side alone. -/
theorem hostSideKept_finishGetter (s : State) :
    HostSideKept { s with getter := none } (finishGetter s) := by
  cases hg : s.getter with
  | none => rw [finishGetter_of_idle hg]; exact ⟨hg, rfl, rfl, rfl⟩
  | some g => simp only [finishGetter, hg]; exact hostSideKept_runProg _ _ _

theorem hostSideKept_getterOp (c : GetterCmd) (s : State) :
    HostSideKept { s with getter := none } (getterOp c s) := by
  refine (hostSideKept_finishGetter s).trans ?_
  unfold getterOp
  split
  · exact hostSideKept_reply _ _ _
  · exact hostSideKept_runProg _ _ _

/-! ### The getters that write no context field (R900 to R950) -/

/-- No way through a program ends in the hysteresis step of R960. -/
def NoLevelStep : GetterProg → Prop
  | .ret _ => True
  | .level _ => False
  | .call _ k => ∀ b, NoLevelStep (k b)

theorem noLevelStep_progDo (as : Action) {p : GetterProg} (hp : NoLevelStep p) :
    NoLevelStep (progDo as p) := by
  induction as with
  | nil => exact hp
  | cons w ws ih => exact fun _ => ih

theorem noLevelStep_getterProg (h : Hdt) {c : GetterCmd} (hc : ∀ cer, c ≠ .antennaLevel cer) :
    NoLevelStep (getterProg h c) := by
  cases c with
  | lockStatus => exact fun _ _ => trivial
  | rssi => exact fun _ _ => trivial
  | cnr => exact noLevelStep_progDo _ fun _ _ => trivial
  | per => intro b; dsimp only; split; exacts [fun _ _ => trivial, trivial]
  | ber => intro b; dsimp only; split; exacts [fun _ _ _ _ _ _ => trivial, trivial]
  | cer => intro b; dsimp only; split; exacts [fun _ _ _ _ _ _ _ _ => trivial, trivial]
  | antennaLevel cer => exact absurd rfl (hc cer)

/-- Only the hysteresis step writes the context. -/
theorem runProg_ctx (prev : Option Nat) {p : GetterProg} (hp : NoLevelStep p) (s : State) :
    (runProg prev p s).ctx = s.ctx := by
  induction p generalizing s with
  | ret v => rfl
  | level raw => exact hp.elim
  | call op k ih => exact (ih _ (hp _) _).trans (perform_ctx .getter op s)

theorem getterOp_ctx {c : GetterCmd} {s : State} (hc : ∀ cer, c ≠ .antennaLevel cer)
    (hg : s.getter = none) : (getterOp c s).ctx = s.ctx := by
  rw [getterOp, finishGetter_of_idle hg]
  split
  · rfl
  · exact runProg_ctx none (noLevelStep_getterProg s.hdt hc) s

theorem getterCmd_eq_antennaLevel {i : Instr} {cer : Nat}
    (h : getterCmd i = some (.antennaLevel cer)) : i = .getAntennaLevel cer := by
  cases i <;> cases h
  rfl

theorem getterCmd_of_agentOf {i : Instr} (h : agentOf i = .getter) : ∃ c, getterCmd i = some c := by
  cases hc : getterCmd i with
  | none => simp [agentOf, hc] at h
  | some c => exact ⟨c, rfl⟩

/-- An accepted getter command ends in the state of its whole operation. -/
theorem eq_getterOp_of_exec_next {i : Instr} {c : GetterCmd} {s t : State}
    (hc : getterCmd i = some c) (ht : exec i s = .next t) : t = getterOp c s := by
  rw [exec_getter hc] at ht
  rw [inSession_of_ready (ready_of_inSession_next ht)] at ht
  cases ht
  rfl

/-- Settles O35: the operation in progress and the command's own program write the level only, and of the
programs only that of `GET_ANTENNA_LEVEL` ends in a hysteresis step. -/
theorem getterFrame : Obligations.GetterFrame := by
  intro i s t ha ht
  obtain ⟨c, hc⟩ := getterCmd_of_agentOf ha
  obtain rfl := eq_getterOp_of_exec_next hc ht
  obtain ⟨hgetter, hrefused, hinbox, hsched⟩ := hostSideKept_getterOp c s
  refine ⟨ctlView_getterOp c s, hgetter, hrefused, hinbox, hsched, fun hg hi => ?_⟩
  exact getterOp_ctx (fun cer h => hi cer (getterCmd_eq_antennaLevel (h ▸ hc))) hg

end Sys2Proof.Machine

namespace Sys2Proof.Machine

/-! ### Past its guards no command is refused (R1007) -/

/-- The outcome is a next state or a fault. -/
def NotRefused (o : Out) : Prop := ∀ r, o ≠ .refused r

theorem notRefused_next (s : State) : NotRefused (.next s) := nofun

theorem notRefused_fault (f : Fault) : NotRefused (.fault f) := nofun

theorem notRefused_finish (r : Except ErrorCode Unit) (s : State) : NotRefused (finish r s) := by
  cases r with
  | ok _ => exact notRefused_next _
  | error _ => exact notRefused_next _

theorem notRefused_bindAndReturn (id : Nat) (svc : ServiceType) (thr : Nat) (k : State → State)
    (s : State) : NotRefused (bindAndReturn id svc thr k s) := by
  unfold bindAndReturn
  split
  · exact notRefused_fault _
  · exact notRefused_next _

theorem notRefused_openTuned (id : Nat) (svc : ServiceType) (thr : Nat) (s : State) :
    NotRefused (openTuned id svc thr s) := by
  unfold openTuned
  split
  · exact notRefused_next _
  · split
    · split
      · exact notRefused_next _
      · exact notRefused_bindAndReturn _ _ _ _ _
    · split
      · exact notRefused_fault _
      · exact notRefused_bindAndReturn _ _ _ _ _

theorem notRefused_openRetune (f id : Nat) (svc : ServiceType) (thr : Nat) (s : State) :
    NotRefused (openRetune f id svc thr s) := by
  unfold openRetune
  split
  · exact notRefused_fault _
  · dsimp only
    split
    · exact notRefused_next _
    · exact notRefused_bindAndReturn _ _ _ _ _

theorem notRefused_execInit (mode : ReceiverMode) {s : State} (hh : hdtOk s.hdt = true) :
    NotRefused (execInit mode s) := by
  rcases execInit_cases mode hh with he | ⟨-, u, -, ⟨e, he⟩ | he⟩ <;> rw [he] <;>
    exact notRefused_next _

/-- In an open session under an accepted HDT a command but `INIT` runs its operation, which answers or
faults. -/
theorem notRefused_exec_of_ready {i : Instr} (hi : ∀ mode, i ≠ .init mode) {s : State}
    (hr : Ready s) : NotRefused (exec i s) := by
  have key {k : State → Out} (h : NotRefused (k s)) : NotRefused (inSession s k) := by
    rwa [inSession_of_ready hr]
  cases i with
  | init mode => exact absurd rfl (hi mode)
  | adcConfigure mode clk => exact key (notRefused_finish _ _)
  | adcChangeClock mode clk => exact key (notRefused_finish _ _)
  | setFreq mode ch f => exact key (notRefused_finish _ _)
  | scanFreq f =>
    refine key ?_
    split
    · exact notRefused_next _
    · split
      · exact notRefused_fault _
      · exact notRefused_next _
  | openSubch f id svc thr =>
    refine key ?_
    split
    · exact notRefused_next _
    · split
      · exact notRefused_next _
      · split
        · exact notRefused_next _
        · split
          · exact notRefused_openTuned _ _ _ _
          · exact notRefused_openRetune _ _ _ _ _
  | closeSubch id =>
    refine key ?_
    split
    · exact notRefused_next _
    · split
      · split
        · exact notRefused_fault _
        · exact notRefused_next _
      · exact notRefused_next _
  | closeAllSubch =>
    refine key ?_
    split
    · exact notRefused_fault _
    · exact notRefused_next _
  | _ => exact key (notRefused_next _)

theorem notRefused_exec {i : Instr} {s : State} (hh : hdtOk s.hdt = true)
    (ho : (∃ mode, i = .init mode) ∨ s.ctx.initialized = true) : NotRefused (exec i s) := by
  by_cases hi : ∃ mode, i = .init mode
  · obtain ⟨mode, rfl⟩ := hi
    exact notRefused_execInit mode hh
  · exact notRefused_exec_of_ready (not_exists.1 hi) ⟨ho.resolve_left hi, hh⟩

/-- `INIT`, and every command in an open session, is refused by the check of the HDT only (R12). -/
theorem exec_refused_by_hdt {i : Instr} {s : State} {r : Refusal}
    (ho : (∃ mode, i = .init mode) ∨ s.ctx.initialized = true) (h : exec i s = .refused r) :
    r = .hdtRejected ∧ hdtOk s.hdt = false := by
  cases hh : hdtOk s.hdt with
  | true => exact absurd h (notRefused_exec hh ho r)
  | false =>
    obtain ⟨r', hr', -, hrejected⟩ := rejectedHdtRefusesEveryCommand i s hh
    exact ⟨(Host.Outcome.refused.inj (h.symm.trans hr')).trans (hrejected ho), rfl⟩

/-- The two guards are the only places where a command is refused (R402, R12). -/
theorem exec_refused {i : Instr} {s : State} {r : Refusal} (h : exec i s = .refused r) :
    (r = .notInitialised ∧ s.ctx.initialized = false ∧ ∀ mode, i ≠ .init mode)
    ∨ (r = .hdtRejected ∧ hdtOk s.hdt = false) := by
  by_cases hi : ∃ mode, i = .init mode
  · exact .inr (exec_refused_by_hdt (.inl hi) h)
  · cases ho : s.ctx.initialized with
    | true => exact .inr (exec_refused_by_hdt (.inr ho) h)
    | false =>
      rw [commandsBeforeInitRefused i s (not_exists.1 hi) ho] at h
      exact .inl ⟨(Host.Outcome.refused.inj h).symm, rfl, not_exists.1 hi⟩

/-! ### In an open session no refusal comes to be pending (R402, log 4) -/

theorem advanceGetter_getterRefused (g : GetterRun) (s : State) :
    (advanceGetter g s).getterRefused = s.getterRefused := by
  unfold advanceGetter
  split
  · exact (hostSideKept_perform .getter _ s).getterRefused
  · rfl
  · rfl
  · rfl

theorem startGetter_getterRefused (c : GetterCmd) (s : State) :
    (startGetter c s).getterRefused = s.getterRefused := by
  unfold startGetter
  split <;> rfl

/-- From an open session on, the session stays open and the pending refusal is as before. -/
def NoNewRefusal (s t : State) : Prop :=
  s.ctx.initialized = true → t.ctx.initialized = true ∧ t.getterRefused = s.getterRefused

theorem NoNewRefusal.trans {s t u : State} (h : NoNewRefusal s t) (h' : NoNewRefusal t u) :
    NoNewRefusal s u := by
  intro ho
  obtain ⟨ht, hst⟩ := h ho
  obtain ⟨hu, htu⟩ := h' ht
  exact ⟨hu, htu.trans hst⟩

theorem noNewRefusal_getterMove (s : State) : NoNewRefusal s (getterMove s) := by
  intro ho
  refine ⟨(SessionKept.of_core (core_of_ctlView (ctlView_getterMove s))).initialized.trans ho, ?_⟩
  unfold getterMove
  split
  · exact advanceGetter_getterRefused _ s
  · split
    · rw [if_pos ho]
      exact startGetter_getterRefused _ _
    · rfl

theorem noNewRefusal_getterMoves (n : Nat) (s : State) : NoNewRefusal s (getterMoves n s) := by
  induction n generalizing s with
  | zero => exact fun ho => ⟨ho, rfl⟩
  | succ n ih => exact (noNewRefusal_getterMove s).trans (ih _)

theorem noNewRefusal_interleave (s : State) : NoNewRefusal s (interleave s) := by
  unfold interleave
  split
  · exact fun ho => ⟨ho, rfl⟩
  · rename_i n ns _
    exact noNewRefusal_getterMoves n { s with sched := ns }

theorem controlClosed_noNewRefusal : ControlClosed NoNewRefusal where
  refl _ ho := ⟨ho, rfl⟩
  trans := NoNewRefusal.trans
  interleave := noNewRefusal_interleave
  perform op s ho :=
    ⟨by rw [perform_ctx]; exact ho, (hostSideKept_perform .control op s).getterRefused⟩
  reply _ _ ho := ⟨ho, rfl⟩
  ctx _ _ h ho := ⟨h.initialized.trans ho, rfl⟩

/-- A command but `INIT` runs in an open session, where the getter agent refuses nothing. -/
theorem exec_getterRefused {i : Instr} {s t : State} (hi : ∀ mode, i ≠ .init mode)
    (ht : exec i s = .next t) : t.getterRefused = s.getterRefused := by
  cases hc : getterCmd i with
  | some c =>
    obtain rfl := eq_getterOp_of_exec_next hc ht
    exact (hostSideKept_getterOp c s).getterRefused
  | none =>
    obtain ⟨k, hk⟩ := exec_guarded hi
    obtain ⟨ho, -⟩ := ready_of_inSession_next ((hk s).symm.trans ht)
    exact (controlClosed_noNewRefusal.exec hc hi s t ht ho).2

/-- Settles O11: the guards are the only refusals, and a command but `INIT` leaves the pending one as it
was. -/
theorem onlyTheSpecsRefusals : Obligations.OnlyTheSpecsRefusals := by
  refine ⟨fun _ _ _ => exec_refused, fun i s t ht => ⟨(grows_exec i s t ht).refused, fun hp => ?_⟩⟩
  by_cases hi : ∃ mode, i = .init mode
  · exact .inr hi
  · exact .inl ((exec_getterRefused (not_exists.1 hi) ht).symm.trans hp)

end Sys2Proof.Machine
